-- ==== Sys2Proof/Word.lean ====
section
/-! DEFINITION. The word types of the block: an 8-bit byte and a 16-bit register word (00_scope.md R9, 10_state.md R23). -/

namespace Sys2Proof

/-- One byte; bit 7 is its most significant bit (00_scope.md R9). -/
abbrev Byte := BitVec 8

/-- The width of every register access (10_state.md R23, 20_memory.md R66). -/
abbrev Reg16 := BitVec 16

end Sys2Proof
end

