-- ==== Sys2Proof/Config.lean ====
section
/-! DEFINITION. What an instance of the block fixes (00_scope.md R8) and the values the spec leaves free. -/

namespace Sys2Proof.Config

/-- The parameters of 00_scope.md R8 that differ between instances. A state holds one `Params`, no step changes it,
so a claim about every state is a claim about every choice of the parameters (DESIGN CHOICE, log 1; safe). -/
structure Params where
  /-- `ADC_WIDTH`, legal 1 to 16. -/
  adcWidth : Nat
  /-- `RX_FIFO_DEPTH`, legal 5 to 31. -/
  rxFifoDepth : Nat
  /-- `LAT_MAX`, at least 1. -/
  latMax : Nat
  /-- `P_TERMINAL_COUNT`, 0 to 127. -/
  terminalCount : BitVec 7
  /-- `P_EDGE_THRESHOLD`. -/
  edgeThreshold : Reg16
  /-- `P_BTN_MEAN[1]`. -/
  btnMean1 : Reg16
  /-- `P_BTN_MEAN[2]`. -/
  btnMean2 : Reg16
  /-- `P_BTN_MEAN[3]`. -/
  btnMean3 : Reg16
  /-- `P_BTN_INTERVAL[1]`. -/
  btnInterval1 : Reg16
  /-- `P_BTN_INTERVAL[2]`. -/
  btnInterval2 : Reg16
  /-- `P_BTN_INTERVAL[3]`. -/
  btnInterval3 : Reg16
  deriving DecidableEq, Repr

/-- FREE VALUE: what a buffer byte that nothing has written since the last reset reads as, by the number of the reset
and the byte's register address (10_state.md R48, 93_implementation_defined.md; log 8). -/
opaque unwrittenByte : Nat → Nat → Byte

/-- FREE VALUE: how long the n-th command takes, before it is brought into 1..LAT_MAX
(70_reset_and_hazards.md R242; log 4). -/
opaque latencyChoice : Nat → Nat

end Sys2Proof.Config
end

