-- ==== Sys2Proof/Machine/Defaults.lean ====
section
/-! DEFINITION. The constants of 00_scope.md R8 and the reset values the spec states as numbers (10_state.md R53). -/

namespace Sys2Proof.Machine

/-- `BUF_BYTES`: the size of IN_BUF and of OUT_BUF (00_scope.md R8). -/
def bufBytes : Nat := 32

/-- Payload bytes of a terminal's reply: `encoded_size(3)` (30_encoding.md R89). -/
def replyBytes : Nat := 4

/-- Reset of POLL_TIMEOUT_MS: "default 30 ms" (10_state.md R33). -/
def pollTimeoutDefault : Reg16 := 30

/-- Reset of CONN_TIMEOUT_MS: "default 100 ms" (10_state.md R34). -/
def connTimeoutDefault : Reg16 := 100

/-- Reset of DEBOUNCE_MS: "default 200 ms" (10_state.md R40). -/
def debounceDefault : Reg16 := 200

/-- Reset of HELD_THRESHOLD: "default 5" (10_state.md R41). -/
def heldThresholdDefault : Byte := 5

/-- The parameters of `State.reset`. RX_FIFO_DEPTH is the spec's 16; the OPEN ones are DESIGN CHOICE values (log 1;
unsafe for a claim that rests on them, which none does): the widest ADC, latency 1, and zeros. -/
def defaultParams : Config.Params where
  adcWidth := 16
  rxFifoDepth := 16
  latMax := 1
  terminalCount := 0
  edgeThreshold := 0
  btnMean1 := 0
  btnMean2 := 0
  btnMean3 := 0
  btnInterval1 := 0
  btnInterval2 := 0
  btnInterval3 := 0

/-- The parameter ranges outside which the model gives no meaning (00_scope.md R8, 60_exceptions.md R216). -/
def legalParams (p : Config.Params) : Bool :=
  1 ≤ p.adcWidth && p.adcWidth ≤ 16 && 5 ≤ p.rxFifoDepth && p.rxFifoDepth ≤ 31 && 1 ≤ p.latMax

end Sys2Proof.Machine
end

