-- ==== Sys2Proof/Machine/State.lean ====
section
/-! DEFINITION. The state of the block as plain data (10_state.md), why a step can stop, and the state after reset (R53). -/

namespace Sys2Proof.Machine

/-- STATUS.RESULT, the outcome of the last completed command (60_exceptions.md R200). Codes 9 to 15 are never produced. -/
inductive Result where
  | ok
  | idle
  | timeout
  | invalidResponse
  | invalidCrc
  | disabled
  | invalidArg
  | invalidOp
  | debounce
  deriving DecidableEq, Repr

/-- STATUS.BPE_STATE, the polling engine's phase (10_state.md R25). Codes 4 to 7 never occur. -/
inductive BpeState where
  | idle
  | tx
  | waitId
  | waitData
  deriving DecidableEq, Repr

/-- The 2-bit state of one button (10_state.md R45). -/
inductive BtnState where
  | idle
  | pressed
  | doublePressed
  | held
  deriving DecidableEq, Repr

/-- The three buttons of a terminal (00_scope.md R8, `NUM_BUTTONS`). -/
inductive Button where
  | b1
  | b2
  | b3
  deriving DecidableEq, Repr

/-- A byte buffer: pairs of index and byte, indices strictly rising. An index that is not listed holds a byte nothing has
written since reset: it has no value (10_state.md R48, log 7 and log 8). -/
abbrev Memory := List Host.Cell

/-- One receive-FIFO entry: the byte and its reception error (10_state.md R49). -/
structure RxEntry where
  data : Byte
  err : Bool
  deriving DecidableEq, Repr

/-- RX_FRAME[0..3], the payload bytes taken so far (10_state.md R50). -/
structure RxFrame where
  b0 : Byte
  b1 : Byte
  b2 : Byte
  b3 : Byte
  deriving DecidableEq, Repr

/-- The values of the input ports at one clock edge (10_state.md R22). -/
structure Ports where
  rst : Bool
  regAddr : BitVec 7
  regWe : Bool
  regWdata : Reg16
  tickMs : Bool
  txReady : Bool
  txDone : Bool
  rxValid : Bool
  rxData : Byte
  rxErr : Bool
  deriving DecidableEq, Repr

/-- An edge at which the environment does nothing: no reset, no write, no Tick, no byte, no handshake. -/
def idlePorts : Ports where
  rst := false
  regAddr := 0
  regWe := false
  regWdata := 0
  tickMs := false
  txReady := false
  txDone := false
  rxValid := false
  rxData := 0
  rxErr := false

/-- The stored fields of STATUS but BPE_STATE and RX_COUNT, which are the polling engine's and the FIFO's
(10_state.md R25). -/
structure Status where
  busy : Bool
  result : Result
  done : Bool
  rxOvr : Bool
  wrLost : Bool
  deriving DecidableEq, Repr

/-- The registers the host writes and the block only reads (10_state.md R26, R27, R29, R31 to R34, R40 to R44). -/
structure HostRegs where
  /-- CTRL.IRQ_EN. -/
  irqEn : Bool
  /-- CTRL.CHK_MARK. -/
  chkMark : Bool
  argN : Byte
  argByte : Byte
  /-- ARG_SAMPLE; bits from ADC_WIDTH up are reserved. -/
  argSample : Reg16
  terminalCount : BitVec 7
  pollTimeoutMs : Reg16
  connTimeoutMs : Reg16
  debounceMs : Reg16
  heldThreshold : Byte
  edgeThreshold : Reg16
  btnMean1 : Reg16
  btnMean2 : Reg16
  btnMean3 : Reg16
  btnInterval1 : Reg16
  btnInterval2 : Reg16
  btnInterval3 : Reg16
  deriving DecidableEq, Repr

/-- The polling engine: its result registers (10_state.md R35 to R39), its phase (R25) and its hidden registers (R50),
with the id of the call in progress (42_polling.md R153) and the transmit handshake (R154). -/
structure PollUnit where
  bpe : BpeState
  nextId : BitVec 7
  dev : BitVec 7
  trim : BitVec 10
  btn : BitVec 6
  /-- POLL_CRC.RX. -/
  crcRx : Byte
  /-- POLL_CRC.CALC. -/
  crcCalc : Byte
  winLeft : Reg16
  dataCnt : BitVec 3
  frame : RxFrame
  /-- `id` of R152: the device polled by the call in progress. -/
  callId : BitVec 7
  /-- The transmitter has taken the poll byte; `tx_done` is awaited (R154). -/
  txTaken : Bool
  deriving DecidableEq, Repr

/-- The button classifier: BC_STATES, BC_RUN (`last` is none where LAST is 0) and BC_DEBOUNCE_LEFT
(10_state.md R45 to R47). -/
structure ButtonUnit where
  st1 : BtnState
  st2 : BtnState
  st3 : BtnState
  last : Option Button
  count : Byte
  left : Reg16
  deriving DecidableEq, Repr

/-- What the command engine holds of the command in progress (10_state.md R51). -/
structure Engine where
  opcode : Byte
  /-- The model's: edges left up to and including the one that runs the command (log 4). -/
  latLeft : Nat
  /-- The model's: BC_DEBOUNCE_LEFT as read at the issue edge (30_encoding.md R95, 43_buttons.md R183; log 6). -/
  debounceAtIssue : Reg16
  deriving DecidableEq, Repr

/-- The whole state of one instance of the block, its parameters, and the inputs the environment presents from this edge on. -/
structure State where
  status : Status
  regs : HostRegs
  resN : Reg16
  resByte : Byte
  poll : PollUnit
  btn : ButtonUnit
  engine : Engine
  inBuf : Memory
  outBuf : Memory
  rxFifo : List RxEntry
  params : Config.Params
  /-- The model's: the input ports at this edge (the head) and at the edges after it; idle inputs once it is exhausted (log 2). -/
  script : List Ports
  /-- The model's: resets so far, the first argument of the free buffer contents (log 8). -/
  resets : Nat
  /-- The model's: commands issued so far, the argument of the free latency (log 4). -/
  issued : Nat
  deriving DecidableEq, Repr

/-- Why a step can fault. The block itself has no fault state (60_exceptions.md R216). -/
inductive Fault where
  /-- Raised by the buffer accesses of a command for an index outside 0..31, where the spec has no byte
  (20_memory.md R60). No command reaches it. Safe: the machine stops instead of inventing a byte. -/
  | noSuchBufferByte (index : Nat)
  deriving DecidableEq, Repr

/-- Why the model gives a step no meaning. -/
inductive Refusal where
  /-- Raised by `exec` for an instruction without a meaning; none is left. Safe: the machine stops. -/
  | notModelled (mnemonic : String)
  /-- Raised by ENCODE.x, DECODE.x and CRC8 where they read an IN_BUF byte the host has not written since reset, which
  60_exceptions.md R216 names as refused. Safe: the machine stops instead of choosing the unspecified byte. -/
  | inBufNotWritten (index : Nat)
  /-- Raised by `step` where a parameter is outside its legal range, which R216 names as refused. Safe: the machine stops. -/
  | illegalParameters
  deriving DecidableEq, Repr

/-- The registers the host writes, at reset (10_state.md R53). -/
def HostRegs.atReset (p : Config.Params) : HostRegs where
  irqEn := false
  chkMark := false
  argN := 0
  argByte := 0
  argSample := 0
  terminalCount := p.terminalCount
  pollTimeoutMs := pollTimeoutDefault
  connTimeoutMs := connTimeoutDefault
  debounceMs := debounceDefault
  heldThreshold := heldThresholdDefault
  edgeThreshold := p.edgeThreshold
  btnMean1 := p.btnMean1
  btnMean2 := p.btnMean2
  btnMean3 := p.btnMean3
  btnInterval1 := p.btnInterval1
  btnInterval2 := p.btnInterval2
  btnInterval3 := p.btnInterval3

/-- The state after reset for given parameters (10_state.md R53, 70_reset_and_hazards.md R230): every field at its reset
value, the buffers with nothing listed. The hidden fields R53 does not list are 0 (DESIGN CHOICE, log 13). -/
def State.resetWith (p : Config.Params) : State where
  status := { busy := false, result := .ok, done := false, rxOvr := false, wrLost := false }
  regs := HostRegs.atReset p
  resN := 0
  resByte := 0
  poll :=
    { bpe := .idle, nextId := 0, dev := 0, trim := 0, btn := 0, crcRx := 0, crcCalc := 0, winLeft := 0, dataCnt := 0,
      frame := { b0 := 0, b1 := 0, b2 := 0, b3 := 0 }, callId := 0, txTaken := false }
  btn := { st1 := .idle, st2 := .idle, st3 := .idle, last := none, count := 0, left := 0 }
  engine := { opcode := 0, latLeft := 0, debounceAtIssue := 0 }
  inBuf := []
  outBuf := []
  rxFifo := []
  params := p
  script := []
  resets := 0
  issued := 0

/-- The machine right after reset, with the parameters log 1 names and an environment that does nothing. -/
def State.reset : State := State.resetWith defaultParams

end Sys2Proof.Machine
end

