-- ==== Sys2Proof/Machine/Ops.lean ====
section
/-! DEFINITION. The named operations on buffers, FIFO and command engine: the pseudocode primitives of 00_scope.md R11. -/

namespace Sys2Proof.Machine

/-- What a meaning answers. -/
abbrev Answer := Host.Outcome State Fault Refusal

/-! ### The byte buffers (20_memory.md R60 to R62) -/

/-- The byte at index `i`, if something has written it since reset. -/
def Memory.read : Memory → Nat → Option Byte
  | [], _ => none
  | (a, v) :: m, i => if a = i then some v else Memory.read m i

/-- The buffer with `v` at index `i`, the indices kept strictly rising. -/
def Memory.write : Memory → Nat → Byte → Memory
  | [], i, v => [(i, v)]
  | (a, w) :: m, i, v =>
    if i < a then (i, v) :: (a, w) :: m
    else if i = a then (i, v) :: m
    else (a, w) :: Memory.write m i v

/-- The canonical form from index `lo` on: indices strictly rising, none of them outside the buffer. -/
def Memory.wfFrom (lo : Nat) : Memory → Bool
  | [] => true
  | (a, _) :: m => lo ≤ a && a < bufBytes && Memory.wfFrom (a + 1) m

/-- The canonical form of a buffer. No entry can equal what an unlisted index reads as, since that has no value. -/
def Memory.wf (m : Memory) : Bool := Memory.wfFrom 0 m

/-- The `n` bytes from index `i` on, or the first index among them that has no value. -/
def Memory.readMany (m : Memory) (i : Nat) : Nat → Except Nat (List Byte)
  | 0 => .ok []
  | n + 1 =>
    match Memory.read m i, Memory.readMany m (i + 1) n with
    | none, _ => .error i
    | some _, .error j => .error j
    | some b, .ok bs => .ok (b :: bs)

/-- The buffer with the listed bytes at index `i` and up. -/
def Memory.writeMany (m : Memory) (i : Nat) : List Byte → Memory
  | [] => m
  | b :: bs => Memory.writeMany (Memory.write m i b) (i + 1) bs

/-- `MemRead(0, n)` of IN_BUF, handed to the rest of the command. Past the buffer there is no byte (20_memory.md R60); a
byte the host never wrote is refused (60_exceptions.md R216, log 7). -/
def State.withInBytes (s : State) (n : Nat) (rest : List Byte → Answer) : Answer :=
  if bufBytes < n then .fault (.noSuchBufferByte bufBytes)
  else match Memory.readMany s.inBuf 0 n with
    | .error i => .refused (.inBufNotWritten i)
    | .ok bs => rest bs

/-- `MemWrite(0, k, v)` of OUT_BUF, then the rest of the command; bytes from k up keep their values (20_memory.md R62). -/
def State.withOutBytes (s : State) (v : List Byte) (rest : State → Answer) : Answer :=
  if bufBytes < v.length then .fault (.noSuchBufferByte bufBytes)
  else rest { s with outBuf := Memory.writeMany s.outBuf 0 v }

/-! ### The receive FIFO (10_state.md R49) -/

/-- The FIFO holds RX_FIFO_DEPTH entries already. -/
def State.rxFull (s : State) : Bool := s.params.rxFifoDepth ≤ s.rxFifo.length

/-- An arrival: the entry joins the FIFO, or is dropped and sets STATUS.RXOVR when it is full (10_state.md R49). -/
def State.pushRx (s : State) (e : RxEntry) : State :=
  if s.rxFull then { s with status.rxOvr := true }
  else { s with rxFifo := s.rxFifo ++ [e] }

/-- `RxFlush()`: the FIFO holds no entry. -/
def State.flushRx (s : State) : State := { s with rxFifo := [] }

/-- The state after `RxPop()`: without the oldest entry (20_memory.md R74). -/
def State.popRx (s : State) : State := { s with rxFifo := s.rxFifo.tail }

/-! ### Completion: the block's only "exception" primitive (00_scope.md R11, 60_exceptions.md R207, R208) -/

/-- `raise Result(code)`: RESULT takes the code, DONE is set, BUSY is cleared. The caller hands over the state with the
command's register writes made, so all of them commit with it (60_exceptions.md R207). -/
def State.raiseResult (s : State) (code : Result) : State :=
  { s with status := { s.status with busy := false, done := true, result := code } }

/-- The host's acknowledgement of a completion: DONE is cleared (60_exceptions.md R208). -/
def State.acknowledge (s : State) : State := { s with status.done := false }

/-- A command that ends with `code` after the writes that made `s`. -/
def complete (code : Result) (s : State) : Answer := .next (s.raiseResult code)

/-! ### Ports -/

/-- The input ports at this edge; idle once the script is exhausted (10_state.md R22, log 2). -/
def State.ports (s : State) : Ports := s.script.headD idlePorts

end Sys2Proof.Machine
end

