-- ==== Sys2Proof/Machine/Operands.lean ====
section
/-! DEFINITION. The operands a command reads, zero-extended (30_encoding.md R95), and the ARG_SAMPLE field. -/

namespace Sys2Proof.Machine

/-- `n = zext(ARG_N[7:0])`. -/
def State.operandN (s : State) : Nat := s.regs.argN.toNat

/-- `b = ARG_BYTE[7:0]`. -/
def State.operandByte (s : State) : Byte := s.regs.argByte

/-- Bits [ADC_WIDTH-1:0] of a word, the bits above them 0 (10_state.md R31). -/
def sampleField (adcWidth : Nat) (v : Reg16) : Reg16 := v &&& BitVec.ofNat 16 (2 ^ adcWidth - 1)

/-- `s = ARG_SAMPLE[ADC_WIDTH-1:0]`. -/
def State.operandSample (s : State) : Reg16 := sampleField s.params.adcWidth s.regs.argSample

/-- BC_DEBOUNCE_LEFT as BTN_SAMPLE's operand: its value at the issue edge (30_encoding.md R95, 43_buttons.md R183;
DEDUCED, log 6). -/
def State.operandDebounce (s : State) : Reg16 := s.engine.debounceAtIssue

/-- STb of BC_STATES (10_state.md R45). -/
def ButtonUnit.state (u : ButtonUnit) : Button → BtnState
  | .b1 => u.st1
  | .b2 => u.st2
  | .b3 => u.st3

/-- STb written, the other two kept. -/
def ButtonUnit.setState (u : ButtonUnit) (b : Button) (st : BtnState) : ButtonUnit :=
  match b with
  | .b1 => { u with st1 := st }
  | .b2 => { u with st2 := st }
  | .b3 => { u with st3 := st }

/-- `BTN_MEAN_b` (10_state.md R43). -/
def HostRegs.mean (r : HostRegs) : Button → Reg16
  | .b1 => r.btnMean1
  | .b2 => r.btnMean2
  | .b3 => r.btnMean3

/-- `BTN_INTERVAL_b` (10_state.md R44). -/
def HostRegs.interval (r : HostRegs) : Button → Reg16
  | .b1 => r.btnInterval1
  | .b2 => r.btnInterval2
  | .b3 => r.btnInterval3

/-- RX_FRAME as the list RX_FRAME[0..4]. -/
def RxFrame.bytes (f : RxFrame) : List Byte := [f.b0, f.b1, f.b2, f.b3]

/-- `RX_FRAME[k] <- d`; there is no byte from 4 up. -/
def RxFrame.set (f : RxFrame) (k : Nat) (d : Byte) : RxFrame :=
  match k with
  | 0 => { f with b0 := d }
  | 1 => { f with b1 := d }
  | 2 => { f with b2 := d }
  | 3 => { f with b3 := d }
  | _ => f

end Sys2Proof.Machine
end

