-- ==== Sys2Proof/Machine/Flags.lean ====
section
/-! DEFINITION. The flags: codes of STATUS fields, the STATUS word, write-one-to-clear, and the interrupt output
(10_state.md R25, R52; 60_exceptions.md R200, R205). -/

namespace Sys2Proof.Machine

/-- The numbers of the result codes (60_exceptions.md R200). -/
def Result.code : Result → BitVec 4
  | .ok => 0
  | .idle => 1
  | .timeout => 2
  | .invalidResponse => 3
  | .invalidCrc => 4
  | .disabled => 5
  | .invalidArg => 6
  | .invalidOp => 7
  | .debounce => 8

/-- The numbers of the polling-engine phases (10_state.md R25). -/
def BpeState.code : BpeState → BitVec 3
  | .idle => 0
  | .tx => 1
  | .waitId => 2
  | .waitData => 3

/-- The numbers of the button states (10_state.md R45). -/
def BtnState.code : BtnState → BitVec 2
  | .idle => 0
  | .pressed => 1
  | .doublePressed => 2
  | .held => 3

/-- The number of a button, 1 to 3 (43_buttons.md R180). -/
def Button.number : Button → BitVec 2
  | .b1 => 1
  | .b2 => 2
  | .b3 => 3

/-- BC_RUN.LAST and `read_button`'s answer: the button's number, 0 for none (10_state.md R46, 43_buttons.md R180). -/
def buttonNumber : Option Button → BitVec 2
  | none => 0
  | some b => b.number

/-- STATUS as the host reads it (10_state.md R25). -/
def State.statusWord (s : State) : Reg16 :=
  BitVec.ofNat 5 s.rxFifo.length ++ s.poll.bpe.code ++ BitVec.ofBool s.status.wrLost ++ BitVec.ofBool s.status.rxOvr
    ++ BitVec.ofBool s.status.done ++ s.status.result.code ++ BitVec.ofBool s.status.busy

/-- A write of `v` to STATUS: a 1 clears DONE (bit 5), RXOVR (bit 6) or WRLOST (bit 7), unless the block sets that bit at
the same edge (10_state.md R25, 90_conflicts.md C12). `doneSet` and `ovrSet` say what the block sets at this edge. -/
def State.writeStatus (s : State) (v : Reg16) (doneSet ovrSet : Bool) : State :=
  { s with
    status :=
      { s.status with
        done := s.status.done && (!v.getLsbD 5 || doneSet)
        rxOvr := s.status.rxOvr && (!v.getLsbD 6 || ovrSet)
        wrLost := s.status.wrLost && !v.getLsbD 7 } }

/-- The interrupt output: `STATUS.DONE and CTRL.IRQ_EN`, a level (60_exceptions.md R205). -/
def State.irq (s : State) : Bool := s.status.done && s.regs.irqEn

end Sys2Proof.Machine
end

