-- ==== Sys2Proof/Machine/Buttons.lean ====
section
/-! DEFINITION. The ButtonClassifier commands (43_buttons.md R180 to R185). -/

namespace Sys2Proof.Machine

/-- The sample lies in the button's window `mean ± interval`, both ends included, the bounds without wrap-around
(43_buttons.md R180). -/
def inWindow (r : HostRegs) (sample : Reg16) (b : Button) : Bool :=
  (r.mean b).toNat - ((r.interval b).toNat : Int) ≤ sample.toNat
    ∧ (sample.toNat : Int) ≤ (r.mean b).toNat + ((r.interval b).toNat : Int)

/-- `read_button(s)`: none from the edge threshold up, else the first button whose window holds the sample
(43_buttons.md R180). -/
def readButton (r : HostRegs) (sample : Reg16) : Option Button :=
  if sample < r.edgeThreshold then [Button.b1, Button.b2, Button.b3].find? (inWindow r sample)
  else none

/-- `next_state(cnt, old, H)` (43_buttons.md R181). -/
def nextBtnState (cnt : Byte) (old : BtnState) (h : Byte) : BtnState :=
  if h < cnt then .held
  else if cnt = 2 then .doublePressed
  else if cnt = 1 ∧ old = .idle then .pressed
  else old

/-- `sat_8(v + 1)` (00_scope.md R10). -/
def satIncr (v : Byte) : Byte := if v = 0xFF then 0xFF else v + 1

/-- A detection of button `b`: the run, the state of `b`, and the debounce window on a state change
(43_buttons.md R182 to R184). -/
def detect (r : HostRegs) (u : ButtonUnit) (b : Button) : ButtonUnit :=
  let cnt := if u.last = some b then satIncr u.count else 1
  let old := u.state b
  let new := nextBtnState cnt old r.heldThreshold
  let v := { u with last := some b, count := cnt }.setState b new
  if new ≠ old then { v with left := r.debounceMs } else v

/-- BTN_SAMPLE (43_buttons.md R182). -/
def execBtnSample (s : State) : Answer :=
  if s.operandDebounce ≠ 0 then complete .debounce { s with resByte := 0 }
  else
    let found := readButton s.regs s.operandSample
    let t := { s with resByte := (buttonNumber found).setWidth 8 }
    match found with
    | none => complete .ok { t with btn := { t.btn with last := none, count := 0 } }
    | some b => complete .ok { t with btn := detect s.regs s.btn b }

/-- BTN_RESET: all three states Idle, the run and the debounce window kept (43_buttons.md R185). -/
def execBtnReset (s : State) : Answer :=
  complete .ok { s with btn := { s.btn with st1 := .idle, st2 := .idle, st3 := .idle } }

end Sys2Proof.Machine
end

