-- ==== Sys2Proof/Machine/Codec.lean ====
section
/-! DEFINITION. 7-bit stuffing, its sizes and the single-byte helpers (40_wirecodec.md R110 to R124, 20_memory.md R63). -/

namespace Sys2Proof.Machine

/-- `encoded_size(n) = ceil(8n/7)` (40_wirecodec.md R110). -/
def encodedSize (n : Nat) : Nat := (8 * n + 6) / 7

/-- `decoded_size(m) = floor(7m/8)` (40_wirecodec.md R111). -/
def decodedSize (m : Nat) : Nat := 7 * m / 8

/-- Bit `k` of the stream that takes `width` bits from each byte, least significant first: width 8 for source bytes,
width 7 for wire bytes (20_memory.md R63). -/
def streamBit (width : Nat) (bytes : List Byte) (k : Nat) : Bool :=
  (bytes.getD (k / width) 0).getLsbD (k % width)

/-- The byte whose bit `t` is `f t`. -/
def byteOfBits (f : Nat → Bool) : Byte :=
  BitVec.ofBool (f 7) ++ BitVec.ofBool (f 6) ++ BitVec.ofBool (f 5) ++ BitVec.ofBool (f 4)
    ++ BitVec.ofBool (f 3) ++ BitVec.ofBool (f 2) ++ BitVec.ofBool (f 1) ++ BitVec.ofBool (f 0)

/-- Wire byte `j` of the stuffing of `src`: seven stream bits, 0 past the end, under the role marker (40_wirecodec.md R112). -/
def stuffByte (role : Bool) (src : List Byte) (j : Nat) : Byte :=
  byteOfBits fun t =>
    if t = 7 then role
    else if 7 * j + t < 8 * src.length then streamBit 8 src (7 * j + t)
    else false

/-- `stuff(r, src)` (40_wirecodec.md R112). -/
def stuff (role : Bool) (src : List Byte) : List Byte :=
  (List.range (encodedSize src.length)).map (stuffByte role src)

/-- Byte `i` of the unstuffing of `w` (40_wirecodec.md R115). -/
def unstuffByte (w : List Byte) (i : Nat) : Byte :=
  byteOfBits fun t => streamBit 7 w (8 * i + t)

/-- `unstuff(w)`: bit 7 of the wire bytes is never read (40_wirecodec.md R115). -/
def unstuff (w : List Byte) : List Byte :=
  (List.range (decodedSize w.length)).map (unstuffByte w)

/-- `encode_slave_byte(b) = b & 0x7F` (40_wirecodec.md R119). -/
def encodeSlaveByte (b : Byte) : Byte := b &&& 0x7F

/-- `encode_master_byte(b) = b | 0x80` (40_wirecodec.md R120). -/
def encodeMasterByte (b : Byte) : Byte := b ||| 0x80

/-- `decode_slave_byte(b) = b & 0x7F` (40_wirecodec.md R121). -/
def decodeSlaveByte (b : Byte) : Byte := b &&& 0x7F

/-- `decode_master_byte(b) = b & 0x7F` (40_wirecodec.md R122). -/
def decodeMasterByte (b : Byte) : Byte := b &&& 0x7F

/-- `is_slave_byte(b)`: 1 when bit 7 is 0 (40_wirecodec.md R123). -/
def isSlaveByteFlag (b : Byte) : Byte := if b.getLsbD 7 then 0 else 1

/-- `is_master_byte(b)`: 1 when bit 7 is 1 (40_wirecodec.md R124). -/
def isMasterByteFlag (b : Byte) : Byte := if b.getLsbD 7 then 1 else 0

end Sys2Proof.Machine
end

