-- ==== Sys2Proof/Machine/Crc.lean ====
section
/-! DEFINITION. CRC-8, polynomial 0x07, initial value 0, no final XOR, most significant bit first (41_framecrc.md R140). -/

namespace Sys2Proof.Machine

/-- One shift of the register (41_framecrc.md R140; the shift direction is the spec's adopted reading, log 15). -/
def crcShift (c : Byte) : Byte := if c.getLsbD 7 then (c <<< 1) ^^^ 0x07 else c <<< 1

/-- One data byte: XOR it in, then eight shifts. -/
def crcByte (c d : Byte) : Byte :=
  crcShift (crcShift (crcShift (crcShift (crcShift (crcShift (crcShift (crcShift (c ^^^ d))))))))

/-- `crc8(data)`; of no bytes it is 0 (41_framecrc.md R140). -/
def crc8 (data : List Byte) : Byte := data.foldl crcByte 0

end Sys2Proof.Machine
end

