-- ==== Sys2Proof/Machine/Payload.lean ====
section
/-! DEFINITION. The payload frame: its fields and how a terminal assembles it (30_encoding.md R90 to R93). -/

namespace Sys2Proof.Machine

/-- `w16 = {payload[1], payload[0]}` (20_memory.md R64, 30_encoding.md R92). -/
def payloadWord (payload : List Byte) : Reg16 := payload.getD 1 0 ++ payload.getD 0 0

/-- `TRIM = w16[9:0]` (30_encoding.md R92). -/
def trimField (w16 : Reg16) : BitVec 10 := w16.extractLsb' 0 10

/-- `BTN = w16[15:10]` (30_encoding.md R92). -/
def btnField (w16 : Reg16) : BitVec 6 := w16.extractLsb' 10 6

/-- The payload's CRC byte, `payload[2]` (30_encoding.md R90). -/
def payloadCrc (payload : List Byte) : Byte := payload.getD 2 0

/-- `crc8(payload[0..2])`, over the two bytes before the CRC (90_conflicts.md C2). -/
def payloadCalc (payload : List Byte) : Byte := crc8 (payload.take 2)

/-- The payload a terminal must send for its trimmer and button states (30_encoding.md R91). -/
def assemblePayload (trim : BitVec 10) (btn : BitVec 6) : List Byte :=
  let w16 : Reg16 := btn ++ trim
  let p0 : Byte := w16.extractLsb' 0 8
  let p1 : Byte := w16.extractLsb' 8 8
  [p0, p1, crc8 [p0, p1]]

/-- The four wire bytes of a terminal's reply after its echo (30_encoding.md R91). -/
def replyFrame (trim : BitVec 10) (btn : BitVec 6) : List Byte := stuff false (assemblePayload trim btn)

end Sys2Proof.Machine
end

