-- ==== Sys2Proof/Machine/WireCodec.lean ====
section
/-! DEFINITION. The WireCodec commands (40_wirecodec.md R110 to R124). -/

namespace Sys2Proof.Machine

/-- A size command: 0 is an invalid argument and leaves RES_N (40_wirecodec.md R110, R111). -/
def sizeCommand (size : Nat → Nat) (s : State) : Answer :=
  if s.operandN = 0 then complete .invalidArg s
  else complete .ok { s with resN := BitVec.ofNat 16 (size s.operandN) }

/-- ENC_SIZE (40_wirecodec.md R110). -/
def execEncSize (s : State) : Answer := sizeCommand encodedSize s

/-- DEC_SIZE (40_wirecodec.md R111). -/
def execDecSize (s : State) : Answer := sizeCommand decodedSize s

/-- `encode(role, src[n])`: the count is checked before IN_BUF is read (40_wirecodec.md R113, R114; 60_exceptions.md R206). -/
def encodeCommand (role : Bool) (s : State) : Answer :=
  let n := s.operandN
  if n = 0 ∨ bufBytes < encodedSize n then complete .invalidArg s
  else s.withInBytes n fun src =>
    s.withOutBytes (stuff role src) fun t =>
      complete .ok { t with resN := BitVec.ofNat 16 (encodedSize n) }

/-- ENCODE.S (40_wirecodec.md R113). -/
def execEncodeS (s : State) : Answer := encodeCommand false s

/-- ENCODE.M (40_wirecodec.md R114). -/
def execEncodeM (s : State) : Answer := encodeCommand true s

/-- `decode(role, src[m])`: the role selects nothing (40_wirecodec.md R116, R117). -/
def decodeCommand (s : State) : Answer :=
  let m := s.operandN
  if bufBytes < m ∨ decodedSize m = 0 then complete .invalidArg s
  else s.withInBytes m fun w =>
    s.withOutBytes (unstuff w) fun t =>
      complete .ok { t with resN := BitVec.ofNat 16 (decodedSize m) }

/-- DECODE.S (40_wirecodec.md R116). -/
def execDecodeS (s : State) : Answer := decodeCommand s

/-- DECODE.M (40_wirecodec.md R117). -/
def execDecodeM (s : State) : Answer := decodeCommand s

/-- A single-byte helper: no failing case (40_wirecodec.md R118). -/
def byteCommand (f : Byte → Byte) (s : State) : Answer :=
  complete .ok { s with resByte := f s.operandByte }

/-- ENCB.S (40_wirecodec.md R119). -/
def execEncbS (s : State) : Answer := byteCommand encodeSlaveByte s

/-- ENCB.M (40_wirecodec.md R120). -/
def execEncbM (s : State) : Answer := byteCommand encodeMasterByte s

/-- DECB.S (40_wirecodec.md R121). -/
def execDecbS (s : State) : Answer := byteCommand decodeSlaveByte s

/-- DECB.M (40_wirecodec.md R122). -/
def execDecbM (s : State) : Answer := byteCommand decodeMasterByte s

/-- ISB.S (40_wirecodec.md R123). -/
def execIsbS (s : State) : Answer := byteCommand isSlaveByteFlag s

/-- ISB.M (40_wirecodec.md R124). -/
def execIsbM (s : State) : Answer := byteCommand isMasterByteFlag s

end Sys2Proof.Machine
end

