-- ==== Sys2Proof/Machine/FrameCRC.lean ====
section
/-! DEFINITION. The FrameCRC command (41_framecrc.md R141). -/

namespace Sys2Proof.Machine

/-- CRC8: 0 bytes are defined, more than BUF_BYTES are an invalid argument (41_framecrc.md R141). -/
def execCrc8 (s : State) : Answer :=
  let n := s.operandN
  if bufBytes < n then complete .invalidArg s
  else s.withInBytes n fun data => complete .ok { s with resByte := crc8 data }

end Sys2Proof.Machine
end

