-- ==== Sys2Proof/Machine/Invalid.lean ====
section
/-! DEFINITION. The command run for an illegal opcode (60_exceptions.md R201). -/

namespace Sys2Proof.Machine

/-- INVALID: only STATUS changes, whatever the opcode was (60_exceptions.md R201). -/
def execInvalid (_op : Byte) (s : State) : Answer := complete .invalidOp s

end Sys2Proof.Machine
end

