-- ==== Sys2Proof/Syntax.lean ====
section
/-! DEFINITION. The instructions: one constructor per row of spec/opcode_table.json (30_encoding.md R80 to R89). -/

namespace Sys2Proof

/-- The 17 commands, the default row INVALID and the three wire bytes. No command carries an operand
(30_encoding.md R95). -/
inductive Instr where
  /-- ENC_SIZE (40_wirecodec.md R110). -/
  | encSize
  /-- DEC_SIZE (R111). -/
  | decSize
  /-- ENCODE.S (R113). -/
  | encodeS
  /-- ENCODE.M (R114). -/
  | encodeM
  /-- DECODE.S (R116). -/
  | decodeS
  /-- DECODE.M (R117). -/
  | decodeM
  /-- ENCB.S (R119). -/
  | encbS
  /-- ENCB.M (R120). -/
  | encbM
  /-- DECB.S (R121). -/
  | decbS
  /-- DECB.M (R122). -/
  | decbM
  /-- ISB.S (R123). -/
  | isbS
  /-- ISB.M (R124). -/
  | isbM
  /-- CRC8 (41_framecrc.md R141). -/
  | crc8
  /-- POLL_STEP (42_polling.md R152). -/
  | pollStep
  /-- RX_FLUSH (R160). -/
  | rxFlush
  /-- BTN_SAMPLE (43_buttons.md R182). -/
  | btnSample
  /-- BTN_RESET (R185). -/
  | btnReset
  /-- INVALID, with the opcode that no other row matches (60_exceptions.md R201). -/
  | invalid (op : Byte)
  /-- WIRE.POLL, the master's poll byte (30_encoding.md R85). -/
  | wirePoll (id : BitVec 7)
  /-- WIRE.ECHO, a terminal's ID echo (R86). -/
  | wireEcho (id : BitVec 7)
  /-- WIRE.DATA, a stuffed payload byte (R87). -/
  | wireData (d : BitVec 7)
  deriving DecidableEq, Repr

end Sys2Proof
end

