-- ==== Sys2Proof/WellFormed.lean ====
section
/-! DEFINITION. Which terms of `Instr` stand for an encoding: every one but an `invalid` that carries a legal opcode
(30_encoding.md R83). -/

namespace Sys2Proof

/-- The illegal opcodes, as the ranges of 30_encoding.md R83 list them. -/
def illegalOpcode (op : Byte) : Bool :=
  let n := op.toNat
  n ≤ 0x0F || (0x1C ≤ n && n ≤ 0x1F) || (0x21 ≤ n && n ≤ 0x2F) || (0x32 ≤ n && n ≤ 0x3F) || 0x42 ≤ n

/-- The one check on an instruction: INVALID stands only for an illegal opcode. -/
def Instr.wellFormed : Instr → Bool
  | .invalid op => illegalOpcode op
  | .encSize | .decSize | .encodeS | .encodeM | .decodeS | .decodeM | .encbS | .encbM | .decbS | .decbM
  | .isbS | .isbM | .crc8 | .pollStep | .rxFlush | .btnSample | .btnReset => true
  | .wirePoll _ | .wireEcho _ | .wireData _ => true

end Sys2Proof
end

