-- ==== Sys2Proof/Decode.lean ====
section
/-! DEFINITION. Decoding of CMD words and wire bytes, total on every bit pattern (30_encoding.md R83, R88, R97), and the
encoder written from the same tables. -/

namespace Sys2Proof

/-- The opcode map of 30_encoding.md R82. -/
def opcodeTable : List (Byte × Instr) :=
  [(0x10, .encSize), (0x11, .decSize), (0x12, .encodeS), (0x13, .encodeM), (0x14, .decodeS), (0x15, .decodeM),
   (0x16, .encbS), (0x17, .encbM), (0x18, .decbS), (0x19, .decbM), (0x1A, .isbS), (0x1B, .isbM),
   (0x20, .crc8), (0x30, .pollStep), (0x31, .rxFlush), (0x40, .btnSample), (0x41, .btnReset)]

/-- An opcode outside the map is INVALID (30_encoding.md R83, R97). -/
def decodeOpcode (op : Byte) : Instr :=
  (opcodeTable.lookup op).getD (.invalid op)

/-- A CMD word: only bits [7:0] select the command (30_encoding.md R81, R97). -/
def decodeCmd (w : Reg16) : Instr :=
  decodeOpcode (w.extractLsb' 0 8)

/-- What a byte of a terminal's reply is expected to be. The two patterns are one; the phase of the exchange tells them
apart (30_encoding.md R88, R89). -/
inductive ReplyPhase where
  | echo
  | data
  deriving DecidableEq, Repr

/-- The role marker of a wire byte: bit 7, true for a master byte (30_encoding.md R88). -/
def isMasterByte (b : Byte) : Bool := b.getLsbD 7

/-- Bits [6:0] of a wire byte. -/
def wireField (b : Byte) : BitVec 7 := b.extractLsb' 0 7

/-- A wire byte from its marker and its seven bits (30_encoding.md R85 to R87). -/
def wireByte (master : Bool) (v : BitVec 7) : Byte := BitVec.ofBool master ++ v

/-- Classification of a byte on the line: bit 7 first, then the phase (30_encoding.md R85 to R89). -/
def decodeWire (ph : ReplyPhase) (b : Byte) : Instr :=
  if isMasterByte b then .wirePoll (wireField b)
  else match ph with
    | .echo => .wireEcho (wireField b)
    | .data => .wireData (wireField b)

/-- Where an encoding stands: a word written to CMD, or a byte on the line (30_encoding.md R80). -/
inductive Encoded where
  | cmd (w : Reg16)
  | line (b : Byte)
  deriving DecidableEq, Repr

/-- Decoding of either form; `ph` matters for a slave byte on the line only. -/
def decode (ph : ReplyPhase) : Encoded → Instr
  | .cmd w => decodeCmd w
  | .line b => decodeWire ph b

/-- Why a bit string is no instruction of the block. -/
inductive DecodeError where
  /-- Neither a CMD word nor a wire byte is this many bits wide (30_encoding.md R80). -/
  | noFormatOfWidth (nbits : Nat)
  deriving DecidableEq, Repr

/-- Decoding by width: 16 bits are a CMD word, 8 bits a wire byte. A slave byte standing alone is read as the first byte
of a reply, WIRE.ECHO (DESIGN CHOICE, log 11: WIRE.DATA has the same pattern, R88). -/
def decodeBits (nbits w : Nat) : Except DecodeError Instr :=
  match nbits with
  | 16 => .ok (decode .echo (.cmd (BitVec.ofNat 16 w)))
  | 8 => .ok (decode .echo (.line (BitVec.ofNat 8 w)))
  | n => .error (.noFormatOfWidth n)

/-- The instruction the decoder reads from a table row's word. -/
def decodeTableWord (nbits w : Nat) : Option Instr :=
  match decodeBits nbits w with
  | .ok i => some i
  | .error _ => none

/-- The CMD word of an opcode, its ignored bits [15:8] zero (30_encoding.md R81). -/
def cmdWord (op : Byte) : Encoded := .cmd (op.setWidth 16)

/-- The encoding of an instruction (30_encoding.md R82, R85 to R87). -/
def encode : Instr → Encoded
  | .encSize => cmdWord 0x10
  | .decSize => cmdWord 0x11
  | .encodeS => cmdWord 0x12
  | .encodeM => cmdWord 0x13
  | .decodeS => cmdWord 0x14
  | .decodeM => cmdWord 0x15
  | .encbS => cmdWord 0x16
  | .encbM => cmdWord 0x17
  | .decbS => cmdWord 0x18
  | .decbM => cmdWord 0x19
  | .isbS => cmdWord 0x1A
  | .isbM => cmdWord 0x1B
  | .crc8 => cmdWord 0x20
  | .pollStep => cmdWord 0x30
  | .rxFlush => cmdWord 0x31
  | .btnSample => cmdWord 0x40
  | .btnReset => cmdWord 0x41
  | .invalid op => cmdWord op
  | .wirePoll id => .line (wireByte true id)
  | .wireEcho id => .line (wireByte false id)
  | .wireData d => .line (wireByte false d)

/-- The phase in which an instruction's encoding reads back as itself: the data phase for WIRE.DATA, and the echo phase
(or any) for the others. -/
def phaseOf : Instr → ReplyPhase
  | .wireData _ => .data
  | .encSize | .decSize | .encodeS | .encodeM | .decodeS | .decodeM | .encbS | .encbM | .decbS | .decbM
  | .isbS | .isbM | .crc8 | .pollStep | .rxFlush | .btnSample | .btnReset | .invalid _
  | .wirePoll _ | .wireEcho _ => .echo

end Sys2Proof
end

