-- ==== Sys2Proof/Machine/Polling.lean ====
section
/-! DEFINITION. The BusPollingEngine: one clock edge of POLL_STEP in each phase, and RX_FLUSH (42_polling.md R150 to R162). -/

namespace Sys2Proof.Machine

/-- The outcomes after which the FIFO is flushed (42_polling.md R161). -/
def Result.flushes : Result → Bool
  | .timeout | .invalidResponse | .invalidCrc => true
  | .ok | .idle | .disabled | .invalidArg | .invalidOp | .debounce => false

/-- The outcomes after which POLL_CRC holds the two CRCs (42_polling.md R162). -/
def Result.decoded : Result → Bool
  | .ok | .invalidCrc => true
  | .timeout | .invalidResponse | .idle | .disabled | .invalidArg | .invalidOp | .debounce => false

/-- `finish(code)` of 42_polling.md R152, R161, R162: the result registers, the automatic flush and the completion, at one
edge. `payload` is the decoded payload where there is one. -/
def finishCall (code : Result) (payload : List Byte) (s : State) : Answer :=
  let w16 := payloadWord payload
  let t := { s with
    poll :=
      { s.poll with
        bpe := .idle
        nextId := s.poll.callId
        dev := s.poll.callId
        trim := if code = .ok then trimField w16 else 0
        btn := if code = .ok then btnField w16 else 0
        crcRx := if code.decoded then payloadCrc payload else 0
        crcCalc := if code.decoded then payloadCalc payload else 0 } }
  complete code (if code.flushes then t.flushRx else t)

/-- Step 1: `(POLL_NEXT_ID + 1) mod TERMINAL_COUNT` (42_polling.md R153). -/
def nextPollId (next count : BitVec 7) : BitVec 7 := BitVec.ofNat 7 ((next.toNat + 1) % count.toNat)

/-- The first edge of a call: DISABLED with no terminal (42_polling.md R151), else the id is computed and the poll byte is
offered from the next state on (R153, R154). -/
def startCall (s : State) : Answer :=
  if s.regs.terminalCount = 0 then complete .disabled s
  else .next { s with
    poll := { s.poll with
      bpe := .tx, callId := nextPollId s.poll.nextId s.regs.terminalCount, txTaken := false } }

/-- One edge of the transmit phase: first the transmitter takes the byte (`tx_ready`), then `tx_done` opens the ID window.
There is no timeout (42_polling.md R154, 70_reset_and_hazards.md R246). -/
def transmitEdge (s : State) : Answer :=
  if s.poll.txTaken then
    if s.ports.txDone then
      .next { s with poll := { s.poll with bpe := .waitId, winLeft := s.regs.pollTimeoutMs } }
    else .next s
  else if s.ports.txReady then .next { s with poll.txTaken := true }
  else .next s

/-- The poll byte of a call, `encode_master_byte(id)` (30_encoding.md R85, 42_polling.md R154). -/
def pollByte (id : BitVec 7) : Byte := encodeMasterByte (id.setWidth 8)

/-- `tx_valid` with `tx_data`: the byte offered to the transmitter, none while `tx_valid` is 0 (10_state.md R22,
42_polling.md R154; log 12). -/
def State.txOffer (s : State) : Option Byte :=
  if s.poll.bpe = .tx ∧ s.poll.txTaken = false then some (pollByte s.poll.callId) else none

/-- The echo candidate `b`, already out of the FIFO: accepted only with no error, the slave marker and the polled id
(42_polling.md R155); then the data window opens (R156). -/
def takeEcho (b : Byte) (err : Bool) (s : State) : Answer :=
  if err ∨ b.getLsbD 7 ∨ decodeSlaveByte b ≠ s.poll.callId.setWidth 8 then finishCall .invalidResponse [] s
  else .next { s with
    poll := { s.poll with bpe := .waitData, winLeft := s.regs.connTimeoutMs, dataCnt := 0 } }

/-- The end of the data phase: marker check if CTRL.CHK_MARK, then the CRC (42_polling.md R157, R158). -/
def checkReply (s : State) : Answer :=
  let w := s.poll.frame.bytes
  let payload := unstuff w
  if s.regs.chkMark ∧ w.any (·.getLsbD 7) then finishCall .invalidResponse [] s
  else if payloadCalc payload ≠ payloadCrc payload then finishCall .invalidCrc payload s
  else finishCall .ok payload s

/-- A payload byte `d`, already out of the FIFO: an error ends the call, the fourth byte ends the phase at this edge
(42_polling.md R156). -/
def takeData (d : Byte) (err : Bool) (s : State) : Answer :=
  if err then finishCall .invalidResponse [] s
  else
    let k := s.poll.dataCnt.toNat
    let t := { s with poll := { s.poll with frame := s.poll.frame.set k d, dataCnt := s.poll.dataCnt + 1 } }
    if k + 1 < replyBytes then .next t else checkReply t

/-- A receive phase with no byte waiting: the window's expiry ends the call, otherwise the engine holds
(42_polling.md R159). -/
def windowEdge (expired : Result) (s : State) : Answer :=
  if s.poll.winLeft = 0 then finishCall expired [] s else .next s

/-- POLL_STEP: one clock edge of the call, by phase (42_polling.md R152). -/
def execPollStep (s : State) : Answer :=
  match s.poll.bpe, s.rxFifo with
  | .idle, _ => startCall s
  | .tx, _ => transmitEdge s
  | .waitId, [] => windowEdge .idle s
  | .waitId, e :: _ => takeEcho e.data e.err s.popRx
  | .waitData, [] => windowEdge .timeout s
  | .waitData, e :: _ => takeData e.data e.err s.popRx

/-- RX_FLUSH: the FIFO is emptied; RXOVR stays (42_polling.md R160). -/
def execRxFlush (s : State) : Answer := complete .ok s.flushRx

end Sys2Proof.Machine
end

