-- ==== Sys2Proof/Machine/WireBytes.lean ====
section
/-! DEFINITION. What the engine does at an edge with a wire byte it works on: the poll byte it sends, or the error-free byte
it takes from the FIFO (30_encoding.md R85 to R89; log 11). -/

namespace Sys2Proof.Machine

/-- The engine takes the error-free byte `b`, the FIFO's oldest: as the echo candidate in WAIT_ID and as a payload byte in
WAIT_DATA, whatever its marker. In the other phases no byte is taken and it waits in the FIFO (30_encoding.md R88, R89;
42_polling.md R155, R156, R165). -/
def takeByte (b : Byte) (s : State) : Answer :=
  match s.poll.bpe with
  | .idle => .next s
  | .tx => .next s
  | .waitId => takeEcho b false s.popRx
  | .waitData => takeData b false s.popRx

/-- WIRE.POLL: in TX, the byte being sent, with its id the id of the call; received, a byte with the master marker
(30_encoding.md R85, 42_polling.md R154, R155). -/
def execWirePoll (id : BitVec 7) (s : State) : Answer :=
  match s.poll.bpe with
  | .tx => transmitEdge { s with poll.callId := id }
  | .idle => takeByte (wireByte true id) s
  | .waitId => takeByte (wireByte true id) s
  | .waitData => takeByte (wireByte true id) s

/-- WIRE.ECHO: the ID echo of a terminal (30_encoding.md R86, 42_polling.md R155). -/
def execWireEcho (id : BitVec 7) (s : State) : Answer := takeByte (wireByte false id) s

/-- WIRE.DATA: a stuffed payload byte (30_encoding.md R87, 42_polling.md R156). -/
def execWireData (d : BitVec 7) (s : State) : Answer := takeByte (wireByte false d) s

end Sys2Proof.Machine
end

