-- ==== Sys2Proof/Machine/Dispatch.lean ====
section
/-! DEFINITION. The meaning of each instruction, one arm per constructor. -/

namespace Sys2Proof.Machine

/-- What the command engine does at one clock edge with the instruction it works on. -/
def exec (i : Instr) (s : State) : Host.Outcome State Fault Refusal :=
  match i with
  | .encSize => Sys2Proof.Machine.execEncSize s
  | .decSize => Sys2Proof.Machine.execDecSize s
  | .encodeS => Sys2Proof.Machine.execEncodeS s
  | .encodeM => Sys2Proof.Machine.execEncodeM s
  | .decodeS => Sys2Proof.Machine.execDecodeS s
  | .decodeM => Sys2Proof.Machine.execDecodeM s
  | .encbS => Sys2Proof.Machine.execEncbS s
  | .encbM => Sys2Proof.Machine.execEncbM s
  | .decbS => Sys2Proof.Machine.execDecbS s
  | .decbM => Sys2Proof.Machine.execDecbM s
  | .isbS => Sys2Proof.Machine.execIsbS s
  | .isbM => Sys2Proof.Machine.execIsbM s
  | .crc8 => Sys2Proof.Machine.execCrc8 s
  | .pollStep => Sys2Proof.Machine.execPollStep s
  | .rxFlush => Sys2Proof.Machine.execRxFlush s
  | .btnSample => Sys2Proof.Machine.execBtnSample s
  | .btnReset => Sys2Proof.Machine.execBtnReset s
  | .invalid op => Sys2Proof.Machine.execInvalid op s
  | .wirePoll id => Sys2Proof.Machine.execWirePoll id s
  | .wireEcho id => Sys2Proof.Machine.execWireEcho id s
  | .wireData d => Sys2Proof.Machine.execWireData d s

end Sys2Proof.Machine
end

