-- ==== Sys2Proof/Machine/HostPort.lean ====
section
/-! DEFINITION. The host's register interface: the register map, reads, writes and the issue of a command
(10_state.md R23 to R47, 20_memory.md R61, R62, 30_encoding.md R84). -/

namespace Sys2Proof.Machine

/-- The registers of 30_encoding.md R84. -/
inductive RegName where
  | cmd
  | status
  | ctrl
  | argN
  | resN
  | argByte
  | resByte
  | argSample
  | terminalCount
  | pollTimeoutMs
  | connTimeoutMs
  | pollNextId
  | pollDev
  | pollTrim
  | pollBtn
  | pollCrc
  | debounceMs
  | heldThreshold
  | edgeThreshold
  | btnMean (b : Button)
  | btnInterval (b : Button)
  | bcStates
  | bcRun
  | bcDebounceLeft
  | inBuf (i : Nat)
  | outBuf (i : Nat)
  | reserved
  deriving DecidableEq, Repr

/-- The registers at addresses 0x00 to 0x1B, in order (30_encoding.md R84). -/
def lowRegisters : List RegName :=
  [.cmd, .status, .ctrl, .argN, .resN, .argByte, .resByte, .argSample, .terminalCount, .pollTimeoutMs, .connTimeoutMs,
   .pollNextId, .pollDev, .pollTrim, .pollBtn, .pollCrc, .debounceMs, .heldThreshold, .edgeThreshold,
   .btnMean .b1, .btnMean .b2, .btnMean .b3, .btnInterval .b1, .btnInterval .b2, .btnInterval .b3,
   .bcStates, .bcRun, .bcDebounceLeft]

/-- The register at an address: the map of 30_encoding.md R84, IN_BUF at 0x20, OUT_BUF at 0x40, the rest reserved. -/
def regAt (a : BitVec 7) : RegName :=
  let n := a.toNat
  if 0x20 ≤ n ∧ n < 0x40 then .inBuf (n - 0x20)
  else if 0x40 ≤ n ∧ n < 0x60 then .outBuf (n - 0x40)
  else lowRegisters.getD n .reserved

/-- BC_STATES[5:0], the 6-bit `button_states` field (10_state.md R45, 30_encoding.md R93). -/
def ButtonUnit.statesField (u : ButtonUnit) : BitVec 6 := u.st3.code ++ u.st2.code ++ u.st1.code

/-- BC_RUN (10_state.md R46). -/
def ButtonUnit.runWord (u : ButtonUnit) : Reg16 := u.count ++ (0 : BitVec 6) ++ buttonNumber u.last

/-- A buffer byte as the host reads it: the byte last written, or an unspecified one, the same at every read until the next
reset (20_memory.md R61, R62, 93_implementation_defined.md; free value, log 8). -/
def State.hostByte (s : State) (m : Memory) (base i : Nat) : Byte :=
  (Memory.read m i).getD (Config.unwrittenByte s.resets (base + i))

/-- The value of a register: every field at its place, 0 in every reserved bit (10_state.md R23 to R47). -/
def State.readReg (s : State) : RegName → Reg16
  | .cmd => 0
  | .status => s.statusWord
  | .ctrl => (0 : BitVec 14) ++ BitVec.ofBool s.regs.chkMark ++ BitVec.ofBool s.regs.irqEn
  | .argN => s.regs.argN.setWidth 16
  | .resN => s.resN
  | .argByte => s.regs.argByte.setWidth 16
  | .resByte => s.resByte.setWidth 16
  | .argSample => s.operandSample
  | .terminalCount => s.regs.terminalCount.setWidth 16
  | .pollTimeoutMs => s.regs.pollTimeoutMs
  | .connTimeoutMs => s.regs.connTimeoutMs
  | .pollNextId => s.poll.nextId.setWidth 16
  | .pollDev => s.poll.dev.setWidth 16
  | .pollTrim => s.poll.trim.setWidth 16
  | .pollBtn => s.poll.btn.setWidth 16
  | .pollCrc => s.poll.crcCalc ++ s.poll.crcRx
  | .debounceMs => s.regs.debounceMs
  | .heldThreshold => s.regs.heldThreshold.setWidth 16
  | .edgeThreshold => s.regs.edgeThreshold
  | .btnMean b => s.regs.mean b
  | .btnInterval b => s.regs.interval b
  | .bcStates => s.btn.statesField.setWidth 16
  | .bcRun => s.btn.runWord
  | .bcDebounceLeft => s.btn.left
  | .inBuf i => (s.hostByte s.inBuf 0x20 i).setWidth 16
  | .outBuf i => (s.hostByte s.outBuf 0x40 i).setWidth 16
  | .reserved => 0

/-- `reg_rdata`: the register at `reg_addr` in this state; no read changes the state (10_state.md R22, 20_memory.md R68). -/
def State.regRdata (s : State) : Reg16 := s.readReg (regAt s.ports.regAddr)

/-- How many edges the next command takes: any number in 1..LAT_MAX (70_reset_and_hazards.md R242; free value, log 4). For
POLL_STEP it is the edge at which its first phase begins (log 5). -/
def State.commandLatency (s : State) : Nat :=
  if s.params.latMax ≤ 1 then 1 else 1 + Config.latencyChoice s.issued % s.params.latMax

/-- The opcode of POLL_STEP (30_encoding.md R82). -/
def pollStepOpcode : Byte := 0x30

/-- The engine takes the command word `w` with the latency `lat`: BUSY set, DONE cleared, the opcode held, and
BC_DEBOUNCE_LEFT read (10_state.md R24, R25, R51, 30_encoding.md R95; log 6). -/
def State.beginCommand (s : State) (w : Reg16) (lat : Nat) : State :=
  { s with
    status := { s.status with busy := true, done := false }
    engine := { opcode := w.extractLsb' 0 8, latLeft := lat, debounceAtIssue := s.btn.left } }

/-- A CMD write the block accepts (10_state.md R24). -/
def State.issue (s : State) (w : Reg16) : State :=
  { s.beginCommand w s.commandLatency with issued := s.issued + 1 }

/-- `BTN_MEAN_b <- v`. -/
def HostRegs.setMean (r : HostRegs) (b : Button) (v : Reg16) : HostRegs :=
  match b with
  | .b1 => { r with btnMean1 := v }
  | .b2 => { r with btnMean2 := v }
  | .b3 => { r with btnMean3 := v }

/-- `BTN_INTERVAL_b <- v`. -/
def HostRegs.setInterval (r : HostRegs) (b : Button) (v : Reg16) : HostRegs :=
  match b with
  | .b1 => { r with btnInterval1 := v }
  | .b2 => { r with btnInterval2 := v }
  | .b3 => { r with btnInterval3 := v }

/-- A write the block accepts, to a register other than STATUS: each writable field takes its bits, read-only registers and
reserved addresses ignore it (10_state.md R23 to R47, 20_memory.md R61, R62). -/
def State.writeReg (s : State) (r : RegName) (v : Reg16) : State :=
  match r with
  | .cmd => s.issue v
  | .status => s
  | .ctrl => { s with regs := { s.regs with irqEn := v.getLsbD 0, chkMark := v.getLsbD 1 } }
  | .argN => { s with regs.argN := v.setWidth 8 }
  | .resN => s
  | .argByte => { s with regs.argByte := v.setWidth 8 }
  | .resByte => s
  | .argSample => { s with regs.argSample := sampleField s.params.adcWidth v }
  | .terminalCount => { s with regs.terminalCount := v.setWidth 7 }
  | .pollTimeoutMs => { s with regs.pollTimeoutMs := v }
  | .connTimeoutMs => { s with regs.connTimeoutMs := v }
  | .pollNextId => s
  | .pollDev => s
  | .pollTrim => s
  | .pollBtn => s
  | .pollCrc => s
  | .debounceMs => { s with regs.debounceMs := v }
  | .heldThreshold => { s with regs.heldThreshold := v.setWidth 8 }
  | .edgeThreshold => { s with regs.edgeThreshold := v }
  | .btnMean b => { s with regs := s.regs.setMean b v }
  | .btnInterval b => { s with regs := s.regs.setInterval b v }
  | .bcStates => s
  | .bcRun => s
  | .bcDebounceLeft => s
  | .inBuf i => { s with inBuf := Memory.write s.inBuf i (v.setWidth 8) }
  | .outBuf _ => s
  | .reserved => s

/-- The host access of an edge. A STATUS write is always performed; any other write is ignored and sets WRLOST where BUSY
was 1 before the edge (10_state.md R23, 20_memory.md R71, 60_exceptions.md R206). A read changes nothing. -/
def State.hostAccess (s : State) (p : Ports) (wasBusy doneSet ovrSet : Bool) : State :=
  if p.regWe then
    if regAt p.regAddr = .status then s.writeStatus p.regWdata doneSet ovrSet
    else if wasBusy then { s with status.wrLost := true }
    else s.writeReg (regAt p.regAddr) p.regWdata
  else s

end Sys2Proof.Machine
end

