-- ==== Sys2Proof/Machine/Edge.lean ====
section
/-! DEFINITION. One rising edge of `clk`: reset, or arrival, Tick, command step and host access in this order
(20_memory.md R71), and what the command engine fetches. -/

namespace Sys2Proof.Machine

/-- Step 1 of an edge: the byte presented on the receive port (10_state.md R49). -/
def State.arrive (s : State) (p : Ports) : State :=
  if p.rxValid then s.pushRx { data := p.rxData, err := p.rxErr } else s

/-- A down-counter at a Tick: it stops at 0 (60_exceptions.md R211). -/
def countDown (v : Reg16) : Reg16 := if v = 0 then 0 else v - 1

/-- Step 2 of an edge: a Tick decrements WIN_LEFT and BC_DEBOUNCE_LEFT (60_exceptions.md R211; WIN_LEFT outside a window:
log 10). -/
def State.tick (s : State) (p : Ports) : State :=
  if p.tickMs then
    { s with poll.winLeft := countDown s.poll.winLeft, btn.left := countDown s.btn.left }
  else s

/-- The instruction the engine works on at this edge: the wire byte on hand in the polling phases (the poll byte in TX, the
oldest error-free FIFO entry in WAIT_ID and WAIT_DATA), else the command whose opcode it holds
(10_state.md R51, 30_encoding.md R88, R89, R97; log 11, log 14). -/
def State.fetch (s : State) : Instr :=
  match s.poll.bpe, s.rxFifo with
  | .idle, _ => decodeOpcode s.engine.opcode
  | .tx, _ => decodeWire .echo (pollByte s.poll.callId)
  | .waitId, [] => decodeOpcode s.engine.opcode
  | .waitId, e :: _ => if e.err then decodeOpcode s.engine.opcode else decodeWire .echo e.data
  | .waitData, [] => decodeOpcode s.engine.opcode
  | .waitData, e :: _ => if e.err then decodeOpcode s.engine.opcode else decodeWire .data e.data

/-- Step 3 of an edge: nothing while the engine is idle, one edge of latency while the command has some left, else the
instruction it works on (70_reset_and_hazards.md R242). -/
def State.engineStep (s : State) : Answer :=
  if s.status.busy = false then .next s
  else if 1 < s.engine.latLeft then .next { s with engine.latLeft := s.engine.latLeft - 1 }
  else exec s.fetch s

/-- An edge with `rst` = 1: every field takes its reset value and nothing else happens. The buffers' unspecified contents are
fresh after it; the inputs still to come stay (70_reset_and_hazards.md R230; log 8). -/
def State.resetEdge (s : State) : State :=
  { State.resetWith s.params with script := s.script.tail, resets := s.resets + 1, issued := s.issued }

/-- The state the command engine meets at this edge: after the arrival and the Tick. -/
def State.beforeEngine (s : State) : State := (s.arrive s.ports).tick s.ports

/-- The arrival of this edge finds the FIFO full, so the block sets RXOVR at it (10_state.md R49). -/
def State.ovrSetNow (s : State) : Bool := s.ports.rxValid && s.rxFull

/-- The end of an edge, from the state `t` the engine left: the host access, then the next edge's inputs. The engine completed
a command at this edge if BUSY fell. -/
def State.finishEdge (s t : State) : State :=
  let u := t.hostAccess s.ports s.status.busy (s.status.busy && !t.status.busy) s.ovrSetNow
  { u with script := s.script.tail }

/-- One edge without reset (20_memory.md R71). -/
def State.runEdge (s : State) : Answer :=
  match s.beforeEngine.engineStep with
  | .next t => .next (s.finishEdge t)
  | .fault f => .fault f
  | .refused r => .refused r

/-- One rising edge of `clk`. -/
def State.clockEdge (s : State) : Answer :=
  if legalParams s.params = false then .refused .illegalParameters
  else if s.ports.rst then .next s.resetEdge
  else s.runEdge

/-- The engine about to run the CMD word `w` at the next edge, at which the environment does nothing (log 3). -/
def State.placeCommand (s : State) (w : Reg16) : State :=
  let t := s.beginCommand w 1
  { t with poll.bpe := .idle, script := idlePorts :: s.script }

/-- A call in progress whose engine works on the byte `b` at the next edge, at which the environment does nothing: in TX
for a master byte, in WAIT_ID with `b` the oldest FIFO entry for a slave byte (log 3). -/
def State.placeWireByte (s : State) (b : Byte) : State :=
  let t := s.placeCommand (pollStepOpcode.setWidth 16)
  if isMasterByte b then { t with poll := { t.poll with bpe := .tx, callId := wireField b, txTaken := false } }
  else { t with poll.bpe := .waitId, rxFifo := { data := b, err := false } :: s.rxFifo.tail }

/-- A table row's word where the engine takes its next instruction from, by the row's width (30_encoding.md R80). -/
def State.placeWord (s : State) (nbits w : Nat) : State :=
  match nbits with
  | 16 => s.placeCommand (BitVec.ofNat 16 w)
  | 8 => s.placeWireByte (BitVec.ofNat 8 w)
  | _ => s

end Sys2Proof.Machine
end

