-- ==== Sys2Proof/Machine/Step.lean ====
section
/-! DEFINITION. The step of the machine, one rising edge of `clk`, and the placing of an instruction for it. -/

namespace Sys2Proof.Machine

/-- One step: one clock edge with the inputs at the head of the script (20_memory.md R71). -/
def step (s : State) : Host.Outcome State Fault Refusal := s.clockEdge

/-- The state whose next step runs the instruction with bits `w`: the engine holds the command, or the polling engine has the
wire byte on hand, and the environment does nothing at that edge (log 3). -/
def State.withFetchWord (s : State) (nbits w : Nat) : State := s.placeWord nbits w

end Sys2Proof.Machine
end

