-- ==== Sys2Proof/Safety.lean ====
section
/-! DEFINITION. What a sound state of the block is, and what a safe answer is: the terms the claims use. -/

namespace Sys2Proof.Machine

/-- What the spec's rules, and where a field's comment says so the model's choices, keep true of every state from reset on.
Other states are no states of the block. -/
structure Inv (s : State) : Prop where
  /-- The parameters are in range (00_scope.md R8). -/
  paramsLegal : legalParams s.params = true
  /-- IN_BUF is in canonical form, within its 32 bytes (20_memory.md R60). -/
  inBufWf : Memory.wf s.inBuf = true
  /-- OUT_BUF is in canonical form, within its 32 bytes (20_memory.md R60). -/
  outBufWf : Memory.wf s.outBuf = true
  /-- The FIFO holds at most RX_FIFO_DEPTH entries (10_state.md R49). -/
  fifoFits : s.rxFifo.length ≤ s.params.rxFifoDepth
  /-- BUSY and DONE are never both 1 (10_state.md R24, R25). -/
  busyNotDone : s.status.busy = true → s.status.done = false
  /-- Outside the phase IDLE a POLL_STEP is running (20_memory.md R73). -/
  phaseOfPoll : s.poll.bpe ≠ .idle → s.status.busy = true ∧ s.engine.opcode = pollStepOpcode
  /-- The polled id is below TERMINAL_COUNT (42_polling.md R155). -/
  callIdBelowCount : s.poll.bpe ≠ .idle → s.poll.callId.toNat < s.regs.terminalCount.toNat
  /-- DATA_CNT is 0..4 (10_state.md R50). -/
  dataCntLe : s.poll.dataCnt.toNat ≤ replyBytes
  /-- While payload bytes are awaited, fewer than 4 have been taken (42_polling.md R156). -/
  dataCntLt : s.poll.bpe = .waitData → s.poll.dataCnt.toNat < replyBytes
  /-- ARG_SAMPLE holds no bit from ADC_WIDTH up (10_state.md R31). -/
  sampleFits : s.regs.argSample.toNat < 2 ^ s.params.adcWidth
  /-- A command has at most LAT_MAX edges left (70_reset_and_hazards.md R242, log 4; for POLL_STEP, which R242 exempts, the
  model's choice, log 5). -/
  latencyLe : s.engine.latLeft ≤ s.params.latMax
  /-- There is a run exactly when its count is not 0 (43_buttons.md R184). -/
  runCount : s.btn.last = none ↔ s.btn.count = 0
  /-- While a command runs, no debounce window opens after its issue edge, at which the model reads BC_DEBOUNCE_LEFT
  (43_buttons.md R183; log 6). -/
  debounceLatched : s.status.busy = true → s.btn.left.toNat ≤ s.engine.debounceAtIssue.toNat

/-- The answer is no fault (60_exceptions.md R216). -/
def Answer.noFault (a : Answer) : Prop := ∀ f, a ≠ .fault f

/-- IN_BUF[0..n] has been written by the host since reset: what a command must find before it reads it
(20_memory.md R61). -/
def State.inBufWritten (s : State) (n : Nat) : Prop := ∀ i, i < n → Memory.read s.inBuf i ≠ none

end Sys2Proof.Machine
end

