-- ==== Sys2Proof/Certificates/Slice0/Obligations.lean ====
section
/-! DEFINITION. The statements for the provers, file by file of spec/. Each names the rule it formalises. -/

namespace Sys2Proof.Claims

open Sys2Proof Sys2Proof.Machine

/-- The state after a command that ends with `code` and writes nothing but STATUS (00_scope.md R11). -/
def ended (s : State) (code : Result) : State :=
  { s with status := { s.status with busy := false, done := true, result := code } }

/-- The state after a POLL_STEP that ends with `code`, with the FIFO and the result registers it leaves (42_polling.md R152,
`finish`). -/
def endedCall (s : State) (fifo : List RxEntry) (code : Result) (trim : BitVec 10) (btn : BitVec 6) (cal rx : Byte) :
    State :=
  { s with
    rxFifo := fifo
    status := { s.status with busy := false, done := true, result := code }
    poll := { s.poll with
      bpe := .idle, nextId := s.poll.callId, dev := s.poll.callId, trim := trim, btn := btn, crcCalc := cal, crcRx := rx } }

/-- Bit `k` of the source stream in IN_BUF, 8 bits a byte, least significant first (20_memory.md R63). -/
def inBit (s : State) (k : Nat) : Bool := ((Memory.read s.inBuf (k / 8)).getD 0).getLsbD (k % 8)

/-- Bit `k` of the wire stream in IN_BUF, 7 bits a byte, least significant first (20_memory.md R63). -/
def inWireBit (s : State) (k : Nat) : Bool := ((Memory.read s.inBuf (k / 7)).getD 0).getLsbD (k % 7)

/-- Bit `k` of the wire stream of a byte list (20_memory.md R63). -/
def wireBit (w : List Byte) (k : Nat) : Bool := (w.getD (k / 7) 0).getLsbD (k % 7)

/-- `k` steps of the machine, stopping where a step does not answer a next state. -/
def runs : Nat → State → Host.Outcome State Fault Refusal
  | 0, s => .next s
  | k + 1, s =>
    match step s with
    | .next t => runs k t
    | .fault f => .fault f
    | .refused r => .refused r

/-- The Ticks of a stretch of edges. -/
def ticks (l : List Ports) : Nat := l.countP (·.tickMs)

/-- A byte of a reply as the device presents it at one edge: no reset, no reception error. Ticks, host accesses and the
transmitter's signals are whatever they are. -/
def presents (p : Ports) (b : Byte) : Prop := p.rst = false ∧ p.rxValid = true ∧ p.rxErr = false ∧ p.rxData = b

/-- The ids of the calls that end in `k` steps, in order, read off POLL_DEV as each one ends (42_polling.md R162). -/
def polledIds : Nat → State → List (BitVec 7)
  | 0, _ => []
  | k + 1, s =>
    match step s with
    | .next t => if s.poll.bpe ≠ .idle ∧ t.poll.bpe = .idle then t.poll.dev :: polledIds k t else polledIds k t
    | .fault _ => []
    | .refused _ => []

/-- The registers that read as before where no write is accepted and no command completes: all but STATUS and the debounce
counter, which the block itself moves (10_state.md R25, R47). -/
def heldWhileBusy : RegName → Prop
  | .status => False
  | .bcDebounceLeft => False
  | _ => True

/-- The bits of a write that a writable register keeps (10_state.md R26 to R44, 20_memory.md R61). -/
def writableMask (adcWidth : Nat) : RegName → Option Reg16
  | .ctrl => some 0x0003
  | .argN => some 0x00FF
  | .argByte => some 0x00FF
  | .argSample => some (BitVec.ofNat 16 (2 ^ adcWidth - 1))
  | .terminalCount => some 0x007F
  | .pollTimeoutMs => some 0xFFFF
  | .connTimeoutMs => some 0xFFFF
  | .debounceMs => some 0xFFFF
  | .heldThreshold => some 0x00FF
  | .edgeThreshold => some 0xFFFF
  | .btnMean _ => some 0xFFFF
  | .btnInterval _ => some 0xFFFF
  | .inBuf _ => some 0x00FF
  | .cmd | .status | .resN | .resByte | .pollNextId | .pollDev | .pollTrim | .pollBtn | .pollCrc | .bcStates | .bcRun
  | .bcDebounceLeft | .outBuf _ | .reserved => none

/-- Where the command in progress reads IN_BUF with a count it accepts, the host has written these bytes (20_memory.md R61,
40_wirecodec.md R113, R116, 41_framecrc.md R141). -/
def operandsWritten (s : State) : Prop :=
  let n := s.regs.argN.toNat
  (s.engine.opcode = 0x12 ∨ s.engine.opcode = 0x13 → n ≤ 28 → s.inBufWritten n) ∧
  (s.engine.opcode = 0x14 ∨ s.engine.opcode = 0x15 → 2 ≤ n → n ≤ 32 → s.inBufWritten n) ∧
  (s.engine.opcode = 0x20 → n ≤ 32 → s.inBufWritten n)

/-- The count of the run after a detection of `b` (43_buttons.md R182). -/
def runCount (u : ButtonUnit) (b : Button) : Nat := if u.last = some b then min 255 (u.count.toNat + 1) else 1

/-- The state of a button after its detection, as 43_buttons.md R181 lists the cases. -/
def detectedState (cnt : Nat) (old : BtnState) (h : Nat) : BtnState :=
  if cnt > h then .held else if cnt = 2 then .doublePressed else if cnt = 1 ∧ old = .idle then .pressed else old

/-- The sample lies in a button's window (43_buttons.md R180). -/
def windowHolds (r : HostRegs) (sample : Reg16) (b : Button) : Prop :=
  ((r.mean b).toNat : Int) - (r.interval b).toNat ≤ sample.toNat ∧
    (sample.toNat : Int) ≤ (r.mean b).toNat + (r.interval b).toNat

end Sys2Proof.Claims

open Sys2Proof Sys2Proof.Machine Sys2Proof.Claims

/-! ### 30_encoding.md -/

/-- Encoding and decoding agree on every well-formed instruction; the phase tells WIRE.DATA from WIRE.ECHO (R88). -/
def Obligations.DecodeOfEncodeIsIdentity : Prop :=
  ∀ i : Instr, i.wellFormed = true → decode (phaseOf i) (encode i) = i

/-- R82, R97 (the spec's inference from R81 to R83): decoding a CMD write is total and looks at bits [7:0] only. -/
def Obligations.CmdWordDecodesByOpcodeMap : Prop :=
  ∀ w : Reg16, decodeCmd w =
    match (w.extractLsb' 0 8).toNat with
    | 0x10 => .encSize | 0x11 => .decSize | 0x12 => .encodeS | 0x13 => .encodeM | 0x14 => .decodeS | 0x15 => .decodeM
    | 0x16 => .encbS | 0x17 => .encbM | 0x18 => .decbS | 0x19 => .decbM | 0x1A => .isbS | 0x1B => .isbM
    | 0x20 => .crc8 | 0x30 => .pollStep | 0x31 => .rxFlush | 0x40 => .btnSample | 0x41 => .btnReset
    | _ => .invalid (w.extractLsb' 0 8)

/-- R83: an opcode is INVALID exactly in the listed ranges. -/
def Obligations.IllegalOpcodesRunInvalid : Prop :=
  ∀ w : Reg16, illegalOpcode (w.extractLsb' 0 8) = true ↔ decodeCmd w = .invalid (w.extractLsb' 0 8)

/-- R85 to R88: bit 7 tells master from slave, bits [6:0] are the field, the phase tells ECHO from DATA. -/
def Obligations.WireBytesAreClassifiedByMarkerAndPhase : Prop :=
  ∀ (b : Byte) (v : BitVec 7),
    (∀ ph, decodeWire ph (0x80 ||| v.setWidth 8) = .wirePoll v) ∧
    decodeWire .echo (v.setWidth 8) = .wireEcho v ∧ decodeWire .data (v.setWidth 8) = .wireData v ∧
    (b.getLsbD 7 = true → b = 0x80 ||| (b.extractLsb' 0 7).setWidth 8) ∧
    (b.getLsbD 7 = false → b = (b.extractLsb' 0 7).setWidth 8)

/-- Words written out from R82, R85 and R86 decode to the instructions they stand for. That a slave byte without a phase reads
as WIRE.ECHO, where WIRE.DATA has the same pattern (R88), and that no instruction is read at a width other than 16 or 8, is the
model's choice (log 11). -/
def Obligations.SampleWordsDecode : Prop :=
  decodeTableWord 16 0x0010 = some .encSize ∧ decodeTableWord 16 0x1213 = some .encodeM ∧
  decodeTableWord 16 0x0020 = some .crc8 ∧ decodeTableWord 16 0x0030 = some .pollStep ∧
  decodeTableWord 16 0x0040 = some .btnSample ∧ decodeTableWord 16 0x0042 = some (.invalid 0x42) ∧
  decodeTableWord 8 0x8C = some (.wirePoll 12) ∧ decodeTableWord 8 0x0C = some (.wireEcho 12) ∧
  decodeTableWord 12 0x0C = none

/-- R94 (the spec's inference from R90, R91 and R63): where each field of a reply lands in its four wire bytes. -/
def Obligations.ReplyFrameLayout : Prop :=
  ∀ (trim : BitVec 10) (btn : BitVec 6), ∃ crc : Byte,
    assemblePayload trim btn =
      [trim.extractLsb' 0 8, btn ++ trim.extractLsb' 8 2, crc] ∧
    crc = crc8 [trim.extractLsb' 0 8, btn ++ trim.extractLsb' 8 2] ∧
    replyFrame trim btn =
      [(0 : BitVec 1) ++ trim.extractLsb' 0 7,
       (0 : BitVec 1) ++ btn.extractLsb' 0 4 ++ trim.extractLsb' 7 3,
       (0 : BitVec 1) ++ crc.extractLsb' 0 5 ++ btn.extractLsb' 4 2,
       (0 : BitVec 5) ++ crc.extractLsb' 5 3]

/-! ### 40_wirecodec.md -/

/-- R110, R111: ENC_SIZE gives the ceiling of 8n/7, DEC_SIZE the floor of 7n/8; n = 0 ends INVALID_ARG and leaves RES_N. -/
def Obligations.SizeCommandsGiveExactSizes : Prop :=
  decodeCmd 0x0010 = .encSize ∧ decodeCmd 0x0011 = .decSize ∧
  ∀ s : State,
    (s.regs.argN = 0 →
      exec .encSize s = .next (ended s .invalidArg) ∧ exec .decSize s = .next (ended s .invalidArg)) ∧
    (s.regs.argN ≠ 0 →
      (∃ r : Reg16, 8 * s.regs.argN.toNat ≤ 7 * r.toNat ∧ 7 * r.toNat < 8 * s.regs.argN.toNat + 7 ∧
        exec .encSize s = .next { ended s .ok with resN := r }) ∧
      (∃ r : Reg16, 8 * r.toNat ≤ 7 * s.regs.argN.toNat ∧ 7 * s.regs.argN.toNat < 8 * r.toNat + 8 ∧
        exec .decSize s = .next { ended s .ok with resN := r }))

/-- R113, R114 with R112: ENCODE.x writes the stuffed stream under the role marker, zero-padded, to OUT_BUF from index 0 and
its size to RES_N; every other byte of OUT_BUF and all else but STATUS is unchanged. A count of 0 or above 28 ends
INVALID_ARG. -/
def Obligations.EncodeStuffsInputIntoOutput : Prop :=
  decodeCmd 0x0012 = .encodeS ∧ decodeCmd 0x0013 = .encodeM ∧
  ∀ (role : Bool) (s : State),
    let i : Instr := if role then .encodeM else .encodeS
    let n := s.regs.argN.toNat
    (n = 0 ∨ 28 < n → exec i s = .next (ended s .invalidArg)) ∧
    (1 ≤ n → n ≤ 28 → s.inBufWritten n →
      ∃ (m : Nat) (out : Memory), 8 * n ≤ 7 * m ∧ 7 * m < 8 * n + 7 ∧
        exec i s = .next { ended s .ok with resN := BitVec.ofNat 16 m, outBuf := out } ∧
        (∀ j, j < m → ∃ b, Memory.read out j = some b ∧ b.getLsbD 7 = role ∧
          ∀ t, t < 7 → b.getLsbD t = if 7 * j + t < 8 * n then inBit s (7 * j + t) else false) ∧
        (∀ j, m ≤ j → Memory.read out j = Memory.read s.outBuf j))

/-- R116, R117 with R115: DECODE.x, alike for both roles, writes the unstuffed bytes to OUT_BUF from index 0 and their
number to RES_N, reading no bit 7; every other byte of OUT_BUF and all else but STATUS is unchanged. A count below 2 or
above 32 ends INVALID_ARG. -/
def Obligations.DecodeUnstuffsInputIntoOutput : Prop :=
  decodeCmd 0x0014 = .decodeS ∧ decodeCmd 0x0015 = .decodeM ∧
  ∀ (role : Bool) (s : State),
    let i : Instr := if role then .decodeM else .decodeS
    let m := s.regs.argN.toNat
    (m < 2 ∨ 32 < m → exec i s = .next (ended s .invalidArg)) ∧
    (2 ≤ m → m ≤ 32 → s.inBufWritten m →
      ∃ (n : Nat) (out : Memory), 8 * n ≤ 7 * m ∧ 7 * m < 8 * n + 8 ∧
        exec i s = .next { ended s .ok with resN := BitVec.ofNat 16 n, outBuf := out } ∧
        (∀ j, j < n → ∃ b, Memory.read out j = some b ∧ ∀ t, t < 8 → b.getLsbD t = inWireBit s (8 * j + t)) ∧
        (∀ j, n ≤ j → Memory.read out j = Memory.read s.outBuf j))

/-- R119 to R124: each single-byte helper ends OK and writes RES_BYTE alone. -/
def Obligations.ByteHelpersWriteTheirByte : Prop :=
  decodeCmd 0x0016 = .encbS ∧ decodeCmd 0x0017 = .encbM ∧ decodeCmd 0x0018 = .decbS ∧ decodeCmd 0x0019 = .decbM ∧
  decodeCmd 0x001A = .isbS ∧ decodeCmd 0x001B = .isbM ∧
  ∀ s : State, ∃ cleared marked : Byte,
    cleared.getLsbD 7 = false ∧ marked.getLsbD 7 = true ∧
    (∀ t, t < 7 → cleared.getLsbD t = s.regs.argByte.getLsbD t ∧ marked.getLsbD t = s.regs.argByte.getLsbD t) ∧
    exec .encbS s = .next { ended s .ok with resByte := cleared } ∧
    exec .encbM s = .next { ended s .ok with resByte := marked } ∧
    exec .decbS s = .next { ended s .ok with resByte := cleared } ∧
    exec .decbM s = .next { ended s .ok with resByte := cleared } ∧
    exec .isbS s = .next { ended s .ok with resByte := if s.regs.argByte.getLsbD 7 = false then 1 else 0 } ∧
    exec .isbM s = .next { ended s .ok with resByte := if s.regs.argByte.getLsbD 7 = true then 1 else 0 }

/-- R125 (the spec's inference from R112 and R115): the bytes survive ENCODE.x and DECODE.y, for both roles and across
roles. -/
def Obligations.DecodeOfEncodeGivesInputBack : Prop :=
  ∀ (x y : Bool) (s s1 s2 : State),
    1 ≤ s.regs.argN.toNat → s.regs.argN.toNat ≤ 28 → s.inBufWritten s.regs.argN.toNat →
    exec (if x then .encodeM else .encodeS) s = .next s1 →
    (∀ i, i < s1.resN.toNat → Memory.read s2.inBuf i = Memory.read s1.outBuf i) →
    s2.regs.argN.toNat = s1.resN.toNat →
    ∃ s3, exec (if y then .decodeM else .decodeS) s2 = .next s3 ∧ s3.status.result = .ok ∧
      s3.resN.toNat = s.regs.argN.toNat ∧
      ∀ i, i < s.regs.argN.toNat → Memory.read s3.outBuf i = Memory.read s.inBuf i

/-- R126 (the spec's inference from R110 and R111): decoded_size inverts encoded_size; the other way round a byte is lost
exactly when m mod 8 = 1. -/
def Obligations.SizesInvert : Prop :=
  (∀ n, 1 ≤ n → decodedSize (encodedSize n) = n) ∧
  (∀ m, 2 ≤ m → encodedSize (decodedSize m) ≤ m ∧ (encodedSize (decodedSize m) = m ↔ m % 8 ≠ 1)) ∧
  (∀ k, 1 ≤ k → decodedSize (8 * k + 1) = 7 * k ∧ encodedSize (7 * k) = 8 * k)

/-- R127 (the spec's inference from R112 and R115): unstuffing sees exactly the stream bits below 8n, and stuffing gives the
wire bytes back exactly when the length is not 1 modulo 8, every marker is the role's and the padding bits are 0. -/
def Obligations.UnstuffSeesTheStreamBitsBelowItsSize : Prop :=
  (∀ w v : List Byte, w.length = v.length →
    (unstuff w = unstuff v ↔ ∀ k, k < 8 * (unstuff w).length → wireBit w k = wireBit v k)) ∧
  (∀ (role : Bool) (w : List Byte), 2 ≤ w.length →
    (stuff role (unstuff w) = w ↔ w.length % 8 ≠ 1 ∧ (∀ b ∈ w, b.getLsbD 7 = role) ∧
      ∀ k, 8 * (unstuff w).length ≤ k → k < 7 * w.length → wireBit w k = false))

/-! ### 41_framecrc.md -/

/-- R141 with R140: CRC8 of the first n bytes of IN_BUF goes to RES_BYTE, and nothing else but STATUS changes; n above 32 ends
INVALID_ARG. The CRC of no bytes is 0, and one more byte is XORed in and then shifted eight times, most significant bit first,
the bit that leaves being added at the bits 0, 1 and 2 of the polynomial 0x07. The shift direction is general knowledge that the
spec adopts (log 15). -/
def Obligations.CrcCommandWritesCrcOfInput : Prop :=
  decodeCmd 0x0020 = .crc8 ∧
  (∀ s : State,
    (32 < s.regs.argN.toNat → exec .crc8 s = .next (ended s .invalidArg)) ∧
    (s.regs.argN.toNat ≤ 32 → s.inBufWritten s.regs.argN.toNat →
      ∃ data : List Byte, data.length = s.regs.argN.toNat ∧
        (∀ i, i < s.regs.argN.toNat → Memory.read s.inBuf i = data[i]?) ∧
        exec .crc8 s = .next { ended s .ok with resByte := crc8 data })) ∧
  crc8 [] = 0 ∧
  ∀ (d : List Byte) (b : Byte), ∃ c : Nat → Byte, c 0 = crc8 d ^^^ b ∧ c 8 = crc8 (d ++ [b]) ∧
    ∀ k, k < 8 →
      (c (k + 1)).getLsbD 0 = (c k).getLsbD 7 ∧
      (∀ t, 1 ≤ t → t ≤ 2 → (c (k + 1)).getLsbD t = ((c k).getLsbD (t - 1)).xor ((c k).getLsbD 7)) ∧
      ∀ t, 3 ≤ t → t < 8 → (c (k + 1)).getLsbD t = (c k).getLsbD (t - 1)

/-- R142 (the spec's inference from R140): appending the CRC gives zero, and only the CRC does. -/
def Obligations.AppendedCrcGivesZero : Prop :=
  ∀ (d : List Byte) (c : Byte), crc8 (d ++ [c]) = 0 ↔ c = crc8 d

/-- R143 (the spec's inference from R140 and general knowledge): the CRC is linear, and it sees every nonzero error burst of
8 bits or fewer in the two payload bytes. R143 does not say in which order the bits of a burst are contiguous: the order here,
payload[0] first and each byte from its most significant bit, the order in which the CRC takes them, is the model's choice
(log 17); in the order of the wire the claim would be false. -/
def Obligations.CrcIsLinearAndSeesBursts : Prop :=
  (∀ a b : List Byte, a.length = b.length → crc8 (List.zipWith (· ^^^ ·) a b) = crc8 a ^^^ crc8 b) ∧
  (∀ (p0 p1 e : Byte) (k : Nat), e ≠ 0 → k ≤ 8 →
    let burst : Reg16 := e.setWidth 16 <<< k
    crc8 [p0 ^^^ burst.extractLsb' 8 8, p1 ^^^ burst.extractLsb' 0 8] ≠ crc8 [p0, p1])

/-! ### 42_polling.md -/

/-- R151: with TERMINAL_COUNT = 0 a POLL_STEP only ends DISABLED. -/
def Obligations.PollStepWithoutTerminalsIsDisabled : Prop :=
  ∀ s : State, s.poll.bpe = .idle → s.regs.terminalCount = 0 → exec .pollStep s = .next (ended s .disabled)

/-- R152, R153: with terminals, the first edge computes the id, below TERMINAL_COUNT, and offers its poll byte. -/
def Obligations.PollStepOffersNextIdsPollByte : Prop :=
  decodeCmd 0x0030 = .pollStep ∧
  ∀ s : State, s.poll.bpe = .idle → s.regs.terminalCount ≠ 0 →
    ∃ id : BitVec 7, id.toNat = (s.poll.nextId.toNat + 1) % s.regs.terminalCount.toNat ∧
      id.toNat < s.regs.terminalCount.toNat ∧
      exec .pollStep s = .next { s with poll := { s.poll with bpe := .tx, callId := id, txTaken := false } } ∧
      ∀ t, exec .pollStep s = .next t → ∃ b, t.txOffer = some b ∧ encode (.wirePoll id) = .line b

/-- R154: in TX the poll byte is offered until the transmitter takes it, then `tx_done` opens the ID window; without these the
engine holds, whatever the counters say. That `tx_done` at the edge of the taking is not seen is the model's reading (log 12).
That the call's poll byte is the instruction the engine works on in TX, with the same effect as its POLL_STEP, is the model's
choice (log 11). -/
def Obligations.TransmitPhaseWaitsForTheDevice : Prop :=
  ∀ s : State, s.poll.bpe = .tx →
    s.fetch = .wirePoll s.poll.callId ∧
    s.txOffer = (if s.poll.txTaken then none else some (0x80 ||| s.poll.callId.setWidth 8)) ∧
    exec (.wirePoll s.poll.callId) s = .next
      (if s.poll.txTaken then
        if s.ports.txDone then { s with poll := { s.poll with bpe := .waitId, winLeft := s.regs.pollTimeoutMs } } else s
      else if s.ports.txReady then { s with poll := { s.poll with txTaken := true } } else s) ∧
    exec .pollStep s = exec (.wirePoll s.poll.callId) s

/-- R86, R155: in WAIT_ID a WIRE.ECHO with the polled id opens the data window; one with another id ends INVALID_RESPONSE. -/
def Obligations.EchoIsAcceptedOnlyFromPolledTerminal : Prop :=
  ∀ (id : BitVec 7) (s : State), s.poll.bpe = .waitId →
    (id = s.poll.callId → exec (.wireEcho id) s = .next { s with
      rxFifo := s.rxFifo.tail
      poll := { s.poll with bpe := .waitData, winLeft := s.regs.connTimeoutMs, dataCnt := 0 } }) ∧
    (id ≠ s.poll.callId → exec (.wireEcho id) s = .next (endedCall s [] .invalidResponse 0 0 0 0))

/-- R155: the oldest FIFO entry is the echo candidate; an error, the master marker or a wrong id ends INVALID_RESPONSE with
the FIFO flushed. -/
def Obligations.FirstByteDecidesTheIdPhase : Prop :=
  ∀ (s : State) (e : RxEntry) (rest : List RxEntry),
    s.engine.opcode = pollStepOpcode → s.poll.bpe = .waitId → s.rxFifo = e :: rest →
    (e.err = false ∧ e.data.getLsbD 7 = false ∧ e.data.extractLsb' 0 7 = s.poll.callId →
      exec s.fetch s = .next { s with
        rxFifo := rest
        poll := { s.poll with bpe := .waitData, winLeft := s.regs.connTimeoutMs, dataCnt := 0 } }) ∧
    (¬(e.err = false ∧ e.data.getLsbD 7 = false ∧ e.data.extractLsb' 0 7 = s.poll.callId) →
      exec s.fetch s = .next (endedCall s [] .invalidResponse 0 0 0 0))

/-- R87, R156, R157: in WAIT_DATA a payload byte that is not the fourth is taken into RX_FRAME and the phase goes on: a
WIRE.DATA, and any error-free byte at the head of the FIFO whatever its bit 7, which stands in RX_FRAME with the byte. -/
def Obligations.DataByteJoinsTheFrame : Prop :=
  (∀ (d : BitVec 7) (s : State), s.poll.bpe = .waitData → s.poll.dataCnt.toNat < 3 →
    ∃ (f : RxFrame) (c : BitVec 3), c.toNat = s.poll.dataCnt.toNat + 1 ∧
      (∀ j, j < 4 → f.bytes[j]? = if j = s.poll.dataCnt.toNat then some (d.setWidth 8) else s.poll.frame.bytes[j]?) ∧
      exec (.wireData d) s = .next { s with
        rxFifo := s.rxFifo.tail, poll := { s.poll with frame := f, dataCnt := c } }) ∧
  ∀ (b : Byte) (rest : List RxEntry) (s : State), s.poll.bpe = .waitData → s.poll.dataCnt.toNat < 3 →
    s.rxFifo = { data := b, err := false } :: rest →
    ∃ (f : RxFrame) (c : BitVec 3), c.toNat = s.poll.dataCnt.toNat + 1 ∧
      (∀ j, j < 4 → f.bytes[j]? = if j = s.poll.dataCnt.toNat then some b else s.poll.frame.bytes[j]?) ∧
      exec s.fetch s = .next { s with rxFifo := rest, poll := { s.poll with frame := f, dataCnt := c } }

/-- R156: a payload entry with a reception error ends the call at once. -/
def Obligations.ErroredPayloadByteEndsTheCall : Prop :=
  ∀ (s : State) (b : Byte) (rest : List RxEntry),
    s.engine.opcode = pollStepOpcode → s.poll.bpe = .waitData → s.rxFifo = { data := b, err := true } :: rest →
    exec s.fetch s = .next (endedCall s [] .invalidResponse 0 0 0 0)

/-- R157, R158, R92, R162: the fourth payload byte decides the call at its edge: marker check if CHK_MARK, then the CRC over
the two bytes before it, then TRIM and BTN. Bytes after it stay in the FIFO on OK. -/
def Obligations.FourthByteDecidesTheCall : Prop :=
  ∀ (s : State) (d : Byte) (rest : List RxEntry),
    s.poll.bpe = .waitData → s.poll.dataCnt = 3 → s.rxFifo = { data := d, err := false } :: rest →
    let f : RxFrame := { s.poll.frame with b3 := d }
    let t : State := { s with poll := { s.poll with frame := f, dataCnt := 4 } }
    let p0 : Byte := f.b1.extractLsb' 0 1 ++ f.b0.extractLsb' 0 7
    let p1 : Byte := f.b2.extractLsb' 0 2 ++ f.b1.extractLsb' 1 6
    let p2 : Byte := f.b3.extractLsb' 0 3 ++ f.b2.extractLsb' 2 5
    let w16 : Reg16 := p1 ++ p0
    let wrongMarker := s.regs.chkMark = true ∧
      (f.b0.getLsbD 7 ∨ f.b1.getLsbD 7 ∨ f.b2.getLsbD 7 ∨ f.b3.getLsbD 7)
    (wrongMarker → exec s.fetch s = .next (endedCall t [] .invalidResponse 0 0 0 0)) ∧
    (¬wrongMarker → crc8 [p0, p1] ≠ p2 →
      exec s.fetch s = .next (endedCall t [] .invalidCrc 0 0 (crc8 [p0, p1]) p2)) ∧
    (¬wrongMarker → crc8 [p0, p1] = p2 →
      exec s.fetch s = .next (endedCall t rest .ok (w16.extractLsb' 0 10) (w16.extractLsb' 10 6) p2 p2))

/-- R159: with no byte waiting, the call ends when the window has run out and holds otherwise. -/
def Obligations.EmptyWindowHoldsOrExpires : Prop :=
  ∀ s : State, s.rxFifo = [] →
    (s.poll.bpe = .waitId → exec .pollStep s =
      .next (if s.poll.winLeft = 0 then endedCall s [] .idle 0 0 0 0 else s)) ∧
    (s.poll.bpe = .waitData → exec .pollStep s =
      .next (if s.poll.winLeft = 0 then endedCall s [] .timeout 0 0 0 0 else s))

/-- R161, R162: whatever ends a call, POLL_NEXT_ID and POLL_DEV take the polled id, the fields are 0 unless OK, the CRCs
are 0 unless a payload was decoded, and exactly TIMEOUT, INVALID_RESPONSE and INVALID_CRC flush. -/
def Obligations.EveryCallEndsWithItsResultRegisters : Prop :=
  ∀ s t : State, s.engine.opcode = pollStepOpcode → s.status.busy = true → s.poll.bpe ≠ .idle →
    exec s.fetch s = .next t → t.status.busy = false →
    t.poll.bpe = .idle ∧ t.poll.nextId = s.poll.callId ∧ t.poll.dev = s.poll.callId ∧ t.status.done = true ∧
    t.status.result ∈ [Result.ok, .idle, .timeout, .invalidResponse, .invalidCrc] ∧
    (t.status.result ≠ .ok → t.poll.trim = 0 ∧ t.poll.btn = 0) ∧
    (t.status.result ≠ .ok → t.status.result ≠ .invalidCrc → t.poll.crcRx = 0 ∧ t.poll.crcCalc = 0) ∧
    (t.status.result = .ok → t.poll.crcCalc = t.poll.crcRx) ∧
    (t.status.result = .invalidCrc → t.poll.crcCalc ≠ t.poll.crcRx) ∧
    (t.status.result ∈ [Result.timeout, .invalidResponse, .invalidCrc] → t.rxFifo = []) ∧
    (t.status.result = .ok → t.rxFifo = s.rxFifo.tail) ∧
    (t.status.result = .idle → t.rxFifo = s.rxFifo)

/-- R152 to R158 together with R91: a terminal that answers its poll with its echo and an assembled frame, a byte an edge
and with anything else happening at these edges but reset, is reported as it sent: its id, its trimmer, its button states. -/
def Obligations.AssembledReplyIsReported : Prop :=
  ∀ (s : State) (trim : BitVec 10) (btn : BitVec 6) (e d0 d1 d2 d3 : Ports) (rest : List Ports) (w0 w1 w2 w3 : Byte),
    legalParams s.params = true → s.status.busy = true → s.engine.opcode = pollStepOpcode → s.engine.latLeft ≤ 1 →
    s.poll.bpe = .waitId → s.rxFifo = [] → replyFrame trim btn = [w0, w1, w2, w3] →
    s.script = e :: d0 :: d1 :: d2 :: d3 :: rest →
    presents e (s.poll.callId.setWidth 8) → presents d0 w0 → presents d1 w1 → presents d2 w2 → presents d3 w3 →
    ∃ t, runs 5 s = .next t ∧ t.status.busy = false ∧ t.status.done = true ∧ t.status.result = .ok ∧
      t.poll.dev = s.poll.callId ∧ t.poll.nextId = s.poll.callId ∧ t.poll.trim = trim ∧ t.poll.btn = btn ∧
      t.poll.crcRx = t.poll.crcCalc ∧ t.rxFifo = []

/-- R159: a silent window of T milliseconds lasts T Ticks, at any edges and whatever the host does meanwhile, and then
ends the call: IDLE in the ID phase, TIMEOUT in the data phase. -/
def Obligations.SilentWindowEndsAtItsLastTick : Prop :=
  ∀ (s : State) (l : List Ports) (p : Ports) (rest : List Ports),
    legalParams s.params = true → s.status.busy = true → s.engine.opcode = pollStepOpcode → s.engine.latLeft ≤ 1 →
    (s.poll.bpe = .waitId ∨ s.poll.bpe = .waitData) → s.rxFifo = [] → s.script = l ++ p :: rest →
    (∀ q ∈ l ++ [p], q.rst = false ∧ q.rxValid = false) → p.tickMs = true → ticks l + 1 = s.poll.winLeft.toNat →
    (∃ u, runs l.length s = .next u ∧ u.status.busy = true ∧ u.poll.bpe = s.poll.bpe) ∧
    ∃ t, runs (l.length + 1) s = .next t ∧ t.status.busy = false ∧ t.status.done = true ∧ t.poll.bpe = .idle ∧
      t.status.result = (if s.poll.bpe = .waitId then .idle else .timeout)

/-- R163 (the spec's inference from R153): starting from any stored id, the first TERMINAL_COUNT advances of the id visit every
id once, in increasing cyclic order. And the calls of a run, over any schedule of inputs without a reset or a write to
TERMINAL_COUNT, poll exactly the ids of these advances, one after the other, whatever the outcome of each call. -/
def Obligations.RoundRobinVisitsEachTerminalOnce : Prop :=
  (∀ (count p : BitVec 7), count ≠ 0 →
    (∀ k, 1 ≤ k → ((nextPollId · count)^[k] p).toNat = (p.toNat + k) % count.toNat) ∧
    (∀ id, id < count → ∃! k, 1 ≤ k ∧ k ≤ count.toNat ∧ (nextPollId · count)^[k] p = id)) ∧
  ∀ (k : Nat) (s : State), s.poll.bpe = .idle →
    (∀ j, j < k → (s.script.getD j idlePorts).rst = false ∧
      ¬((s.script.getD j idlePorts).regWe = true ∧ (s.script.getD j idlePorts).regAddr = 0x08)) →
    ∀ n, n < (polledIds k s).length →
      (polledIds k s)[n]? = some ((nextPollId · s.regs.terminalCount)^[n + 1] s.poll.nextId)

/-- R160: RX_FLUSH leaves the FIFO empty, with a byte that arrives at the same edge, and keeps RXOVR. -/
def Obligations.RxFlushEmptiesTheFifo : Prop :=
  decodeCmd 0x0031 = .rxFlush ∧
  (∀ s : State, exec .rxFlush s = .next { ended s .ok with rxFifo := [] }) ∧
  ∀ s : State, legalParams s.params = true → s.ports.rst = false → s.status.busy = true → s.engine.latLeft ≤ 1 →
    s.engine.opcode = 0x31 → s.poll.bpe = .idle → s.ports.regWe = false →
    ∃ t, step s = .next t ∧ t.rxFifo = [] ∧ t.status.result = .ok ∧ t.status.done = true ∧
      t.status.rxOvr = (s.status.rxOvr || (s.ports.rxValid && decide (s.params.rxFifoDepth ≤ s.rxFifo.length)))

/-! ### 43_buttons.md -/

/-- R180: read_button gives the first button whose window holds a sample below the edge threshold. -/
def Obligations.ReadButtonGivesFirstMatchingWindow : Prop :=
  ∀ (r : HostRegs) (sample : Reg16),
    (∀ b, readButton r sample = some b ↔
      sample.toNat < r.edgeThreshold.toNat ∧ windowHolds r sample b ∧
        ∀ c : Button, c.number.toNat < b.number.toNat → ¬windowHolds r sample c) ∧
    (readButton r sample = none ↔ r.edgeThreshold.toNat ≤ sample.toNat ∨ ∀ b, ¬windowHolds r sample b)

/-- R183, R206: a BTN_SAMPLE issued in an open debounce window takes no sample: RES_BYTE is 0 and nothing else changes. That
the issue edge decides is the model's reading (log 6). -/
def Obligations.SampleInDebounceWindowIsRefused : Prop :=
  ∀ s : State, s.engine.debounceAtIssue ≠ 0 →
    exec .btnSample s = .next { ended s .debounce with resByte := 0 }

/-- R182, R184: a sample taken (log 6 says when) in no window ends the run and changes no button state. -/
def Obligations.NoDetectionEndsTheRun : Prop :=
  ∀ s : State, s.engine.debounceAtIssue = 0 → readButton s.regs s.operandSample = none →
    exec .btnSample s = .next { ended s .ok with
      resByte := 0, btn := { s.btn with last := none, count := 0 } }

/-- R181, R182: a detection extends or starts the run, moves the detected button's state alone, and opens the debounce
window exactly when that state changed. When a sample is taken is the model's reading (log 6). -/
def Obligations.DetectionUpdatesRunStateAndDebounce : Prop :=
  decodeCmd 0x0040 = .btnSample ∧
  ∀ (s : State) (b : Button), s.engine.debounceAtIssue = 0 → readButton s.regs s.operandSample = some b →
    ∃ u : ButtonUnit,
      exec .btnSample s = .next { ended s .ok with resByte := b.number.setWidth 8, btn := u } ∧
      u.last = some b ∧ u.count.toNat = runCount s.btn b ∧
      u.state b = detectedState (runCount s.btn b) (s.btn.state b) s.regs.heldThreshold.toNat ∧
      (∀ c, c ≠ b → u.state c = s.btn.state c) ∧
      u.left = (if u.state b = s.btn.state b then s.btn.left else s.regs.debounceMs)

/-- R185: BTN_RESET makes the three states Idle and changes nothing else. -/
def Obligations.BtnResetClearsOnlyTheStates : Prop :=
  decodeCmd 0x0041 = .btnReset ∧
  ∀ s : State, ∃ u : ButtonUnit,
    exec .btnReset s = .next { ended s .ok with btn := u } ∧
    (∀ b, u.state b = .idle) ∧ u.last = s.btn.last ∧ u.count = s.btn.count ∧ u.left = s.btn.left

/-- R186 (the spec's inference from R181 to R184): n detections in a row of a button that was Idle, from a new run on:
Pressed at the first, DoublePressed from the second, Held from the one above the threshold. -/
def Obligations.ConsecutiveDetectionsClimb : Prop :=
  ∀ (r : HostRegs) (u : ButtonUnit) (b : Button) (n : Nat),
    u.state b = .idle → u.last ≠ some b → 2 ≤ r.heldThreshold.toNat → 1 ≤ n → n ≤ 255 →
    ((detect r · b)^[n] u).count.toNat = n ∧
    ((detect r · b)^[n] u).state b =
      if n = 1 then .pressed else if n ≤ r.heldThreshold.toNat then .doublePressed else .held

/-- R188: no step turns a button Idle but a block reset and a BTN_RESET. -/
def Obligations.OnlyResetsMakeAButtonIdle : Prop :=
  ∀ (s t : State) (b : Button), step s = .next t → s.btn.state b ≠ .idle → t.btn.state b = .idle →
    s.ports.rst = true ∨ (s.status.busy = true ∧ s.beforeEngine.fetch = .btnReset)

/-! ### 60_exceptions.md -/

/-- R201: INVALID changes nothing but STATUS, for every illegal opcode. -/
def Obligations.InvalidChangesOnlyStatus : Prop :=
  ∀ (op : Byte) (s : State), exec (.invalid op) s = .next (ended s .invalidOp)

/-- R205: `irq` is a level: it follows DONE where enabled, from completion until the acknowledgement or the next command. -/
def Obligations.IrqIsDoneWhereEnabled : Prop :=
  ∀ (s : State) (c : Result) (w : Reg16),
    s.irq = (s.status.done && s.regs.irqEn) ∧ (s.raiseResult c).irq = s.regs.irqEn ∧
    s.acknowledge.irq = false ∧ (s.issue w).irq = false ∧
    (s.writeStatus 0x0020 false false) = s.acknowledge

/-- R216: the block has no fault state. -/
def Obligations.NoStepFaults : Prop :=
  ∀ s : State, Answer.noFault (step s)

/-- R216: a step is refused only for a parameter out of range, or where ENCODE.x, DECODE.x or CRC8 with a legal count reads
an IN_BUF byte the host has not written (log 7). That LAT_MAX = 0 is out of range too is the model's choice (log 1). -/
def Obligations.RefusalsAreTheTwoTheSpecNames : Prop :=
  ∀ (s : State) (r : Refusal), step s = .refused r →
    (r = .illegalParameters ∧ legalParams s.params = false) ∨
    ∃ i, r = .inBufNotWritten i ∧ i < s.regs.argN.toNat ∧ Memory.read s.inBuf i = none ∧ s.status.busy = true ∧
      ((s.beforeEngine.fetch ∈ [Instr.encodeS, .encodeM] ∧ s.regs.argN.toNat ≤ 28) ∨
       (s.beforeEngine.fetch ∈ [Instr.decodeS, .decodeM] ∧ 2 ≤ s.regs.argN.toNat ∧ s.regs.argN.toNat ≤ 32) ∨
       (s.beforeEngine.fetch = .crc8 ∧ s.regs.argN.toNat ≤ 32))

/-! ### 10_state.md and 20_memory.md -/

/-- R25, R200: where each field of STATUS stands, and the numbers of the result codes and of the phases. -/
def Obligations.StatusWordLayout : Prop :=
  (Result.ok.code = 0 ∧ Result.idle.code = 1 ∧ Result.timeout.code = 2 ∧ Result.invalidResponse.code = 3 ∧
    Result.invalidCrc.code = 4 ∧ Result.disabled.code = 5 ∧ Result.invalidArg.code = 6 ∧ Result.invalidOp.code = 7 ∧
    Result.debounce.code = 8) ∧
  (BpeState.idle.code = 0 ∧ BpeState.tx.code = 1 ∧ BpeState.waitId.code = 2 ∧ BpeState.waitData.code = 3) ∧
  ∀ s : State, s.rxFifo.length ≤ 31 →
    (s.readReg .status).getLsbD 0 = s.status.busy ∧ (s.readReg .status).extractLsb' 1 4 = s.status.result.code ∧
    (s.readReg .status).getLsbD 5 = s.status.done ∧ (s.readReg .status).getLsbD 6 = s.status.rxOvr ∧
    (s.readReg .status).getLsbD 7 = s.status.wrLost ∧ (s.readReg .status).extractLsb' 8 3 = s.poll.bpe.code ∧
    ((s.readReg .status).extractLsb' 11 5).toNat = s.rxFifo.length

/-- 30_encoding.md section 3: which register each address names; the reserved addresses and CMD read 0, and a write to a
reserved address changes nothing. -/
def Obligations.RegisterMapNamesEveryAddress : Prop :=
  (∀ a : BitVec 7, regAt a =
    match a.toNat with
    | 0x00 => .cmd | 0x01 => .status | 0x02 => .ctrl | 0x03 => .argN | 0x04 => .resN | 0x05 => .argByte
    | 0x06 => .resByte | 0x07 => .argSample | 0x08 => .terminalCount | 0x09 => .pollTimeoutMs | 0x0A => .connTimeoutMs
    | 0x0B => .pollNextId | 0x0C => .pollDev | 0x0D => .pollTrim | 0x0E => .pollBtn | 0x0F => .pollCrc
    | 0x10 => .debounceMs | 0x11 => .heldThreshold | 0x12 => .edgeThreshold | 0x13 => .btnMean .b1 | 0x14 => .btnMean .b2
    | 0x15 => .btnMean .b3 | 0x16 => .btnInterval .b1 | 0x17 => .btnInterval .b2 | 0x18 => .btnInterval .b3
    | 0x19 => .bcStates | 0x1A => .bcRun | 0x1B => .bcDebounceLeft
    | n => if 0x20 ≤ n ∧ n ≤ 0x3F then .inBuf (n - 0x20) else if 0x40 ≤ n ∧ n ≤ 0x5F then .outBuf (n - 0x40)
      else .reserved) ∧
  ∀ (s : State) (v : Reg16), s.readReg .reserved = 0 ∧ s.readReg .cmd = 0 ∧ s.writeReg .reserved v = s

/-- 10_state.md sections 2 to 8: what a read of each register gives (STATUS is StatusWordLayout's): its fields at their places
and 0 in its reserved bits, a buffer byte that has been written zero-extended, and `reg_rdata` is the register at `reg_addr`.
With it the numbers of the button states (R45) and of the buttons (R46, R180). -/
def Obligations.RegisterWordsShowTheirFields : Prop :=
  (BtnState.idle.code = 0 ∧ BtnState.pressed.code = 1 ∧ BtnState.doublePressed.code = 2 ∧ BtnState.held.code = 3) ∧
  (buttonNumber none = 0 ∧ buttonNumber (some .b1) = 1 ∧ buttonNumber (some .b2) = 2 ∧ buttonNumber (some .b3) = 3 ∧
    ∀ b : Button, b.number = buttonNumber (some b)) ∧
  ∀ s : State,
    s.regRdata = s.readReg (regAt s.ports.regAddr) ∧
    ((s.readReg .ctrl).getLsbD 0 = s.regs.irqEn ∧ (s.readReg .ctrl).getLsbD 1 = s.regs.chkMark ∧
      (s.readReg .ctrl).extractLsb' 2 14 = 0) ∧
    s.readReg .argN = s.regs.argN.setWidth 16 ∧ s.readReg .resN = s.resN ∧
    s.readReg .argByte = s.regs.argByte.setWidth 16 ∧ s.readReg .resByte = s.resByte.setWidth 16 ∧
    s.readReg .argSample = s.operandSample ∧
    (∀ i, i < 16 → s.operandSample.getLsbD i = (s.regs.argSample.getLsbD i && decide (i < s.params.adcWidth))) ∧
    s.readReg .terminalCount = s.regs.terminalCount.setWidth 16 ∧ s.readReg .pollTimeoutMs = s.regs.pollTimeoutMs ∧
    s.readReg .connTimeoutMs = s.regs.connTimeoutMs ∧ s.readReg .pollNextId = s.poll.nextId.setWidth 16 ∧
    s.readReg .pollDev = s.poll.dev.setWidth 16 ∧ s.readReg .pollTrim = s.poll.trim.setWidth 16 ∧
    s.readReg .pollBtn = s.poll.btn.setWidth 16 ∧
    ((s.readReg .pollCrc).extractLsb' 0 8 = s.poll.crcRx ∧ (s.readReg .pollCrc).extractLsb' 8 8 = s.poll.crcCalc) ∧
    s.readReg .debounceMs = s.regs.debounceMs ∧ s.readReg .heldThreshold = s.regs.heldThreshold.setWidth 16 ∧
    s.readReg .edgeThreshold = s.regs.edgeThreshold ∧
    (∀ b, s.readReg (.btnMean b) = s.regs.mean b ∧ s.readReg (.btnInterval b) = s.regs.interval b) ∧
    (s.regs.mean .b1 = s.regs.btnMean1 ∧ s.regs.mean .b2 = s.regs.btnMean2 ∧ s.regs.mean .b3 = s.regs.btnMean3 ∧
      s.regs.interval .b1 = s.regs.btnInterval1 ∧ s.regs.interval .b2 = s.regs.btnInterval2 ∧
      s.regs.interval .b3 = s.regs.btnInterval3) ∧
    ((s.readReg .bcStates).extractLsb' 0 2 = (s.btn.state .b1).code ∧
      (s.readReg .bcStates).extractLsb' 2 2 = (s.btn.state .b2).code ∧
      (s.readReg .bcStates).extractLsb' 4 2 = (s.btn.state .b3).code ∧ (s.readReg .bcStates).extractLsb' 6 10 = 0) ∧
    ((s.readReg .bcRun).extractLsb' 0 2 = buttonNumber s.btn.last ∧ (s.readReg .bcRun).extractLsb' 2 6 = 0 ∧
      (s.readReg .bcRun).extractLsb' 8 8 = s.btn.count) ∧
    s.readReg .bcDebounceLeft = s.btn.left ∧
    (∀ i b, Memory.read s.inBuf i = some b → s.readReg (.inBuf i) = b.setWidth 16) ∧
    ∀ i b, Memory.read s.outBuf i = some b → s.readReg (.outBuf i) = b.setWidth 16

/-- R25, R205: at an edge without reset DONE, RXOVR and WRLOST are set by what the block does, cleared by a 1 of a STATUS write
(DONE by an accepted CMD write too) unless the block sets them at the same edge, and keep their value otherwise. A STATUS write
changes nothing else: the edge is the same as without it, but for these three bits. -/
def Obligations.SetBeatsStatusClear : Prop :=
  (∀ s t : State, step s = .next t → s.ports.rst = false →
    let cleared (k : Nat) : Prop :=
      s.ports.regWe = true ∧ s.ports.regAddr = 0x01 ∧ s.ports.regWdata.getLsbD k = true
    let issued : Prop := s.status.busy = false ∧ s.ports.regWe = true ∧ s.ports.regAddr = 0x00
    (t.status.done = true ↔
      (s.status.busy = true ∧ t.status.busy = false) ∨ (s.status.done = true ∧ ¬cleared 5 ∧ ¬issued)) ∧
    (t.status.rxOvr = true ↔
      (s.ports.rxValid = true ∧ s.params.rxFifoDepth ≤ s.rxFifo.length) ∨ (s.status.rxOvr = true ∧ ¬cleared 6)) ∧
    (t.status.wrLost = true ↔
      (s.status.busy = true ∧ s.ports.regWe = true ∧ s.ports.regAddr ≠ 0x01) ∨
        (s.status.wrLost = true ∧ ¬cleared 7))) ∧
  ∀ (s u : State) (p : Ports) (rest : List Ports), s.script = p :: rest → p.rst = false → p.regWe = true →
    p.regAddr = 0x01 → step { s with script := { p with regWe := false } :: rest } = .next u →
    ∃ d o w, step s = .next { u with status := { u.status with done := d, rxOvr := o, wrLost := w } }

/-- R23: a write with BUSY = 0 to a register other than CMD and STATUS is performed at its edge. It stores the writable bits of
its register and ignores the others; every other register reads as before, and read-only and reserved ones keep their value.
That a buffer byte nothing has written reads the same before and after is the model's choice (log 8). -/
def Obligations.WriteStoresWritableBitsOnly : Prop :=
  (∀ (s : State) (r : RegName) (v : Reg16), r ≠ .cmd → r ≠ .status → legalParams s.params = true →
    (∀ m, writableMask s.params.adcWidth r = some m → (s.writeReg r v).readReg r = v &&& m) ∧
    (writableMask s.params.adcWidth r = none → s.writeReg r v = s) ∧
    ∀ q, q ≠ r → (s.writeReg r v).readReg q = s.readReg q) ∧
  ∀ s : State, legalParams s.params = true → s.ports.rst = false → s.status.busy = false → s.ports.regWe = true →
    let r := regAt s.ports.regAddr
    r ≠ .cmd → r ≠ .status →
    ∃ t, step s = .next t ∧ t = { s.beforeEngine.writeReg r s.ports.regWdata with script := s.script.tail } ∧
      (∀ m, writableMask s.params.adcWidth r = some m → t.readReg r = s.ports.regWdata &&& m) ∧
      ∀ q, q ≠ r ∨ writableMask s.params.adcWidth r = none → heldWhileBusy q → t.readReg q = s.readReg q

/-- R24, R25: a CMD write while BUSY is 0 makes the engine hold its opcode: BUSY set, DONE cleared, at most LAT_MAX edges to
go (the latency is a free value, log 4), BC_DEBOUNCE_LEFT captured for BTN_SAMPLE (log 6). That POLL_STEP too begins within
LAT_MAX edges is the model's choice (log 5). -/
def Obligations.CmdWriteIssuesTheCommand : Prop :=
  ∀ s : State, legalParams s.params = true → s.ports.rst = false → s.status.busy = false → s.ports.regWe = true →
    s.ports.regAddr = 0x00 →
    ∃ t, step s = .next t ∧ t.status.busy = true ∧ t.status.done = false ∧ t.status.result = s.status.result ∧
      t.engine.opcode = s.ports.regWdata.extractLsb' 0 8 ∧ 1 ≤ t.engine.latLeft ∧
      t.engine.latLeft ≤ s.params.latMax ∧ t.engine.debounceAtIssue = t.btn.left ∧
      t.regs = s.regs

/-- R240, R23: a write while BUSY, to anything but STATUS, is dropped: the edge is the same as without it, but that WRLOST
is set. -/
def Obligations.WriteWhileBusyIsDropped : Prop :=
  ∀ (s t : State) (p : Ports) (rest : List Ports), s.script = p :: rest → s.status.busy = true → p.rst = false →
    p.regWe = true → p.regAddr ≠ 0x01 →
    step { s with script := { p with regWe := false } :: rest } = .next t →
    step s = .next { t with status := { t.status with wrLost := true } }

/-- R68: a read has no side effect: where no write is made, the address and the data lines do not matter. -/
def Obligations.ReadsChangeNothing : Prop :=
  ∀ (s : State) (p : Ports) (rest : List Ports) (a : BitVec 7) (v : Reg16), p.regWe = false →
    step { s with script := { p with regAddr := a, regWdata := v } :: rest } = step { s with script := p :: rest }

/-- R72, R215, R241: at an edge at which a command runs on, and at one with BUSY = 0 without reset or an accepted write other
than to STATUS, RESULT is kept and every register but STATUS and BC_DEBOUNCE_LEFT reads as before. With BUSY = 0 all of the
state is kept but the flags, the FIFO, the two down-counters and the inputs still to come. That a buffer byte nothing has written
reads as before too is the model's choice (log 8). -/
def Obligations.ReadsWhileBusyShowOldValues : Prop :=
  ∀ s t : State, step s = .next t →
    let runsOn := s.status.busy = true ∧ t.status.busy = true
    let rests := s.ports.rst = false ∧ s.status.busy = false ∧ (s.ports.regWe = false ∨ s.ports.regAddr = 0x01)
    (runsOn ∨ rests → t.status.result = s.status.result ∧ ∀ r, heldWhileBusy r → t.readReg r = s.readReg r) ∧
    (rests → t = { s with
      status := { s.status with done := t.status.done, rxOvr := t.status.rxOvr, wrLost := t.status.wrLost }
      rxFifo := t.rxFifo
      poll := { s.poll with winLeft := t.poll.winLeft }
      btn := { s.btn with left := t.btn.left }
      script := s.script.tail })

/-- R21, R25, R231: BUSY rises only by a CMD write, and falls only with DONE set or by reset. -/
def Obligations.BusyChangesOnlyByCommandAndCompletion : Prop :=
  ∀ s t : State, step s = .next t →
    (s.status.busy = false → t.status.busy = true →
      s.ports.rst = false ∧ s.ports.regWe = true ∧ s.ports.regAddr = 0x00) ∧
    (s.status.busy = true → t.status.busy = false → s.ports.rst = true ∨ t.status.done = true)

/-- R49, R74: the FIFO is a queue: an edge without reset appends at most the arriving byte, drops it when full, and
removes at most the oldest entry or all. -/
def Obligations.FifoIsConsumedInArrivalOrder : Prop :=
  ∀ s t : State, step s = .next t → s.ports.rst = false →
    let l := if s.ports.rxValid = true ∧ s.rxFifo.length < s.params.rxFifoDepth
      then s.rxFifo ++ [{ data := s.ports.rxData, err := s.ports.rxErr }] else s.rxFifo
    (t.rxFifo = l ∨ t.rxFifo = l.tail ∨ t.rxFifo = []) ∧ (s.status.busy = false → t.rxFifo = l) ∧
    (s.ports.rxValid = true → s.params.rxFifoDepth ≤ s.rxFifo.length → s.ports.regWe = false → t.status.rxOvr = true)

/-- R47, R211: at every edge without reset, whether or not a command is running, a Tick takes one from each down-counter that is
not 0, and without a Tick both stand. The exceptions are the loads: of BC_DEBOUNCE_LEFT by a BTN_SAMPLE, of WIN_LEFT where the
engine enters WAIT_ID or WAIT_DATA. That WIN_LEFT counts outside the windows too is the model's reading (log 10). -/
def Obligations.TicksCountDown : Prop :=
  ∀ s t : State, step s = .next t → s.ports.rst = false →
    let down (v : Reg16) : Nat := if s.ports.tickMs = true then v.toNat - 1 else v.toNat
    (¬(s.status.busy = true ∧ s.beforeEngine.fetch = .btnSample) → t.btn.left.toNat = down s.btn.left) ∧
    (t.btn.left.toNat = down s.btn.left ∨ (t.status.busy = false ∧ t.btn.left = s.regs.debounceMs)) ∧
    t.poll.winLeft.toNat =
      if s.poll.bpe = .tx ∧ t.poll.bpe = .waitId then s.regs.pollTimeoutMs.toNat
      else if s.poll.bpe = .waitId ∧ t.poll.bpe = .waitData then s.regs.connTimeoutMs.toNat
      else down s.poll.winLeft

/-- R52, R72: no command changes a register the host writes, IN_BUF, or a STATUS flag other than BUSY, DONE and RESULT. -/
def Obligations.CommandsLeaveHostStateAlone : Prop :=
  ∀ (i : Instr) (s t : State), exec i s = .next t →
    t.regs = s.regs ∧ (∀ a, Memory.read t.inBuf a = Memory.read s.inBuf a) ∧ t.inBuf = s.inBuf ∧
    t.status.rxOvr = s.status.rxOvr ∧ t.status.wrLost = s.status.wrLost ∧ t.engine = s.engine ∧
    t.params = s.params ∧ t.script = s.script ∧ t.resets = s.resets ∧ t.issued = s.issued

/-! ### 70_reset_and_hazards.md and the machine as a whole -/

/-- R230, R53: an edge with `rst` resets every field, whatever else is presented; the parameters stay. -/
def Obligations.ResetEdgeRestoresEveryField : Prop :=
  ∀ s : State, legalParams s.params = true → s.ports.rst = true →
    ∃ t, step s = .next t ∧
      t.statusWord = 0 ∧ t.regs.irqEn = false ∧ t.regs.chkMark = false ∧ t.regs.argN = 0 ∧ t.resN = 0 ∧
      t.regs.argByte = 0 ∧ t.resByte = 0 ∧ t.regs.argSample = 0 ∧ t.regs.terminalCount = s.params.terminalCount ∧
      t.regs.pollTimeoutMs = 30 ∧ t.regs.connTimeoutMs = 100 ∧ t.poll.nextId = 0 ∧ t.poll.dev = 0 ∧ t.poll.trim = 0 ∧
      t.poll.btn = 0 ∧ t.poll.crcRx = 0 ∧ t.poll.crcCalc = 0 ∧ t.regs.debounceMs = 200 ∧ t.regs.heldThreshold = 5 ∧
      t.regs.edgeThreshold = s.params.edgeThreshold ∧ t.regs.btnMean1 = s.params.btnMean1 ∧
      t.regs.btnMean2 = s.params.btnMean2 ∧ t.regs.btnMean3 = s.params.btnMean3 ∧
      t.regs.btnInterval1 = s.params.btnInterval1 ∧ t.regs.btnInterval2 = s.params.btnInterval2 ∧
      t.regs.btnInterval3 = s.params.btnInterval3 ∧ (∀ b, t.btn.state b = .idle) ∧ t.btn.last = none ∧
      t.btn.count = 0 ∧ t.btn.left = 0 ∧ t.rxFifo = [] ∧ t.poll.winLeft = 0 ∧ t.poll.dataCnt = 0 ∧
      t.poll.frame = { b0 := 0, b1 := 0, b2 := 0, b3 := 0 } ∧ t.txOffer = none ∧ t.irq = false ∧ t.params = s.params

/-- R242: every command but POLL_STEP completes within LAT_MAX edges of its issue edge, if no reset comes and the IN_BUF
bytes it reads have been written. The latency is a free value (log 4). -/
def Obligations.CommandsCompleteWithinLatMax : Prop :=
  ∀ s : State, Inv s → s.status.busy = true → s.engine.opcode ≠ pollStepOpcode →
    (∀ k, k < s.params.latMax → (s.script.getD k idlePorts).rst = false) → operandsWritten s →
    ∃ k t, 1 ≤ k ∧ k ≤ s.params.latMax ∧ runs k s = .next t ∧ t.status.busy = false ∧ t.status.done = true

/-- The state after reset is a sound state of the block, for all legal parameters. The parameters of `State.reset` and the values
of the hidden fields are the model's choice (log 1, log 13). -/
def Obligations.ResetStateIsSound : Prop :=
  (∀ p, legalParams p = true → Inv (State.resetWith p)) ∧ Inv State.reset

/-- Every step keeps a sound state sound: buffers canonical, FIFO within its depth, BUSY and DONE exclusive, phases only in a
POLL_STEP, the polled id below TERMINAL_COUNT, DATA_CNT, ARG_SAMPLE, latency, run and debounce in range. The latency clause is
the model's choice (log 4, for POLL_STEP log 5), and the debounce clause rests on the model's reading of the issue edge (log 6). -/
def Obligations.EveryStepKeepsTheStateSound : Prop :=
  ∀ s t : State, Inv s → step s = .next t → Inv t

/-- A step runs the instruction the engine works on, on the state after the arrival and the Tick, and ends the edge with the
host access. -/
def Obligations.StepRunsTheFetchedInstruction : Prop :=
  ∀ s : State, legalParams s.params = true → s.ports.rst = false → s.status.busy = true → s.engine.latLeft ≤ 1 →
    (∀ u, exec s.beforeEngine.fetch s.beforeEngine = .next u → step s = .next (s.finishEdge u)) ∧
    (∀ r, exec s.beforeEngine.fetch s.beforeEngine = .refused r → step s = .refused r)

/-- A CMD word placed for the engine is run by the very next step, and the decoder names the instruction. The placing is the
model's (log 3). -/
def Obligations.PlacedCommandRunsNext : Prop :=
  ∀ (s u : State) (w : Nat), legalParams s.params = true →
    exec (decodeCmd (BitVec.ofNat 16 w)) (s.withFetchWord 16 w) = .next u →
    step (s.withFetchWord 16 w) = .next { u with script := s.script }
end

