-- ==== Sys2Proof/Laws/State.lean ====
section
/-! SUPPORT. One lemma per field of State for each update of it, so that no later proof unfolds a record update. -/

namespace Sys2Proof.Machine

/-! ### raise Result -/

@[simp] theorem State.raiseResult_regs (s : State) (c : Result) : (s.raiseResult c).regs = s.regs := rfl
@[simp] theorem State.raiseResult_resN (s : State) (c : Result) : (s.raiseResult c).resN = s.resN := rfl
@[simp] theorem State.raiseResult_resByte (s : State) (c : Result) : (s.raiseResult c).resByte = s.resByte := rfl
@[simp] theorem State.raiseResult_poll (s : State) (c : Result) : (s.raiseResult c).poll = s.poll := rfl
@[simp] theorem State.raiseResult_btn (s : State) (c : Result) : (s.raiseResult c).btn = s.btn := rfl
@[simp] theorem State.raiseResult_engine (s : State) (c : Result) : (s.raiseResult c).engine = s.engine := rfl
@[simp] theorem State.raiseResult_inBuf (s : State) (c : Result) : (s.raiseResult c).inBuf = s.inBuf := rfl
@[simp] theorem State.raiseResult_outBuf (s : State) (c : Result) : (s.raiseResult c).outBuf = s.outBuf := rfl
@[simp] theorem State.raiseResult_rxFifo (s : State) (c : Result) : (s.raiseResult c).rxFifo = s.rxFifo := rfl
@[simp] theorem State.raiseResult_params (s : State) (c : Result) : (s.raiseResult c).params = s.params := rfl
@[simp] theorem State.raiseResult_script (s : State) (c : Result) : (s.raiseResult c).script = s.script := rfl
@[simp] theorem State.raiseResult_resets (s : State) (c : Result) : (s.raiseResult c).resets = s.resets := rfl
@[simp] theorem State.raiseResult_issued (s : State) (c : Result) : (s.raiseResult c).issued = s.issued := rfl
@[simp] theorem State.raiseResult_status (s : State) (c : Result) :
    (s.raiseResult c).status = { s.status with busy := false, done := true, result := c } := rfl

/-! ### The acknowledgement -/

@[simp] theorem State.acknowledge_regs (s : State) : (s.acknowledge).regs = s.regs := rfl
@[simp] theorem State.acknowledge_resN (s : State) : (s.acknowledge).resN = s.resN := rfl
@[simp] theorem State.acknowledge_resByte (s : State) : (s.acknowledge).resByte = s.resByte := rfl
@[simp] theorem State.acknowledge_poll (s : State) : (s.acknowledge).poll = s.poll := rfl
@[simp] theorem State.acknowledge_btn (s : State) : (s.acknowledge).btn = s.btn := rfl
@[simp] theorem State.acknowledge_engine (s : State) : (s.acknowledge).engine = s.engine := rfl
@[simp] theorem State.acknowledge_inBuf (s : State) : (s.acknowledge).inBuf = s.inBuf := rfl
@[simp] theorem State.acknowledge_outBuf (s : State) : (s.acknowledge).outBuf = s.outBuf := rfl
@[simp] theorem State.acknowledge_rxFifo (s : State) : (s.acknowledge).rxFifo = s.rxFifo := rfl
@[simp] theorem State.acknowledge_params (s : State) : (s.acknowledge).params = s.params := rfl
@[simp] theorem State.acknowledge_script (s : State) : (s.acknowledge).script = s.script := rfl
@[simp] theorem State.acknowledge_resets (s : State) : (s.acknowledge).resets = s.resets := rfl
@[simp] theorem State.acknowledge_issued (s : State) : (s.acknowledge).issued = s.issued := rfl
@[simp] theorem State.acknowledge_status (s : State) : s.acknowledge.status = { s.status with done := false } := rfl

/-! ### RxFlush -/

@[simp] theorem State.flushRx_status (s : State) : (s.flushRx).status = s.status := rfl
@[simp] theorem State.flushRx_regs (s : State) : (s.flushRx).regs = s.regs := rfl
@[simp] theorem State.flushRx_resN (s : State) : (s.flushRx).resN = s.resN := rfl
@[simp] theorem State.flushRx_resByte (s : State) : (s.flushRx).resByte = s.resByte := rfl
@[simp] theorem State.flushRx_poll (s : State) : (s.flushRx).poll = s.poll := rfl
@[simp] theorem State.flushRx_btn (s : State) : (s.flushRx).btn = s.btn := rfl
@[simp] theorem State.flushRx_engine (s : State) : (s.flushRx).engine = s.engine := rfl
@[simp] theorem State.flushRx_inBuf (s : State) : (s.flushRx).inBuf = s.inBuf := rfl
@[simp] theorem State.flushRx_outBuf (s : State) : (s.flushRx).outBuf = s.outBuf := rfl
@[simp] theorem State.flushRx_params (s : State) : (s.flushRx).params = s.params := rfl
@[simp] theorem State.flushRx_script (s : State) : (s.flushRx).script = s.script := rfl
@[simp] theorem State.flushRx_resets (s : State) : (s.flushRx).resets = s.resets := rfl
@[simp] theorem State.flushRx_issued (s : State) : (s.flushRx).issued = s.issued := rfl
@[simp] theorem State.flushRx_rxFifo (s : State) : s.flushRx.rxFifo = [] := rfl

/-! ### RxPop -/

@[simp] theorem State.popRx_status (s : State) : (s.popRx).status = s.status := rfl
@[simp] theorem State.popRx_regs (s : State) : (s.popRx).regs = s.regs := rfl
@[simp] theorem State.popRx_resN (s : State) : (s.popRx).resN = s.resN := rfl
@[simp] theorem State.popRx_resByte (s : State) : (s.popRx).resByte = s.resByte := rfl
@[simp] theorem State.popRx_poll (s : State) : (s.popRx).poll = s.poll := rfl
@[simp] theorem State.popRx_btn (s : State) : (s.popRx).btn = s.btn := rfl
@[simp] theorem State.popRx_engine (s : State) : (s.popRx).engine = s.engine := rfl
@[simp] theorem State.popRx_inBuf (s : State) : (s.popRx).inBuf = s.inBuf := rfl
@[simp] theorem State.popRx_outBuf (s : State) : (s.popRx).outBuf = s.outBuf := rfl
@[simp] theorem State.popRx_params (s : State) : (s.popRx).params = s.params := rfl
@[simp] theorem State.popRx_script (s : State) : (s.popRx).script = s.script := rfl
@[simp] theorem State.popRx_resets (s : State) : (s.popRx).resets = s.resets := rfl
@[simp] theorem State.popRx_issued (s : State) : (s.popRx).issued = s.issued := rfl
@[simp] theorem State.popRx_rxFifo (s : State) : s.popRx.rxFifo = s.rxFifo.tail := rfl

/-! ### A write to STATUS -/

@[simp] theorem State.writeStatus_regs (s : State) (v : Reg16) (d o : Bool) : (s.writeStatus v d o).regs = s.regs := rfl
@[simp] theorem State.writeStatus_resN (s : State) (v : Reg16) (d o : Bool) : (s.writeStatus v d o).resN = s.resN := rfl
@[simp] theorem State.writeStatus_resByte (s : State) (v : Reg16) (d o : Bool) : (s.writeStatus v d o).resByte = s.resByte := rfl
@[simp] theorem State.writeStatus_poll (s : State) (v : Reg16) (d o : Bool) : (s.writeStatus v d o).poll = s.poll := rfl
@[simp] theorem State.writeStatus_btn (s : State) (v : Reg16) (d o : Bool) : (s.writeStatus v d o).btn = s.btn := rfl
@[simp] theorem State.writeStatus_engine (s : State) (v : Reg16) (d o : Bool) : (s.writeStatus v d o).engine = s.engine := rfl
@[simp] theorem State.writeStatus_inBuf (s : State) (v : Reg16) (d o : Bool) : (s.writeStatus v d o).inBuf = s.inBuf := rfl
@[simp] theorem State.writeStatus_outBuf (s : State) (v : Reg16) (d o : Bool) : (s.writeStatus v d o).outBuf = s.outBuf := rfl
@[simp] theorem State.writeStatus_rxFifo (s : State) (v : Reg16) (d o : Bool) : (s.writeStatus v d o).rxFifo = s.rxFifo := rfl
@[simp] theorem State.writeStatus_params (s : State) (v : Reg16) (d o : Bool) : (s.writeStatus v d o).params = s.params := rfl
@[simp] theorem State.writeStatus_script (s : State) (v : Reg16) (d o : Bool) : (s.writeStatus v d o).script = s.script := rfl
@[simp] theorem State.writeStatus_resets (s : State) (v : Reg16) (d o : Bool) : (s.writeStatus v d o).resets = s.resets := rfl
@[simp] theorem State.writeStatus_issued (s : State) (v : Reg16) (d o : Bool) : (s.writeStatus v d o).issued = s.issued := rfl
@[simp] theorem State.writeStatus_busy (s : State) (v : Reg16) (d o : Bool) :
    (s.writeStatus v d o).status.busy = s.status.busy := rfl
@[simp] theorem State.writeStatus_result (s : State) (v : Reg16) (d o : Bool) :
    (s.writeStatus v d o).status.result = s.status.result := rfl
@[simp] theorem State.writeStatus_done (s : State) (v : Reg16) (d o : Bool) :
    (s.writeStatus v d o).status.done = (s.status.done && (!v.getLsbD 5 || d)) := rfl
@[simp] theorem State.writeStatus_rxOvr (s : State) (v : Reg16) (d o : Bool) :
    (s.writeStatus v d o).status.rxOvr = (s.status.rxOvr && (!v.getLsbD 6 || o)) := rfl
@[simp] theorem State.writeStatus_wrLost (s : State) (v : Reg16) (d o : Bool) :
    (s.writeStatus v d o).status.wrLost = (s.status.wrLost && !v.getLsbD 7) := rfl

/-! ### The engine takes a command -/

@[simp] theorem State.beginCommand_regs (s : State) (w : Reg16) (l : Nat) : (s.beginCommand w l).regs = s.regs := rfl
@[simp] theorem State.beginCommand_resN (s : State) (w : Reg16) (l : Nat) : (s.beginCommand w l).resN = s.resN := rfl
@[simp] theorem State.beginCommand_resByte (s : State) (w : Reg16) (l : Nat) : (s.beginCommand w l).resByte = s.resByte := rfl
@[simp] theorem State.beginCommand_poll (s : State) (w : Reg16) (l : Nat) : (s.beginCommand w l).poll = s.poll := rfl
@[simp] theorem State.beginCommand_btn (s : State) (w : Reg16) (l : Nat) : (s.beginCommand w l).btn = s.btn := rfl
@[simp] theorem State.beginCommand_inBuf (s : State) (w : Reg16) (l : Nat) : (s.beginCommand w l).inBuf = s.inBuf := rfl
@[simp] theorem State.beginCommand_outBuf (s : State) (w : Reg16) (l : Nat) : (s.beginCommand w l).outBuf = s.outBuf := rfl
@[simp] theorem State.beginCommand_rxFifo (s : State) (w : Reg16) (l : Nat) : (s.beginCommand w l).rxFifo = s.rxFifo := rfl
@[simp] theorem State.beginCommand_params (s : State) (w : Reg16) (l : Nat) : (s.beginCommand w l).params = s.params := rfl
@[simp] theorem State.beginCommand_script (s : State) (w : Reg16) (l : Nat) : (s.beginCommand w l).script = s.script := rfl
@[simp] theorem State.beginCommand_resets (s : State) (w : Reg16) (l : Nat) : (s.beginCommand w l).resets = s.resets := rfl
@[simp] theorem State.beginCommand_issued (s : State) (w : Reg16) (l : Nat) : (s.beginCommand w l).issued = s.issued := rfl
@[simp] theorem State.beginCommand_status (s : State) (w : Reg16) (l : Nat) :
    (s.beginCommand w l).status = { s.status with busy := true, done := false } := rfl
@[simp] theorem State.beginCommand_engine (s : State) (w : Reg16) (l : Nat) :
    (s.beginCommand w l).engine =
      { opcode := w.extractLsb' 0 8, latLeft := l, debounceAtIssue := s.btn.left } := rfl

/-! ### An arrival -/

@[simp] theorem State.pushRx_regs (s : State) (e : RxEntry) : (s.pushRx e).regs = s.regs := by
  unfold State.pushRx; split <;> rfl
@[simp] theorem State.pushRx_resN (s : State) (e : RxEntry) : (s.pushRx e).resN = s.resN := by
  unfold State.pushRx; split <;> rfl
@[simp] theorem State.pushRx_resByte (s : State) (e : RxEntry) : (s.pushRx e).resByte = s.resByte := by
  unfold State.pushRx; split <;> rfl
@[simp] theorem State.pushRx_poll (s : State) (e : RxEntry) : (s.pushRx e).poll = s.poll := by
  unfold State.pushRx; split <;> rfl
@[simp] theorem State.pushRx_btn (s : State) (e : RxEntry) : (s.pushRx e).btn = s.btn := by
  unfold State.pushRx; split <;> rfl
@[simp] theorem State.pushRx_engine (s : State) (e : RxEntry) : (s.pushRx e).engine = s.engine := by
  unfold State.pushRx; split <;> rfl
@[simp] theorem State.pushRx_inBuf (s : State) (e : RxEntry) : (s.pushRx e).inBuf = s.inBuf := by
  unfold State.pushRx; split <;> rfl
@[simp] theorem State.pushRx_outBuf (s : State) (e : RxEntry) : (s.pushRx e).outBuf = s.outBuf := by
  unfold State.pushRx; split <;> rfl
@[simp] theorem State.pushRx_params (s : State) (e : RxEntry) : (s.pushRx e).params = s.params := by
  unfold State.pushRx; split <;> rfl
@[simp] theorem State.pushRx_script (s : State) (e : RxEntry) : (s.pushRx e).script = s.script := by
  unfold State.pushRx; split <;> rfl
@[simp] theorem State.pushRx_resets (s : State) (e : RxEntry) : (s.pushRx e).resets = s.resets := by
  unfold State.pushRx; split <;> rfl
@[simp] theorem State.pushRx_issued (s : State) (e : RxEntry) : (s.pushRx e).issued = s.issued := by
  unfold State.pushRx; split <;> rfl
@[simp] theorem State.arrive_regs (s : State) (p : Ports) : (s.arrive p).regs = s.regs := by
  unfold State.arrive; split <;> simp
@[simp] theorem State.arrive_resN (s : State) (p : Ports) : (s.arrive p).resN = s.resN := by
  unfold State.arrive; split <;> simp
@[simp] theorem State.arrive_resByte (s : State) (p : Ports) : (s.arrive p).resByte = s.resByte := by
  unfold State.arrive; split <;> simp
@[simp] theorem State.arrive_poll (s : State) (p : Ports) : (s.arrive p).poll = s.poll := by
  unfold State.arrive; split <;> simp
@[simp] theorem State.arrive_btn (s : State) (p : Ports) : (s.arrive p).btn = s.btn := by
  unfold State.arrive; split <;> simp
@[simp] theorem State.arrive_engine (s : State) (p : Ports) : (s.arrive p).engine = s.engine := by
  unfold State.arrive; split <;> simp
@[simp] theorem State.arrive_inBuf (s : State) (p : Ports) : (s.arrive p).inBuf = s.inBuf := by
  unfold State.arrive; split <;> simp
@[simp] theorem State.arrive_outBuf (s : State) (p : Ports) : (s.arrive p).outBuf = s.outBuf := by
  unfold State.arrive; split <;> simp
@[simp] theorem State.arrive_params (s : State) (p : Ports) : (s.arrive p).params = s.params := by
  unfold State.arrive; split <;> simp
@[simp] theorem State.arrive_script (s : State) (p : Ports) : (s.arrive p).script = s.script := by
  unfold State.arrive; split <;> simp
@[simp] theorem State.arrive_resets (s : State) (p : Ports) : (s.arrive p).resets = s.resets := by
  unfold State.arrive; split <;> simp
@[simp] theorem State.arrive_issued (s : State) (p : Ports) : (s.arrive p).issued = s.issued := by
  unfold State.arrive; split <;> simp
@[simp] theorem State.arrive_status_busy (s : State) (p : Ports) : (s.arrive p).status.busy = s.status.busy := by
  unfold State.arrive State.pushRx; split <;> (try split) <;> rfl
@[simp] theorem State.arrive_status_done (s : State) (p : Ports) : (s.arrive p).status.done = s.status.done := by
  unfold State.arrive State.pushRx; split <;> (try split) <;> rfl
@[simp] theorem State.arrive_status_result (s : State) (p : Ports) : (s.arrive p).status.result = s.status.result := by
  unfold State.arrive State.pushRx; split <;> (try split) <;> rfl
@[simp] theorem State.arrive_status_wrLost (s : State) (p : Ports) : (s.arrive p).status.wrLost = s.status.wrLost := by
  unfold State.arrive State.pushRx; split <;> (try split) <;> rfl

/-! ### A Tick -/

@[simp] theorem State.tick_status (s : State) (p : Ports) : (s.tick p).status = s.status := by
  unfold State.tick; split <;> rfl
@[simp] theorem State.tick_regs (s : State) (p : Ports) : (s.tick p).regs = s.regs := by
  unfold State.tick; split <;> rfl
@[simp] theorem State.tick_resN (s : State) (p : Ports) : (s.tick p).resN = s.resN := by
  unfold State.tick; split <;> rfl
@[simp] theorem State.tick_resByte (s : State) (p : Ports) : (s.tick p).resByte = s.resByte := by
  unfold State.tick; split <;> rfl
@[simp] theorem State.tick_engine (s : State) (p : Ports) : (s.tick p).engine = s.engine := by
  unfold State.tick; split <;> rfl
@[simp] theorem State.tick_inBuf (s : State) (p : Ports) : (s.tick p).inBuf = s.inBuf := by
  unfold State.tick; split <;> rfl
@[simp] theorem State.tick_outBuf (s : State) (p : Ports) : (s.tick p).outBuf = s.outBuf := by
  unfold State.tick; split <;> rfl
@[simp] theorem State.tick_rxFifo (s : State) (p : Ports) : (s.tick p).rxFifo = s.rxFifo := by
  unfold State.tick; split <;> rfl
@[simp] theorem State.tick_params (s : State) (p : Ports) : (s.tick p).params = s.params := by
  unfold State.tick; split <;> rfl
@[simp] theorem State.tick_script (s : State) (p : Ports) : (s.tick p).script = s.script := by
  unfold State.tick; split <;> rfl
@[simp] theorem State.tick_resets (s : State) (p : Ports) : (s.tick p).resets = s.resets := by
  unfold State.tick; split <;> rfl
@[simp] theorem State.tick_issued (s : State) (p : Ports) : (s.tick p).issued = s.issued := by
  unfold State.tick; split <;> rfl
@[simp] theorem State.tick_poll_bpe (s : State) (p : Ports) : (s.tick p).poll.bpe = s.poll.bpe := by
  unfold State.tick; split <;> rfl
@[simp] theorem State.tick_poll_nextId (s : State) (p : Ports) : (s.tick p).poll.nextId = s.poll.nextId := by
  unfold State.tick; split <;> rfl
@[simp] theorem State.tick_poll_dev (s : State) (p : Ports) : (s.tick p).poll.dev = s.poll.dev := by
  unfold State.tick; split <;> rfl
@[simp] theorem State.tick_poll_trim (s : State) (p : Ports) : (s.tick p).poll.trim = s.poll.trim := by
  unfold State.tick; split <;> rfl
@[simp] theorem State.tick_poll_btn (s : State) (p : Ports) : (s.tick p).poll.btn = s.poll.btn := by
  unfold State.tick; split <;> rfl
@[simp] theorem State.tick_poll_crcRx (s : State) (p : Ports) : (s.tick p).poll.crcRx = s.poll.crcRx := by
  unfold State.tick; split <;> rfl
@[simp] theorem State.tick_poll_crcCalc (s : State) (p : Ports) : (s.tick p).poll.crcCalc = s.poll.crcCalc := by
  unfold State.tick; split <;> rfl
@[simp] theorem State.tick_poll_dataCnt (s : State) (p : Ports) : (s.tick p).poll.dataCnt = s.poll.dataCnt := by
  unfold State.tick; split <;> rfl
@[simp] theorem State.tick_poll_frame (s : State) (p : Ports) : (s.tick p).poll.frame = s.poll.frame := by
  unfold State.tick; split <;> rfl
@[simp] theorem State.tick_poll_callId (s : State) (p : Ports) : (s.tick p).poll.callId = s.poll.callId := by
  unfold State.tick; split <;> rfl
@[simp] theorem State.tick_poll_txTaken (s : State) (p : Ports) : (s.tick p).poll.txTaken = s.poll.txTaken := by
  unfold State.tick; split <;> rfl
@[simp] theorem State.tick_btn_st1 (s : State) (p : Ports) : (s.tick p).btn.st1 = s.btn.st1 := by
  unfold State.tick; split <;> rfl
@[simp] theorem State.tick_btn_st2 (s : State) (p : Ports) : (s.tick p).btn.st2 = s.btn.st2 := by
  unfold State.tick; split <;> rfl
@[simp] theorem State.tick_btn_st3 (s : State) (p : Ports) : (s.tick p).btn.st3 = s.btn.st3 := by
  unfold State.tick; split <;> rfl
@[simp] theorem State.tick_btn_last (s : State) (p : Ports) : (s.tick p).btn.last = s.btn.last := by
  unfold State.tick; split <;> rfl
@[simp] theorem State.tick_btn_count (s : State) (p : Ports) : (s.tick p).btn.count = s.btn.count := by
  unfold State.tick; split <;> rfl

/-! ### The engine's state at an edge: after the arrival and the Tick -/

@[simp] theorem State.beforeEngine_regs (s : State) : s.beforeEngine.regs = s.regs := by
  simp [State.beforeEngine]
@[simp] theorem State.beforeEngine_resN (s : State) : s.beforeEngine.resN = s.resN := by
  simp [State.beforeEngine]
@[simp] theorem State.beforeEngine_resByte (s : State) : s.beforeEngine.resByte = s.resByte := by
  simp [State.beforeEngine]
@[simp] theorem State.beforeEngine_engine (s : State) : s.beforeEngine.engine = s.engine := by
  simp [State.beforeEngine]
@[simp] theorem State.beforeEngine_inBuf (s : State) : s.beforeEngine.inBuf = s.inBuf := by
  simp [State.beforeEngine]
@[simp] theorem State.beforeEngine_outBuf (s : State) : s.beforeEngine.outBuf = s.outBuf := by
  simp [State.beforeEngine]
@[simp] theorem State.beforeEngine_params (s : State) : s.beforeEngine.params = s.params := by
  simp [State.beforeEngine]
@[simp] theorem State.beforeEngine_script (s : State) : s.beforeEngine.script = s.script := by
  simp [State.beforeEngine]
@[simp] theorem State.beforeEngine_resets (s : State) : s.beforeEngine.resets = s.resets := by
  simp [State.beforeEngine]
@[simp] theorem State.beforeEngine_issued (s : State) : s.beforeEngine.issued = s.issued := by
  simp [State.beforeEngine]
@[simp] theorem State.beforeEngine_status_busy (s : State) : s.beforeEngine.status.busy = s.status.busy := by
  simp [State.beforeEngine]
@[simp] theorem State.beforeEngine_status_done (s : State) : s.beforeEngine.status.done = s.status.done := by
  simp [State.beforeEngine]
@[simp] theorem State.beforeEngine_status_result (s : State) : s.beforeEngine.status.result = s.status.result := by
  simp [State.beforeEngine]
@[simp] theorem State.beforeEngine_status_wrLost (s : State) : s.beforeEngine.status.wrLost = s.status.wrLost := by
  simp [State.beforeEngine]
@[simp] theorem State.beforeEngine_poll_bpe (s : State) : s.beforeEngine.poll.bpe = s.poll.bpe := by
  simp [State.beforeEngine]
@[simp] theorem State.beforeEngine_poll_nextId (s : State) : s.beforeEngine.poll.nextId = s.poll.nextId := by
  simp [State.beforeEngine]
@[simp] theorem State.beforeEngine_poll_dev (s : State) : s.beforeEngine.poll.dev = s.poll.dev := by
  simp [State.beforeEngine]
@[simp] theorem State.beforeEngine_poll_trim (s : State) : s.beforeEngine.poll.trim = s.poll.trim := by
  simp [State.beforeEngine]
@[simp] theorem State.beforeEngine_poll_btn (s : State) : s.beforeEngine.poll.btn = s.poll.btn := by
  simp [State.beforeEngine]
@[simp] theorem State.beforeEngine_poll_crcRx (s : State) : s.beforeEngine.poll.crcRx = s.poll.crcRx := by
  simp [State.beforeEngine]
@[simp] theorem State.beforeEngine_poll_crcCalc (s : State) : s.beforeEngine.poll.crcCalc = s.poll.crcCalc := by
  simp [State.beforeEngine]
@[simp] theorem State.beforeEngine_poll_dataCnt (s : State) : s.beforeEngine.poll.dataCnt = s.poll.dataCnt := by
  simp [State.beforeEngine]
@[simp] theorem State.beforeEngine_poll_frame (s : State) : s.beforeEngine.poll.frame = s.poll.frame := by
  simp [State.beforeEngine]
@[simp] theorem State.beforeEngine_poll_callId (s : State) : s.beforeEngine.poll.callId = s.poll.callId := by
  simp [State.beforeEngine]
@[simp] theorem State.beforeEngine_poll_txTaken (s : State) : s.beforeEngine.poll.txTaken = s.poll.txTaken := by
  simp [State.beforeEngine]
@[simp] theorem State.beforeEngine_btn_st1 (s : State) : s.beforeEngine.btn.st1 = s.btn.st1 := by
  simp [State.beforeEngine]
@[simp] theorem State.beforeEngine_btn_st2 (s : State) : s.beforeEngine.btn.st2 = s.btn.st2 := by
  simp [State.beforeEngine]
@[simp] theorem State.beforeEngine_btn_st3 (s : State) : s.beforeEngine.btn.st3 = s.btn.st3 := by
  simp [State.beforeEngine]
@[simp] theorem State.beforeEngine_btn_last (s : State) : s.beforeEngine.btn.last = s.btn.last := by
  simp [State.beforeEngine]
@[simp] theorem State.beforeEngine_btn_count (s : State) : s.beforeEngine.btn.count = s.btn.count := by
  simp [State.beforeEngine]
@[simp] theorem State.beforeEngine_ports (s : State) : s.beforeEngine.ports = s.ports := by
  simp [State.ports]

/-! ### The end of an edge -/

@[simp] theorem State.finishEdge_script (s t : State) : (s.finishEdge t).script = s.script.tail := rfl
@[simp] theorem State.writeReg_resN (s : State) (r : RegName) (v : Reg16) : (s.writeReg r v).resN = s.resN := by
  cases r <;> rfl
@[simp] theorem State.writeReg_resByte (s : State) (r : RegName) (v : Reg16) : (s.writeReg r v).resByte = s.resByte := by
  cases r <;> rfl
@[simp] theorem State.writeReg_poll (s : State) (r : RegName) (v : Reg16) : (s.writeReg r v).poll = s.poll := by
  cases r <;> rfl
@[simp] theorem State.writeReg_btn (s : State) (r : RegName) (v : Reg16) : (s.writeReg r v).btn = s.btn := by
  cases r <;> rfl
@[simp] theorem State.writeReg_outBuf (s : State) (r : RegName) (v : Reg16) : (s.writeReg r v).outBuf = s.outBuf := by
  cases r <;> rfl
@[simp] theorem State.writeReg_rxFifo (s : State) (r : RegName) (v : Reg16) : (s.writeReg r v).rxFifo = s.rxFifo := by
  cases r <;> rfl
@[simp] theorem State.writeReg_params (s : State) (r : RegName) (v : Reg16) : (s.writeReg r v).params = s.params := by
  cases r <;> rfl
@[simp] theorem State.writeReg_resets (s : State) (r : RegName) (v : Reg16) : (s.writeReg r v).resets = s.resets := by
  cases r <;> rfl
@[simp] theorem State.hostAccess_resN (s : State) (p : Ports) (b d o : Bool) :
    (s.hostAccess p b d o).resN = s.resN := by
  unfold State.hostAccess; (repeat' split) <;> simp
@[simp] theorem State.hostAccess_resByte (s : State) (p : Ports) (b d o : Bool) :
    (s.hostAccess p b d o).resByte = s.resByte := by
  unfold State.hostAccess; (repeat' split) <;> simp
@[simp] theorem State.hostAccess_poll (s : State) (p : Ports) (b d o : Bool) :
    (s.hostAccess p b d o).poll = s.poll := by
  unfold State.hostAccess; (repeat' split) <;> simp
@[simp] theorem State.hostAccess_btn (s : State) (p : Ports) (b d o : Bool) :
    (s.hostAccess p b d o).btn = s.btn := by
  unfold State.hostAccess; (repeat' split) <;> simp
@[simp] theorem State.hostAccess_outBuf (s : State) (p : Ports) (b d o : Bool) :
    (s.hostAccess p b d o).outBuf = s.outBuf := by
  unfold State.hostAccess; (repeat' split) <;> simp
@[simp] theorem State.hostAccess_rxFifo (s : State) (p : Ports) (b d o : Bool) :
    (s.hostAccess p b d o).rxFifo = s.rxFifo := by
  unfold State.hostAccess; (repeat' split) <;> simp
@[simp] theorem State.hostAccess_params (s : State) (p : Ports) (b d o : Bool) :
    (s.hostAccess p b d o).params = s.params := by
  unfold State.hostAccess; (repeat' split) <;> simp
@[simp] theorem State.hostAccess_resets (s : State) (p : Ports) (b d o : Bool) :
    (s.hostAccess p b d o).resets = s.resets := by
  unfold State.hostAccess; (repeat' split) <;> simp
@[simp] theorem State.finishEdge_resN (s t : State) : (s.finishEdge t).resN = t.resN := by
  simp [State.finishEdge]
@[simp] theorem State.finishEdge_resByte (s t : State) : (s.finishEdge t).resByte = t.resByte := by
  simp [State.finishEdge]
@[simp] theorem State.finishEdge_poll (s t : State) : (s.finishEdge t).poll = t.poll := by
  simp [State.finishEdge]
@[simp] theorem State.finishEdge_btn (s t : State) : (s.finishEdge t).btn = t.btn := by
  simp [State.finishEdge]
@[simp] theorem State.finishEdge_outBuf (s t : State) : (s.finishEdge t).outBuf = t.outBuf := by
  simp [State.finishEdge]
@[simp] theorem State.finishEdge_rxFifo (s t : State) : (s.finishEdge t).rxFifo = t.rxFifo := by
  simp [State.finishEdge]
@[simp] theorem State.finishEdge_params (s t : State) : (s.finishEdge t).params = t.params := by
  simp [State.finishEdge]
@[simp] theorem State.finishEdge_resets (s t : State) : (s.finishEdge t).resets = t.resets := by
  simp [State.finishEdge]

/-! ### The button states -/

@[simp] theorem ButtonUnit.setState_last (u : ButtonUnit) (b : Button) (x : BtnState) : (u.setState b x).last = u.last := by
  cases b <;> rfl
@[simp] theorem ButtonUnit.setState_count (u : ButtonUnit) (b : Button) (x : BtnState) : (u.setState b x).count = u.count := by
  cases b <;> rfl
@[simp] theorem ButtonUnit.setState_left (u : ButtonUnit) (b : Button) (x : BtnState) : (u.setState b x).left = u.left := by
  cases b <;> rfl
theorem ButtonUnit.state_setState (u : ButtonUnit) (b c : Button) (x : BtnState) :
    (u.setState b x).state c = if c = b then x else u.state c := by
  cases b <;> cases c <;> rfl

end Sys2Proof.Machine
end

