-- ==== Sys2Proof/Laws/Memory.lean ====
section
/-! SUPPORT. The byte buffers: read after write, and every operation keeps the canonical form. -/

namespace Sys2Proof.Machine

/-- A read after a write gives the value written there and leaves every other index alone. -/
theorem Memory.read_write (m : Memory) (i j : Nat) (v : Byte) :
    Memory.read (Memory.write m i v) j = if j = i then some v else Memory.read m j := by
  induction m with
  | nil =>
    by_cases h : j = i
    · subst h; simp [Memory.write, Memory.read]
    · simp [Memory.write, Memory.read, h, Ne.symm h]
  | cons c m ih =>
    obtain ⟨a, w⟩ := c
    unfold Memory.write
    split_ifs <;> simp only [Memory.read, ih] <;> split_ifs <;> first | rfl | omega

/-- Writing several bytes: the indices from `i` on take them, the others keep their values. -/
theorem Memory.read_writeMany (bs : List Byte) (m : Memory) (i j : Nat) :
    Memory.read (Memory.writeMany m i bs) j =
      if i ≤ j ∧ j < i + bs.length then bs[j - i]? else Memory.read m j := by
  induction bs generalizing m i with
  | nil =>
    have h : ¬(i ≤ j ∧ j < i + ([] : List Byte).length) := by simp
    rw [if_neg h]; rfl
  | cons b bs ih =>
    simp only [Memory.writeMany, ih, Memory.read_write, List.length_cons]
    by_cases h : j = i
    · subst h; simp
    · by_cases h1 : i + 1 ≤ j ∧ j < i + 1 + bs.length
      · have h2 : i ≤ j ∧ j < i + (bs.length + 1) := by omega
        have h3 : j - i = (j - (i + 1)) + 1 := by omega
        rw [if_pos h1, if_pos h2, h3, List.getElem?_cons_succ]
      · have h2 : ¬(i ≤ j ∧ j < i + (bs.length + 1)) := by omega
        rw [if_neg h1, if_neg h2, if_neg h]

theorem Memory.wfFrom_mono (m : Memory) (a b : Nat) (h : a ≤ b) (hw : Memory.wfFrom b m = true) :
    Memory.wfFrom a m = true := by
  cases m with
  | nil => rfl
  | cons c m =>
    obtain ⟨k, v⟩ := c
    simp only [Memory.wfFrom, Bool.and_eq_true, decide_eq_true_eq] at hw ⊢
    exact ⟨⟨by omega, hw.1.2⟩, hw.2⟩

theorem Memory.wfFrom_write (m : Memory) (lo i : Nat) (v : Byte) (hlo : lo ≤ i) (hi : i < bufBytes)
    (hw : Memory.wfFrom lo m = true) : Memory.wfFrom lo (Memory.write m i v) = true := by
  induction m generalizing lo with
  | nil => simp [Memory.write, Memory.wfFrom, hlo, hi]
  | cons c m ih =>
    obtain ⟨a, w⟩ := c
    simp only [Memory.wfFrom, Bool.and_eq_true, decide_eq_true_eq] at hw
    unfold Memory.write
    split_ifs with h1 h2
    · simp only [Memory.wfFrom, Bool.and_eq_true, decide_eq_true_eq]
      exact ⟨⟨hlo, hi⟩, ⟨by omega, hw.1.2⟩, hw.2⟩
    · subst h2
      simp only [Memory.wfFrom, Bool.and_eq_true, decide_eq_true_eq]
      exact ⟨⟨hlo, hi⟩, hw.2⟩
    · simp only [Memory.wfFrom, Bool.and_eq_true, decide_eq_true_eq]
      exact ⟨hw.1, ih (a + 1) (by omega) hw.2⟩

/-- A write inside the buffer keeps the canonical form. -/
theorem Memory.wf_write (m : Memory) (i : Nat) (v : Byte) (hi : i < bufBytes) (hw : Memory.wf m = true) :
    Memory.wf (Memory.write m i v) = true :=
  Memory.wfFrom_write m 0 i v (Nat.zero_le i) hi hw

/-- Writing several bytes inside the buffer keeps the canonical form. -/
theorem Memory.wf_writeMany (bs : List Byte) (m : Memory) (i : Nat) (hi : i + bs.length ≤ bufBytes)
    (hw : Memory.wf m = true) : Memory.wf (Memory.writeMany m i bs) = true := by
  induction bs generalizing m i with
  | nil => exact hw
  | cons b bs ih =>
    simp only [List.length_cons] at hi
    exact ih _ (i + 1) (by omega) (Memory.wf_write m i b (by omega) hw)

/-- The buffers after reset have the canonical form. -/
theorem State.resetWith_wf (p : Config.Params) :
    Memory.wf (State.resetWith p).inBuf = true ∧ Memory.wf (State.resetWith p).outBuf = true := ⟨rfl, rfl⟩

/-- Reading `n` bytes succeeds exactly when each of them has been written, and gives them in order. -/
theorem Memory.readMany_ok (n : Nat) (m : Memory) (i : Nat) (bs : List Byte) :
    Memory.readMany m i n = .ok bs ↔ bs.length = n ∧ ∀ k, k < n → Memory.read m (i + k) = bs[k]? := by
  induction n generalizing i bs with
  | zero => cases bs <;> simp [Memory.readMany]
  | succ n ih =>
    unfold Memory.readMany
    constructor
    · intro h
      split at h
      · cases h
      · cases h
      · rename_i b cs hb hcs
        cases h
        obtain ⟨hl, hk⟩ := (ih (i + 1) cs).1 hcs
        refine ⟨by simp [hl], fun k hk' => ?_⟩
        cases k with
        | zero => simpa using hb
        | succ k =>
          rw [List.getElem?_cons_succ, ← hk k (by omega)]
          congr 1; omega
    · rintro ⟨hl, hk⟩
      cases bs with
      | nil => simp at hl
      | cons b cs =>
        have h0 : Memory.read m i = some b := by simpa using hk 0 (by omega)
        have h1 : Memory.readMany m (i + 1) n = .ok cs := by
          refine (ih (i + 1) cs).2 ⟨by simpa using hl, fun k hk' => ?_⟩
          have := hk (k + 1) (by omega)
          rw [List.getElem?_cons_succ] at this
          rw [← this]; congr 1; omega
        rw [h0, h1]

/-- Reading fails only at an index in range that nothing has written. -/
theorem Memory.readMany_error (n : Nat) (m : Memory) (i j : Nat) (h : Memory.readMany m i n = .error j) :
    i ≤ j ∧ j < i + n ∧ Memory.read m j = none := by
  induction n generalizing i with
  | zero => simp [Memory.readMany] at h
  | succ n ih =>
    unfold Memory.readMany at h
    split at h
    · rename_i h0
      cases h
      exact ⟨Nat.le_refl _, by omega, h0⟩
    · rename_i hj
      cases h
      obtain ⟨h1, h2, h3⟩ := ih (i + 1) hj
      exact ⟨by omega, by omega, h3⟩
    · cases h

/-- Where the host has written the bytes, reading them gives a list. -/
theorem Memory.readMany_of_written (n : Nat) (m : Memory) (h : ∀ i, i < n → Memory.read m i ≠ none) :
    ∃ bs, Memory.readMany m 0 n = .ok bs := by
  cases hr : Memory.readMany m 0 n with
  | ok bs => exact ⟨bs, rfl⟩
  | error j =>
    obtain ⟨_, h2, h3⟩ := Memory.readMany_error n m 0 j hr
    exact absurd h3 (h j (by omega))

end Sys2Proof.Machine
end

