-- ==== Sys2Proof/Laws/Ops.lean ====
section
/-! SUPPORT. What each shared operation can answer, said once. -/

namespace Sys2Proof.Machine

@[simp] theorem complete_eq (c : Result) (s : State) : complete c s = .next (s.raiseResult c) := rfl

/-- MemRead of written bytes inside the buffer goes on with exactly these bytes. -/
theorem State.withInBytes_of_written (s : State) (n : Nat) (rest : List Byte → Answer) (hn : n ≤ bufBytes)
    (hw : s.inBufWritten n) :
    ∃ bs : List Byte, bs.length = n ∧ (∀ k, k < n → Memory.read s.inBuf k = bs[k]?) ∧ s.withInBytes n rest = rest bs := by
  obtain ⟨bs, hbs⟩ := Memory.readMany_of_written n s.inBuf hw
  obtain ⟨h1, h2⟩ := (Memory.readMany_ok n s.inBuf 0 bs).1 hbs
  refine ⟨bs, h1, by simpa using h2, ?_⟩
  simp [State.withInBytes, hbs, Nat.not_lt.2 hn]

/-- MemRead answers in one of three ways. -/
theorem State.withInBytes_cases (s : State) (n : Nat) (rest : List Byte → Answer) :
    (bufBytes < n ∧ s.withInBytes n rest = .fault (.noSuchBufferByte bufBytes)) ∨
    (n ≤ bufBytes ∧ ∃ i, i < n ∧ Memory.read s.inBuf i = none ∧ s.withInBytes n rest = .refused (.inBufNotWritten i)) ∨
    (n ≤ bufBytes ∧ ∃ bs : List Byte, bs.length = n ∧ (∀ k, k < n → Memory.read s.inBuf k = bs[k]?) ∧
      s.withInBytes n rest = rest bs) := by
  by_cases h : bufBytes < n
  · exact .inl ⟨h, by simp [State.withInBytes, h]⟩
  · cases hr : Memory.readMany s.inBuf 0 n with
    | error i =>
      obtain ⟨_, h2, h3⟩ := Memory.readMany_error n s.inBuf 0 i hr
      exact .inr (.inl ⟨by omega, i, by omega, h3, by simp [State.withInBytes, h, hr]⟩)
    | ok bs =>
      obtain ⟨h1, h2⟩ := (Memory.readMany_ok n s.inBuf 0 bs).1 hr
      exact .inr (.inr ⟨by omega, bs, h1, by simpa using h2, by simp [State.withInBytes, h, hr]⟩)

/-- MemWrite of bytes that fit goes on with OUT_BUF changed at these indices only. -/
theorem State.withOutBytes_of_fits (s : State) (v : List Byte) (rest : State → Answer) (h : v.length ≤ bufBytes) :
    ∃ out, (∀ j, Memory.read out j = if j < v.length then v[j]? else Memory.read s.outBuf j) ∧
      (Memory.wf s.outBuf = true → Memory.wf out = true) ∧ s.withOutBytes v rest = rest { s with outBuf := out } := by
  refine ⟨Memory.writeMany s.outBuf 0 v, fun j => ?_, fun hw => ?_, ?_⟩
  · simpa using Memory.read_writeMany v s.outBuf 0 j
  · exact Memory.wf_writeMany v s.outBuf 0 (by omega) hw
  · simp [State.withOutBytes, Nat.not_lt.2 h]

/-- The FIFO after an arrival, and RXOVR. -/
theorem State.pushRx_spec (s : State) (e : RxEntry) :
    s.pushRx e = { s with
      rxFifo := if s.rxFull then s.rxFifo else s.rxFifo ++ [e]
      status.rxOvr := s.rxFull || s.status.rxOvr } := by
  unfold State.pushRx
  cases h : s.rxFull <;> rfl

/-- An arrival keeps the FIFO within its depth. -/
theorem State.pushRx_fits (s : State) (e : RxEntry) (h : s.rxFifo.length ≤ s.params.rxFifoDepth) :
    (s.pushRx e).rxFifo.length ≤ s.params.rxFifoDepth := by
  unfold State.pushRx State.rxFull
  split
  · exact h
  · rename_i h1
    simp only [decide_eq_true_eq] at h1
    simp only [List.length_append, List.length_singleton]
    omega

theorem State.arrive_fits (s : State) (p : Ports) (h : s.rxFifo.length ≤ s.params.rxFifoDepth) :
    (s.arrive p).rxFifo.length ≤ s.params.rxFifoDepth := by
  unfold State.arrive
  split
  · exact State.pushRx_fits s _ h
  · exact h

/-- A countdown never grows. -/
theorem countDown_le (v : Reg16) : (countDown v).toNat ≤ v.toNat := by
  unfold countDown
  split
  · simp
  · rename_i h
    have : v.toNat ≠ 0 := fun h' => h (BitVec.eq_of_toNat_eq (by simpa using h'))
    have hv := v.isLt
    rw [BitVec.toNat_sub]
    simp
    omega

end Sys2Proof.Machine
end

