-- ==== Sys2Proof/Laws/Codec.lean ====
section
/-! SUPPORT. The stuffed stream bit by bit (40_wirecodec.md R112, R115). -/

namespace Sys2Proof.Machine

/-- Bit `t` of `byteOfBits f` is `f t`. -/
theorem getLsbD_byteOfBits (f : Nat → Bool) (t : Nat) (h : t < 8) : (byteOfBits f).getLsbD t = f t := by
  unfold byteOfBits
  generalize h0 : f 0 = a0, h1 : f 1 = a1, h2 : f 2 = a2, h3 : f 3 = a3, h4 : f 4 = a4, h5 : f 5 = a5,
    h6 : f 6 = a6, h7 : f 7 = a7
  interval_cases t <;> simp only [h0, h1, h2, h3, h4, h5, h6, h7] <;> clear h0 h1 h2 h3 h4 h5 h6 h7 h <;>
    revert a0 a1 a2 a3 a4 a5 a6 a7 <;> decide

@[simp] theorem length_stuff (role : Bool) (src : List Byte) : (stuff role src).length = encodedSize src.length := by
  simp [stuff]

@[simp] theorem length_unstuff (w : List Byte) : (unstuff w).length = decodedSize w.length := by
  simp [unstuff]

theorem getElem?_stuff (role : Bool) (src : List Byte) (j : Nat) (h : j < encodedSize src.length) :
    (stuff role src)[j]? = some (stuffByte role src j) := by
  simp [stuff, h]

theorem getElem?_unstuff (w : List Byte) (i : Nat) (h : i < decodedSize w.length) :
    (unstuff w)[i]? = some (unstuffByte w i) := by
  simp [unstuff, h]

/-- Bit 7 of a stuffed byte is the role marker. -/
theorem stuffByte_marker (role : Bool) (src : List Byte) (j : Nat) : (stuffByte role src j).getLsbD 7 = role := by
  rw [stuffByte, getLsbD_byteOfBits _ _ (by decide)]; rfl

/-- Bits 0..6 of a stuffed byte are stream bits, 0 past the end of the source. -/
theorem stuffByte_bit (role : Bool) (src : List Byte) (j t : Nat) (h : t < 7) :
    (stuffByte role src j).getLsbD t = if 7 * j + t < 8 * src.length then streamBit 8 src (7 * j + t) else false := by
  rw [stuffByte, getLsbD_byteOfBits _ _ (by omega), if_neg (by omega)]

/-- The bits of an unstuffed byte are stream bits. -/
theorem unstuffByte_bit (w : List Byte) (i t : Nat) (h : t < 8) :
    (unstuffByte w i).getLsbD t = streamBit 7 w (8 * i + t) := by
  rw [unstuffByte, getLsbD_byteOfBits _ _ h]

/-- The size of the encoding is the ceiling of 8n/7. -/
theorem encodedSize_bounds (n : Nat) : 8 * n ≤ 7 * encodedSize n ∧ 7 * encodedSize n < 8 * n + 7 := by
  unfold encodedSize; omega

/-- The size of the decoding is the floor of 7m/8. -/
theorem decodedSize_bounds (m : Nat) : 8 * decodedSize m ≤ 7 * m ∧ 7 * m < 8 * decodedSize m + 8 := by
  unfold decodedSize; omega

/-- The counts ENCODE accepts are 1..28. -/
theorem encode_count_iff (n : Nat) : (n = 0 ∨ bufBytes < encodedSize n) ↔ (n = 0 ∨ 28 < n) := by
  unfold encodedSize bufBytes; omega

/-- The counts DECODE accepts are 2..32. -/
theorem decode_count_iff (m : Nat) : (bufBytes < m ∨ decodedSize m = 0) ↔ (m < 2 ∨ 32 < m) := by
  unfold decodedSize bufBytes; omega

end Sys2Proof.Machine
end

