-- ==== Sys2Proof/Laws/PerInstr.lean ====
section
/-! SUPPORT. Per instruction: its encoding has the width and the fixed bits of its row of spec/opcode_table.json. -/

namespace Sys2Proof.Laws.EncodingFitsTable

/-- A row's width and fixed bits: a word is the row's if it equals `pattern` under `mask`. -/
structure Row where
  width : Nat
  mask : Nat
  pattern : Nat

/-- The row of an instruction. -/
def rowOf : Instr → Row
  | .encSize => { width := 16, mask := 0x00FF, pattern := 0x0010 }
  | .decSize => { width := 16, mask := 0x00FF, pattern := 0x0011 }
  | .encodeS => { width := 16, mask := 0x00FF, pattern := 0x0012 }
  | .encodeM => { width := 16, mask := 0x00FF, pattern := 0x0013 }
  | .decodeS => { width := 16, mask := 0x00FF, pattern := 0x0014 }
  | .decodeM => { width := 16, mask := 0x00FF, pattern := 0x0015 }
  | .encbS => { width := 16, mask := 0x00FF, pattern := 0x0016 }
  | .encbM => { width := 16, mask := 0x00FF, pattern := 0x0017 }
  | .decbS => { width := 16, mask := 0x00FF, pattern := 0x0018 }
  | .decbM => { width := 16, mask := 0x00FF, pattern := 0x0019 }
  | .isbS => { width := 16, mask := 0x00FF, pattern := 0x001A }
  | .isbM => { width := 16, mask := 0x00FF, pattern := 0x001B }
  | .crc8 => { width := 16, mask := 0x00FF, pattern := 0x0020 }
  | .pollStep => { width := 16, mask := 0x00FF, pattern := 0x0030 }
  | .rxFlush => { width := 16, mask := 0x00FF, pattern := 0x0031 }
  | .btnSample => { width := 16, mask := 0x00FF, pattern := 0x0040 }
  | .btnReset => { width := 16, mask := 0x00FF, pattern := 0x0041 }
  | .invalid _ => { width := 16, mask := 0x0000, pattern := 0x0000 }
  | .wirePoll _ => { width := 8, mask := 0x80, pattern := 0x80 }
  | .wireEcho _ => { width := 8, mask := 0x80, pattern := 0x00 }
  | .wireData _ => { width := 8, mask := 0x80, pattern := 0x00 }

/-- The encoding is a word of the row. -/
def Row.holds (r : Row) : Encoded → Prop
  | .cmd w => r.width = 16 ∧ w.toNat &&& r.mask = r.pattern
  | .line b => r.width = 8 ∧ b.toNat &&& r.mask = r.pattern

/-- A well-formed instruction's encoding has the fixed bits of its row, and the row's width. -/
def Statement (i : Instr) : Prop := i.wellFormed = true → (rowOf i).holds (encode i)

theorem encSize : Statement .encSize := fun _ => ⟨rfl, rfl⟩
theorem decSize : Statement .decSize := fun _ => ⟨rfl, rfl⟩
theorem encodeS : Statement .encodeS := fun _ => ⟨rfl, rfl⟩
theorem encodeM : Statement .encodeM := fun _ => ⟨rfl, rfl⟩
theorem decodeS : Statement .decodeS := fun _ => ⟨rfl, rfl⟩
theorem decodeM : Statement .decodeM := fun _ => ⟨rfl, rfl⟩
theorem encbS : Statement .encbS := fun _ => ⟨rfl, rfl⟩
theorem encbM : Statement .encbM := fun _ => ⟨rfl, rfl⟩
theorem decbS : Statement .decbS := fun _ => ⟨rfl, rfl⟩
theorem decbM : Statement .decbM := fun _ => ⟨rfl, rfl⟩
theorem isbS : Statement .isbS := fun _ => ⟨rfl, rfl⟩
theorem isbM : Statement .isbM := fun _ => ⟨rfl, rfl⟩
theorem crc8 : Statement .crc8 := fun _ => ⟨rfl, rfl⟩
theorem pollStep : Statement .pollStep := fun _ => ⟨rfl, rfl⟩
theorem rxFlush : Statement .rxFlush := fun _ => ⟨rfl, rfl⟩
theorem btnSample : Statement .btnSample := fun _ => ⟨rfl, rfl⟩
theorem btnReset : Statement .btnReset := fun _ => ⟨rfl, rfl⟩
theorem invalid (op : Byte) : Statement (.invalid op) := fun _ => ⟨rfl, Nat.and_zero _⟩
theorem wirePoll (id : BitVec 7) : Statement (.wirePoll id) := fun _ => ⟨rfl, by revert id; decide⟩
theorem wireEcho (id : BitVec 7) : Statement (.wireEcho id) := fun _ => ⟨rfl, by revert id; decide⟩
theorem wireData (d : BitVec 7) : Statement (.wireData d) := fun _ => ⟨rfl, by revert d; decide⟩

end Sys2Proof.Laws.EncodingFitsTable
end

