-- ==== Sys2Proof/Laws/Poll.lean ====
section
/-! SUPPORT. What one edge of a call can do, phase by phase (42_polling.md R152 to R162). -/

namespace Sys2Proof.Machine

/-! ### The ends of an edge -/

/-- `finish(code)` written out. -/
theorem finishCall_eq (c : Result) (p : List Byte) (s : State) :
    finishCall c p s = .next { s with
      rxFifo := if c.flushes then [] else s.rxFifo
      status := { s.status with busy := false, done := true, result := c }
      poll := { s.poll with
        bpe := .idle, nextId := s.poll.callId, dev := s.poll.callId,
        trim := if c = .ok then trimField (payloadWord p) else 0
        btn := if c = .ok then btnField (payloadWord p) else 0
        crcRx := if c.decoded then payloadCrc p else 0
        crcCalc := if c.decoded then payloadCalc p else 0 } } := by
  cases c <;> rfl

/-- Bit 7 and the masked byte together are the marker and the field of the byte. -/
theorem echo_test_iff (b : Byte) (id : BitVec 7) :
   (b.getLsbD 7 = true ∨ decodeSlaveByte b ≠ id.setWidth 8) ↔ ¬(b.getLsbD 7 = false ∧ b.extractLsb' 0 7 = id) := by
  revert b id; unfold decodeSlaveByte; 
  intro b id
  by_cases hb : b.getLsbD 7 = true
  · simp [hb]
  · simp only [hb]
    have : decodeSlaveByte b = (b.extractLsb' 0 7).setWidth 8 := by revert b; decide
    unfold decodeSlaveByte at this
    rw [this]
    simp
    constructor
    · intro h h2; exact h (by rw [h2])
    · intro h h2; apply h
      have := congrArg (BitVec.setWidth 7) h2
      simpa using this

/-- The echo is accepted, or the call ends INVALID_RESPONSE. -/
theorem takeEcho_eq (b : Byte) (err : Bool) (s : State) :
   takeEcho b err s = if err = false ∧ b.getLsbD 7 = false ∧ b.extractLsb' 0 7 = s.poll.callId then
      .next { s with poll := { s.poll with bpe := .waitData, winLeft := s.regs.connTimeoutMs, dataCnt := 0 } }
    else finishCall .invalidResponse [] s := by
  unfold takeEcho
  have h := echo_test_iff b s.poll.callId
  by_cases hc : err = false ∧ b.getLsbD 7 = false ∧ b.extractLsb' 0 7 = s.poll.callId
  · rw [if_pos hc, if_neg]
    rintro (h1 | h1)
    · simp_all
    · exact (h.1 h1) hc.2
  · rw [if_neg hc, if_pos]
    cases err with
    | true => exact .inl rfl
    | false => exact .inr (h.2 (by simpa using hc))

/-- A payload byte before the fourth. -/
theorem takeData_eq (d : Byte) (s : State) (h : s.poll.dataCnt.toNat < 3) :
   takeData d false s = .next { s with poll := { s.poll with frame := s.poll.frame.set s.poll.dataCnt.toNat d, dataCnt := s.poll.dataCnt + 1 } } := by
  simp only [takeData]
  rw [if_neg (by decide), if_pos (by unfold replyBytes; omega)]

/-- The fourth payload byte. -/
theorem takeData_last (d : Byte) (s : State) (h : s.poll.dataCnt = 3) :
   takeData d false s = checkReply { s with poll := { s.poll with frame := { s.poll.frame with b3 := d}, dataCnt := 4 } } := by
  simp only [takeData, h]
  rfl

/-- The payload of a reply frame, bit for bit. -/
theorem unstuff_frame (f : RxFrame) : unstuff f.bytes = [f.b1.extractLsb' 0 1 ++ f.b0.extractLsb' 0 7, f.b2.extractLsb' 0 2 ++ f.b1.extractLsb' 1 6, f.b3.extractLsb' 0 3 ++ f.b2.extractLsb' 2 5] := by
  have h (i : Nat) (x : Byte) (hx : ∀ t, t < 8 → streamBit 7 f.bytes (8 * i + t) = x.getLsbD t) : unstuffByte f.bytes i = x := by
    apply BitVec.eq_of_getLsbD_eq
    intro t ht
    rw [unstuffByte_bit _ _ _ ht, hx t ht]
  have : unstuff f.bytes = [unstuffByte f.bytes 0, unstuffByte f.bytes 1, unstuffByte f.bytes 2] := by
    unfold unstuff
    rw [show decodedSize f.bytes.length = 3 by simp [decodedSize, RxFrame.bytes]]; rfl
  rw [this, h 0 _ ?_, h 1 _ ?_, h 2 _ ?_]
  all_goals
    intro t ht
    first
    | rw [show ∀ (x : BitVec 1) (y : BitVec 7), BitVec.getLsbD (w := 8) (x ++ y) t = if t < 7 then y.getLsbD t else x.getLsbD (t - 7) from fun x y => BitVec.getLsbD_append]
    | rw [show ∀ (x : BitVec 2) (y : BitVec 6), BitVec.getLsbD (w := 8) (x ++ y) t = if t < 6 then y.getLsbD t else x.getLsbD (t - 6) from fun x y => BitVec.getLsbD_append]
    | rw [show ∀ (x : BitVec 3) (y : BitVec 5), BitVec.getLsbD (w := 8) (x ++ y) t = if t < 5 then y.getLsbD t else x.getLsbD (t - 5) from fun x y => BitVec.getLsbD_append]
    interval_cases t <;> simp [streamBit, RxFrame.bytes]

/-! ### What the engine works on in a phase -/

/-- An error-free entry in waitId is taken as a wire byte, whatever command the engine holds. -/
theorem exec_fetch_waitId_byte (s : State) (e : RxEntry) (rest : List RxEntry) (hp : s.poll.bpe = .waitId)
    (hf : s.rxFifo = e :: rest) (he : e.err = false) : exec s.fetch s = takeEcho e.data e.err s.popRx := by
  have hw : ∀ m, isMasterByte e.data = m → wireByte m (wireField e.data) = e.data := by
    generalize e.data = b
    revert b; decide
  unfold State.fetch
  rw [hp, hf]
  simp only [he, Bool.false_eq_true, if_false]
  unfold decodeWire
  split
  · rename_i hm
    simp [exec, execWirePoll, hp, takeByte, hw _ hm]
  · rename_i hm
    simp only [Bool.not_eq_true] at hm
    simp [exec, execWireEcho, hp, takeByte, hw _ hm]

theorem exec_fetch_waitId_cons (s : State) (e : RxEntry) (rest) (ho : s.engine.opcode = pollStepOpcode)
    (hp : s.poll.bpe = .waitId) (hf : s.rxFifo = e :: rest) : exec s.fetch s = takeEcho e.data e.err s.popRx := by
  cases he : e.err with
  | true =>
    unfold State.fetch
    rw [hp, hf]
    simp only [he, if_true]
    rw [ho]
    change execPollStep s = _
    simp [execPollStep, hp, hf, he]
  | false =>
    rw [← he]
    exact exec_fetch_waitId_byte s e rest hp hf he

/-- An error-free entry in waitData is taken as a wire byte, whatever command the engine holds. -/
theorem exec_fetch_waitData_byte (s : State) (e : RxEntry) (rest : List RxEntry) (hp : s.poll.bpe = .waitData)
    (hf : s.rxFifo = e :: rest) (he : e.err = false) : exec s.fetch s = takeData e.data e.err s.popRx := by
  have hw : ∀ m, isMasterByte e.data = m → wireByte m (wireField e.data) = e.data := by
    generalize e.data = b
    revert b; decide
  unfold State.fetch
  rw [hp, hf]
  simp only [he, Bool.false_eq_true, if_false]
  unfold decodeWire
  split
  · rename_i hm
    simp [exec, execWirePoll, hp, takeByte, hw _ hm]
  · rename_i hm
    simp only [Bool.not_eq_true] at hm
    simp [exec, execWireData, hp, takeByte, hw _ hm]

theorem exec_fetch_waitData_cons (s : State) (e : RxEntry) (rest) (ho : s.engine.opcode = pollStepOpcode)
    (hp : s.poll.bpe = .waitData) (hf : s.rxFifo = e :: rest) : exec s.fetch s = takeData e.data e.err s.popRx := by
  cases he : e.err with
  | true =>
    unfold State.fetch
    rw [hp, hf]
    simp only [he, if_true]
    rw [ho]
    change execPollStep s = _
    simp [execPollStep, hp, hf, he]
  | false =>
    rw [← he]
    exact exec_fetch_waitData_byte s e rest hp hf he

theorem fetch_tx {s : State} (h : s.poll.bpe = .tx) : s.fetch = .wirePoll s.poll.callId := by
  simp only [State.fetch, h, pollByte, encodeMasterByte]
  generalize s.poll.callId = id
  revert id; decide
theorem exec_fetch_tx {s : State} (h : s.poll.bpe = .tx) : exec s.fetch s = transmitEdge s := by
  rw [fetch_tx h]
  simp only [exec, execWirePoll, h]
  rw [← h]
theorem exec_fetch_waitId_nil {s : State} (ho : s.engine.opcode = pollStepOpcode) (h : s.poll.bpe = .waitId) (hf : s.rxFifo = []) :
    exec s.fetch s = windowEdge .idle s := by
  have : s.fetch = .pollStep := by
    unfold State.fetch
    rw [h, hf]; simp only [ho]; rfl
  rw [this]
  simp only [exec, execPollStep, h, hf]
theorem exec_fetch_waitData_nil {s : State} (ho : s.engine.opcode = pollStepOpcode) (h : s.poll.bpe = .waitData) (hf : s.rxFifo = []) :
    exec s.fetch s = windowEdge .timeout s := by
  have : s.fetch = .pollStep := by
    unfold State.fetch
    rw [h, hf]; simp only [ho]; rfl
  rw [this]
  simp only [exec, execPollStep, h, hf]

/-- What the engine works on is an edge of POLL_STEP, or a command it holds that is none. -/
theorem exec_fetch_cases (s : State) :
    exec s.fetch s = execPollStep s ∨
      (s.engine.opcode ≠ pollStepOpcode ∧ s.fetch = decodeOpcode s.engine.opcode) := by
  by_cases ho : s.engine.opcode = pollStepOpcode
  · left
    have hd : decodeOpcode s.engine.opcode = .pollStep := by rw [ho]; rfl
    cases hb : s.poll.bpe with
    | idle => simp [State.fetch, hb, hd, exec]
    | tx => rw [exec_fetch_tx hb]; simp [execPollStep, hb]
    | waitId =>
      cases hf : s.rxFifo with
      | nil => rw [exec_fetch_waitId_nil ho hb hf]; simp [execPollStep, hb, hf]
      | cons e rest => rw [exec_fetch_waitId_cons s e rest ho hb hf]; simp [execPollStep, hb, hf]
    | waitData =>
      cases hf : s.rxFifo with
      | nil => rw [exec_fetch_waitData_nil ho hb hf]; simp [execPollStep, hb, hf]
      | cons e rest => rw [exec_fetch_waitData_cons s e rest ho hb hf]; simp [execPollStep, hb, hf]
  · cases hb : s.poll.bpe with
    | idle => exact .inr ⟨ho, by simp [State.fetch, hb]⟩
    | tx => exact .inl (by rw [exec_fetch_tx hb]; simp [execPollStep, hb])
    | waitId =>
      cases hf : s.rxFifo with
      | nil => exact .inr ⟨ho, by simp [State.fetch, hb, hf]⟩
      | cons e rest =>
        cases he : e.err with
        | true => exact .inr ⟨ho, by simp [State.fetch, hb, hf, he]⟩
        | false => exact .inl (by rw [exec_fetch_waitId_byte s e rest hb hf he]; simp [execPollStep, hb, hf])
    | waitData =>
      cases hf : s.rxFifo with
      | nil => exact .inr ⟨ho, by simp [State.fetch, hb, hf]⟩
      | cons e rest =>
        cases he : e.err with
        | true => exact .inr ⟨ho, by simp [State.fetch, hb, hf, he]⟩
        | false => exact .inl (by rw [exec_fetch_waitData_byte s e rest hb hf he]; simp [execPollStep, hb, hf])

/-- WIN_LEFT after an edge of a call: loaded where a window opens, kept elsewhere. -/
def winAfter (s t : State) : Reg16 :=
  if s.poll.bpe = .tx ∧ t.poll.bpe = .waitId then s.regs.pollTimeoutMs
  else if s.poll.bpe = .waitId ∧ t.poll.bpe = .waitData then s.regs.connTimeoutMs
  else s.poll.winLeft

/-- A call that goes on. -/
def CallGoesOn (s t : State) : Prop :=
  t = { s with rxFifo := t.rxFifo, poll := t.poll } ∧ t.poll.bpe ≠ .idle ∧ t.poll.callId = s.poll.callId ∧
  (t.rxFifo = s.rxFifo ∨ t.rxFifo = s.rxFifo.tail) ∧
  t.poll.nextId = s.poll.nextId ∧ t.poll.dev = s.poll.dev ∧ t.poll.trim = s.poll.trim ∧ t.poll.btn = s.poll.btn ∧
  t.poll.crcRx = s.poll.crcRx ∧ t.poll.crcCalc = s.poll.crcCalc ∧
  (t.poll.dataCnt = s.poll.dataCnt ∨ t.poll.bpe = .waitData ∧ t.poll.dataCnt.toNat < replyBytes) ∧
  (t.poll.bpe = .waitData → s.poll.bpe = .waitData ∨ t.poll.dataCnt = 0) ∧
  t.poll.winLeft = winAfter s t

/-- A call that ends with `c`. -/
def CallEnds (s t : State) (c : Result) : Prop :=
  ∃ (u : State) (p : List Byte), finishCall c p u = .next t ∧
    u = { s with rxFifo := u.rxFifo, poll := u.poll } ∧ u.poll.callId = s.poll.callId ∧
    (u.rxFifo = s.rxFifo ∨ u.rxFifo = s.rxFifo.tail) ∧
    (c = .ok → u.rxFifo = s.rxFifo.tail) ∧ (c = .idle → u.rxFifo = s.rxFifo) ∧
    (c = .ok → payloadCalc p = payloadCrc p) ∧ (c = .invalidCrc → payloadCalc p ≠ payloadCrc p) ∧
    c ∈ [Result.ok, .idle, .timeout, .invalidResponse, .invalidCrc] ∧
    (u.poll.dataCnt = s.poll.dataCnt ∨ s.poll.bpe = .waitData ∧ u.poll.dataCnt = s.poll.dataCnt + 1) ∧
    u.poll.winLeft = s.poll.winLeft

/-- An edge of a call goes on with it or ends it. -/
theorem pollEdge_cases (s t : State) (hp : s.poll.bpe ≠ .idle) (h : execPollStep s = .next t) :
    CallGoesOn s t ∨ ∃ c, CallEnds s t c := by
  cases hb : s.poll.bpe with
  | idle => exact absurd hb hp
  | tx =>
    simp only [execPollStep, hb] at h
    left
    unfold transmitEdge at h
    split_ifs at h <;> cases h <;> simp [CallGoesOn, winAfter, hb]
  | waitId =>
    cases hf : s.rxFifo with
    | nil =>
      simp only [execPollStep, hb, hf] at h
      unfold windowEdge at h
      split_ifs at h
      · right
        exact ⟨.idle, s, [], h, rfl, rfl, .inl rfl, by simp, by simp, by simp, by simp, by simp, .inl rfl, rfl⟩
      · left
        cases h
        simp [CallGoesOn, winAfter, hb]
    | cons e rest =>
      simp only [execPollStep, hb, hf, takeEcho_eq] at h
      split_ifs at h
      · left
        cases h
        simp [CallGoesOn, winAfter, State.popRx, hb, hf, replyBytes]
      · right
        exact ⟨.invalidResponse, _, [], h, rfl, rfl, .inr rfl, by simp, by simp, by simp, by simp, by simp, .inl rfl, rfl⟩
  | waitData =>
    cases hf : s.rxFifo with
    | nil =>
      simp only [execPollStep, hb, hf] at h
      unfold windowEdge at h
      split_ifs at h
      · right
        exact ⟨.timeout, s, [], h, rfl, rfl, .inl rfl, by simp, by simp, by simp, by simp, by simp, .inl rfl, rfl⟩
      · left
        cases h
        simp [CallGoesOn, winAfter, hb]
    | cons e rest =>
      simp only [execPollStep, hb, hf, takeData] at h
      split_ifs at h with h1 h2
      · right
        exact ⟨.invalidResponse, _, [], h, rfl, rfl, .inr rfl, by simp, by simp, by simp, by simp, by simp, .inl rfl, rfl⟩
      · left
        cases h
        have h3 : s.poll.dataCnt.toNat + 1 < replyBytes := by simpa [State.popRx] using h2
        have h4 : (s.poll.dataCnt + 1).toNat < replyBytes := by
          rw [BitVec.toNat_add]; unfold replyBytes at *; simp; omega
        exact ⟨rfl, by simp [State.popRx, hb], rfl, .inr (by simp [State.popRx, hf]), rfl, rfl, rfl, rfl, rfl, rfl,
          .inr ⟨by simp [State.popRx, hb], h4⟩, fun _ => .inl hb, by simp [winAfter, State.popRx, hb]⟩
      · right
        simp only [checkReply] at h
        split_ifs at h with h3 h4
        · exact ⟨.invalidResponse, _, [], h, rfl, rfl, .inr rfl, by simp, by simp, by simp, by simp, by simp, .inr ⟨hb, rfl⟩, rfl⟩
        · exact ⟨.invalidCrc, _, _, h, rfl, rfl, .inr rfl, by simp, by simp, by simp, fun _ => h4, by simp, .inr ⟨hb, rfl⟩, rfl⟩
        · exact ⟨.ok, _, _, h, rfl, rfl, .inr rfl, fun _ => rfl, by simp, fun _ => by simpa using h4, by simp, by simp, .inr ⟨hb, rfl⟩, rfl⟩

/-- The same of what the engine works on, where it holds a POLL_STEP. -/
theorem callEdge_cases (s t : State) (ho : s.engine.opcode = pollStepOpcode) (hp : s.poll.bpe ≠ .idle)
    (h : exec s.fetch s = .next t) : CallGoesOn s t ∨ ∃ c, CallEnds s t c := by
  rcases exec_fetch_cases s with he | ⟨hn, _⟩
  · exact pollEdge_cases s t hp (he ▸ h)
  · exact absurd ho hn

end Sys2Proof.Machine
end

