-- ==== Sys2Proof/Laws/Step.lean ====
section
/-! SUPPORT. What a step can do: the parts of an edge, and every command by what it completes with. -/

namespace Sys2Proof.Machine

/-! ### The edge -/

theorem clockEdge_next_cases {s t : State} (h : step s = .next t) :
    legalParams s.params = true ∧
      ((s.ports.rst = true ∧ t = s.resetEdge) ∨
       (s.ports.rst = false ∧ ∃ u, s.beforeEngine.engineStep = .next u ∧ t = s.finishEdge u)) := by
  unfold step State.clockEdge at h
  split at h
  · cases h
  · rename_i hp
    refine ⟨by simpa using hp, ?_⟩
    split at h
    · rename_i hr
      exact .inl ⟨hr, by cases h; rfl⟩
    · rename_i hr
      refine .inr ⟨by simpa using hr, ?_⟩
      unfold State.runEdge at h
      split at h
      · rename_i u hu
        exact ⟨u, hu, by cases h; rfl⟩
      · cases h
      · cases h

theorem step_of_rst {s : State} (hp : legalParams s.params = true) (hr : s.ports.rst = true) :
    step s = .next s.resetEdge := by
  simp [step, State.clockEdge, hp, hr]

theorem step_of_engine {s u : State} (hp : legalParams s.params = true) (hr : s.ports.rst = false)
    (hu : s.beforeEngine.engineStep = .next u) : step s = .next (s.finishEdge u) := by
  simp [step, State.clockEdge, hp, hr, State.runEdge, hu]

theorem engineStep_idle {s : State} (h : s.status.busy = false) : s.engineStep = .next s := by
  simp [State.engineStep, h]
theorem engineStep_waiting {s : State} (h : s.status.busy = true) (hl : 1 < s.engine.latLeft) :
    s.engineStep = .next { s with engine.latLeft := s.engine.latLeft - 1 } := by
  simp [State.engineStep, h, hl]
theorem engineStep_runs {s : State} (h : s.status.busy = true) (hl : s.engine.latLeft ≤ 1) :
    s.engineStep = exec s.fetch s := by
  simp [State.engineStep, h, Nat.not_lt.2 hl]

theorem engineStep_next_cases {s t : State} (h : s.engineStep = .next t) :
    (s.status.busy = false ∧ t = s) ∨
    (s.status.busy = true ∧ 1 < s.engine.latLeft ∧ t = { s with engine.latLeft := s.engine.latLeft - 1 }) ∨
    (s.status.busy = true ∧ s.engine.latLeft ≤ 1 ∧ exec s.fetch s = .next t) := by
  unfold State.engineStep at h
  split at h
  · rename_i hb
    exact .inl ⟨hb, by cases h; rfl⟩
  · rename_i hb
    split at h
    · rename_i hl
      exact .inr (.inl ⟨by simpa using hb, hl, by cases h; rfl⟩)
    · rename_i hl
      exact .inr (.inr ⟨by simpa using hb, by omega, h⟩)

/-! ### The buffer commands, by their count -/

theorem encodeCommand_rejects (role : Bool) (s : State)
    (h : s.regs.argN.toNat = 0 ∨ bufBytes < encodedSize s.regs.argN.toNat) :
    encodeCommand role s = complete .invalidArg s := if_pos h

theorem encodeCommand_runs (role : Bool) (s : State)
    (h : ¬(s.regs.argN.toNat = 0 ∨ bufBytes < encodedSize s.regs.argN.toNat)) :
    encodeCommand role s = s.withInBytes s.regs.argN.toNat fun src => s.withOutBytes (stuff role src) fun t =>
      complete .ok { t with resN := BitVec.ofNat 16 (encodedSize s.regs.argN.toNat) } := if_neg h

theorem decodeCommand_rejects (s : State) (h : bufBytes < s.regs.argN.toNat ∨ decodedSize s.regs.argN.toNat = 0) :
    decodeCommand s = complete .invalidArg s := if_pos h

theorem decodeCommand_runs (s : State) (h : ¬(bufBytes < s.regs.argN.toNat ∨ decodedSize s.regs.argN.toNat = 0)) :
    decodeCommand s = s.withInBytes s.regs.argN.toNat fun w => s.withOutBytes (unstuff w) fun t =>
      complete .ok { t with resN := BitVec.ofNat 16 (decodedSize s.regs.argN.toNat) } := if_neg h

theorem execCrc8_rejects (s : State) (h : bufBytes < s.regs.argN.toNat) : execCrc8 s = complete .invalidArg s := if_pos h

theorem execCrc8_runs (s : State) (h : ¬bufBytes < s.regs.argN.toNat) :
    execCrc8 s = s.withInBytes s.regs.argN.toNat fun data => complete .ok { s with resByte := crc8 data } := if_neg h

/-! ### The commands -/

/-- What a completed command other than POLL_STEP leaves. -/
structure Completed (i : Instr) (s t : State) : Prop where
  frame : t = { s with resN := t.resN, resByte := t.resByte, outBuf := t.outBuf, btn := t.btn, rxFifo := t.rxFifo, status := t.status }
  status : t.status = { s.status with busy := false, done := true, result := t.status.result }
  outWf : Memory.wf s.outBuf = true → Memory.wf t.outBuf = true
  fifo : t.rxFifo = s.rxFifo ∨ t.rxFifo = []
  buttons : t.btn = s.btn ∨ t.btn = { s.btn with last := none, count := 0 } ∨
    (i = .btnSample ∧ ∃ b, s.operandDebounce = 0 ∧ t.btn = detect s.regs s.btn b) ∨
    (i = .btnReset ∧ t.btn = { s.btn with st1 := .idle, st2 := .idle, st3 := .idle })

theorem complete_completed {i : Instr} {s u t : State} {c : Result} (h : complete c u = .next t)
   (hf : u = { s with resN := u.resN, resByte := u.resByte, outBuf := u.outBuf, btn := u.btn, rxFifo := u.rxFifo })
   (hw : Memory.wf s.outBuf = true → Memory.wf u.outBuf = true) (hx : u.rxFifo = s.rxFifo ∨ u.rxFifo = [])
   (hb : u.btn = s.btn ∨ u.btn = { s.btn with last := none, count := 0 } ∨
    (i = .btnSample ∧ ∃ b, s.operandDebounce = 0 ∧ u.btn = detect s.regs s.btn b) ∨
    (i = .btnReset ∧ u.btn = { s.btn with st1 := .idle, st2 := .idle, st3 := .idle })) : Completed i s t := by
  rw [complete_eq] at h
  cases h
  refine ⟨?_, ?_, hw, hx, hb⟩
  · rw [hf]; rfl
  · rw [hf]; rfl

theorem withInBytes_next {s t : State} {n : Nat} {rest : List Byte → Answer} (h : s.withInBytes n rest = .next t) :
   ∃ bs, bs.length = n ∧ n ≤ bufBytes ∧ rest bs = .next t := by
  rcases State.withInBytes_cases s n rest with ⟨_, h1⟩ | ⟨_, _, _, _, h1⟩ | ⟨h0, bs, h1, _, h2⟩
  · rw [h1] at h; cases h
  · rw [h1] at h; cases h
  · exact ⟨bs, h1, h0, by rw [← h2, h]⟩
theorem withOutBytes_next {s t : State} {v : List Byte} {rest : State → Answer} (h : s.withOutBytes v rest = .next t) :
   ∃ out, (Memory.wf s.outBuf = true → Memory.wf out = true) ∧ rest { s with outBuf := out } = .next t := by
  unfold State.withOutBytes at h
  split at h
  · cases h
  · rename_i hl
    exact ⟨_, Memory.wf_writeMany v s.outBuf 0 (by omega), h⟩
theorem sizeCommand_completed {i : Instr} {f} {s t : State} (h : sizeCommand f s = .next t) : Completed i s t := by
  unfold sizeCommand at h
  split at h
  · exact complete_completed h rfl id (.inl rfl) (.inl rfl)
  · exact complete_completed h rfl id (.inl rfl) (.inl rfl)
theorem byteCommand_completed {i : Instr} {f} {s t : State} (h : byteCommand f s = .next t) : Completed i s t :=
  complete_completed h rfl id (.inl rfl) (.inl rfl)
theorem encodeCommand_completed {i : Instr} {r} {s t : State} (h : encodeCommand r s = .next t) : Completed i s t := by
  simp only [encodeCommand] at h
  split at h
  · exact complete_completed h rfl id (.inl rfl) (.inl rfl)
  · obtain ⟨bs, _, _, h⟩ := withInBytes_next h
    obtain ⟨out, hw, h⟩ := withOutBytes_next h
    exact complete_completed h rfl hw (.inl rfl) (.inl rfl)
theorem decodeCommand_completed {i : Instr} {s t : State} (h : decodeCommand s = .next t) : Completed i s t := by
  simp only [decodeCommand] at h
  split at h
  · exact complete_completed h rfl id (.inl rfl) (.inl rfl)
  · obtain ⟨bs, _, _, h⟩ := withInBytes_next h
    obtain ⟨out, hw, h⟩ := withOutBytes_next h
    exact complete_completed h rfl hw (.inl rfl) (.inl rfl)
theorem crc8_completed {s t : State} (h : execCrc8 s = .next t) : Completed .crc8 s t := by
  simp only [execCrc8] at h
  split at h
  · exact complete_completed h rfl id (.inl rfl) (.inl rfl)
  · obtain ⟨bs, _, _, h⟩ := withInBytes_next h
    exact complete_completed h rfl id (.inl rfl) (.inl rfl)
theorem btnSample_completed {s t : State} (h : execBtnSample s = .next t) : Completed .btnSample s t := by
  simp only [execBtnSample] at h
  split at h
  · exact complete_completed h rfl id (.inl rfl) (.inl rfl)
  · rename_i h0
    split at h
    · exact complete_completed h rfl id (.inl rfl) (.inr (.inl rfl))
    · rename_i b _
      exact complete_completed h rfl id (.inl rfl) (.inr (.inr (.inl ⟨rfl, b, by simpa using h0, rfl⟩)))

/-- Every command but POLL_STEP, where it takes a next state, completes at that edge. -/
theorem command_completes {i : Instr} {s t : State} (h : exec i s = .next t) (hp : i ≠ .pollStep)
    (h1 : ∀ d, i ≠ .wirePoll d) (h2 : ∀ d, i ≠ .wireEcho d) (h3 : ∀ d, i ≠ .wireData d) : Completed i s t := by
  cases i with
  | encSize => exact sizeCommand_completed h
  | decSize => exact sizeCommand_completed h
  | encodeS => exact encodeCommand_completed h
  | encodeM => exact encodeCommand_completed h
  | decodeS => exact decodeCommand_completed h
  | decodeM => exact decodeCommand_completed h
  | encbS => exact byteCommand_completed h
  | encbM => exact byteCommand_completed h
  | decbS => exact byteCommand_completed h
  | decbM => exact byteCommand_completed h
  | isbS => exact byteCommand_completed h
  | isbM => exact byteCommand_completed h
  | crc8 => exact crc8_completed h
  | pollStep => exact absurd rfl hp
  | rxFlush => exact complete_completed h rfl id (.inr rfl) (.inl rfl)
  | btnSample => exact btnSample_completed h
  | btnReset => exact complete_completed h rfl id (.inl rfl) (.inr (.inr (.inr ⟨rfl, rfl⟩)))
  | invalid op => exact complete_completed h rfl id (.inl rfl) (.inl rfl)
  | wirePoll d => exact absurd rfl (h1 d)
  | wireEcho d => exact absurd rfl (h2 d)
  | wireData d => exact absurd rfl (h3 d)

/-- No opcode selects a wire byte. -/
theorem decodeOpcode_ne_wire (op : Byte) :
    (∀ d, decodeOpcode op ≠ .wirePoll d) ∧ (∀ d, decodeOpcode op ≠ .wireEcho d) ∧ (∀ d, decodeOpcode op ≠ .wireData d) := by
  have h : ∀ op : Byte, phaseOf (decodeOpcode op) = .echo ∧ ∃ w, encode (decodeOpcode op) = .cmd w := by
    intro op
    refine ⟨by revert op; decide, BitVec.setWidth 16 op, by revert op; decide⟩
  obtain ⟨_, w, hw⟩ := h op
  refine ⟨?_, ?_, ?_⟩ <;> intro d hd <;> rw [hd] at hw <;> cases hw

theorem decodeOpcode_pollStep (op : Byte) : decodeOpcode op = .pollStep ↔ op = pollStepOpcode := by
  revert op; decide
theorem decodeOpcode_btnReset (op : Byte) : decodeOpcode op = .btnReset ↔ op = 0x41 := by
  revert op; decide

/-- What an edge of the engine can do, whatever opcode it holds: a command completes, a call starts or is disabled, goes on or
ends. -/
theorem engineEdge_cases {s t : State} (h : exec s.fetch s = .next t) :
    (s.engine.opcode ≠ pollStepOpcode ∧ s.fetch = decodeOpcode s.engine.opcode ∧ Completed s.fetch s t) ∨
    (s.poll.bpe = .idle ∧ s.regs.terminalCount = 0 ∧ t = s.raiseResult .disabled) ∨
    (s.poll.bpe = .idle ∧ s.regs.terminalCount ≠ 0 ∧
      t = { s with poll := { s.poll with bpe := .tx, callId := nextPollId s.poll.nextId s.regs.terminalCount, txTaken := false } }) ∨
    (s.poll.bpe ≠ .idle ∧ CallGoesOn s t) ∨
    (s.poll.bpe ≠ .idle ∧ ∃ c, CallEnds s t c) := by
  rcases exec_fetch_cases s with he | ⟨ho, hf⟩
  · rw [he] at h
    by_cases hb : s.poll.bpe = .idle
    · simp only [execPollStep, hb, startCall] at h
      split at h
      · rename_i htc
        exact .inr (.inl ⟨hb, htc, by cases h; rfl⟩)
      · rename_i htc
        exact .inr (.inr (.inl ⟨hb, htc, by cases h; rfl⟩))
    · exact .inr (.inr (.inr ((pollEdge_cases s t hb h).imp (⟨hb, ·⟩) (⟨hb, ·⟩))))
  · have hw := decodeOpcode_ne_wire s.engine.opcode
    rw [← hf] at hw
    exact .inl ⟨ho, hf, command_completes h (fun hh => ho ((decodeOpcode_pollStep _).1 (hf ▸ hh))) hw.1 hw.2.1 hw.2.2⟩

/-- The same, where the engine holds a POLL_STEP in every phase of a call. -/
theorem fetched_cases {s t : State} (ho : s.poll.bpe ≠ .idle → s.engine.opcode = pollStepOpcode) (h : exec s.fetch s = .next t) :
    (s.poll.bpe = .idle ∧ s.engine.opcode ≠ pollStepOpcode ∧ Completed (decodeOpcode s.engine.opcode) s t) ∨
    (s.poll.bpe = .idle ∧ s.engine.opcode = pollStepOpcode ∧ s.regs.terminalCount = 0 ∧ t = s.raiseResult .disabled) ∨
    (s.poll.bpe = .idle ∧ s.engine.opcode = pollStepOpcode ∧ s.regs.terminalCount ≠ 0 ∧
      t = { s with poll := { s.poll with bpe := .tx, callId := nextPollId s.poll.nextId s.regs.terminalCount, txTaken := false } }) ∨
    (s.poll.bpe ≠ .idle ∧ CallGoesOn s t) ∨
    (s.poll.bpe ≠ .idle ∧ ∃ c, CallEnds s t c) := by
  by_cases hop : s.engine.opcode = pollStepOpcode
  · rcases engineEdge_cases h with ⟨hn, _⟩ | ⟨hb, htc, rfl⟩ | ⟨hb, htc, rfl⟩ | h | h
    · exact absurd hop hn
    · exact .inr (.inl ⟨hb, hop, htc, rfl⟩)
    · exact .inr (.inr (.inl ⟨hb, hop, htc, rfl⟩))
    · exact .inr (.inr (.inr (.inl h)))
    · exact .inr (.inr (.inr (.inr h)))
  · have hb : s.poll.bpe = .idle := Classical.byContradiction fun hb => hop (ho hb)
    have hf : s.fetch = decodeOpcode s.engine.opcode := by unfold State.fetch; rw [hb]
    have hw := decodeOpcode_ne_wire s.engine.opcode
    rw [hf] at h
    exact .inl ⟨hb, hop, command_completes h (fun hh => hop ((decodeOpcode_pollStep _).1 hh)) hw.1 hw.2.1 hw.2.2⟩

/-! ### The host access -/

/-- The sample field has no bit from ADC_WIDTH up. -/
theorem sampleField_lt (p : Config.Params) (h : legalParams p = true) (v : Reg16) : (sampleField p.adcWidth v).toNat < 2 ^ p.adcWidth := by
  unfold sampleField
  have h2 : 0 < 2 ^ p.adcWidth := Nat.two_pow_pos _
  have h3 : 2 ^ p.adcWidth ≤ 2 ^ 16 := Nat.pow_le_pow_right (by decide) (by simp [legalParams] at h; omega)
  have : (v &&& BitVec.ofNat 16 (2 ^ p.adcWidth - 1)).toNat ≤ 2 ^ p.adcWidth - 1 := by
    rw [BitVec.toNat_and, BitVec.toNat_ofNat, Nat.mod_eq_of_lt (a := 2 ^ p.adcWidth - 1) (by omega)]
    exact Nat.and_le_right
  omega

/-- A command's latency is in 1..LAT_MAX. -/
theorem commandLatency_bounds (s : State) : 1 ≤ s.commandLatency ∧ (1 ≤ s.params.latMax → s.commandLatency ≤ s.params.latMax) := by
  unfold State.commandLatency
  split
  · omega
  · have := Nat.mod_lt (Config.latencyChoice s.issued) (y := s.params.latMax) (by omega)
    omega

/-- The register map names no index outside IN_BUF. -/
theorem bufIndex_lt (a : BitVec 7) (i : Nat) (h : regAt a = .inBuf i) : i < bufBytes := by
  unfold regAt at h
  simp only at h
  unfold bufBytes
  split_ifs at h
  · cases h; omega
  · exfalso
    revert h
    generalize a.toNat = n
    have : ∀ x ∈ lowRegisters, x ≠ RegName.inBuf i := by
      intro x hx; fin_cases hx <;> simp
    intro h
    rw [List.getD_eq_getElem?_getD] at h
    cases hg : lowRegisters[n]? with
    | none => rw [hg] at h; cases h
    | some x => rw [hg] at h; exact this x (List.mem_of_getElem? hg) h

/-- A detection leaves a run with a count. -/
theorem detect_run (r : HostRegs) (u : ButtonUnit) (b : Button) : (detect r u b).last = some b ∧ (detect r u b).count ≠ 0 := by
  have hs : ∀ c : Byte, satIncr c ≠ 0 := by decide
  unfold detect
  dsimp only
  split_ifs <;> exact ⟨by simp, by simp [show ¬satIncr u.count = 0#8 from hs u.count]⟩

end Sys2Proof.Machine
end

