-- ==== Sys2Proof/Laws/Script.lean ====
section
/-! SUPPORT. The meanings read no port but `tx_ready` and `tx_done`: the rest of the script does not matter to them. -/

namespace Sys2Proof.Machine

/-- The state with other inputs to come. -/
def State.withScript (s : State) (l : List Ports) : State := { s with script := l }
/-- The answer with other inputs to come. -/
def Answer.withScript (a : Answer) (l : List Ports) : Answer :=
  match a with
  | .next t => .next (t.withScript l)
  | .fault f => .fault f
  | .refused r => .refused r

theorem Answer.withScript_ite (c : Prop) [Decidable c] (a b : Answer) (l : List Ports) :
    Answer.withScript (if c then a else b) l = if c then Answer.withScript a l else Answer.withScript b l := by
  split_ifs <;> rfl
theorem complete_withScript (c : Result) (s : State) (l : List Ports) :
    complete c (s.withScript l) = Answer.withScript (complete c s) l := rfl
theorem finishCall_withScript (c : Result) (p : List Byte) (s : State) (l : List Ports) :
    finishCall c p (s.withScript l) = Answer.withScript (finishCall c p s) l := by
  rw [finishCall_eq, finishCall_eq]; rfl
theorem State.withInBytes_withScript (s : State) (n : Nat) (r r' : List Byte → Answer) (l : List Ports)
    (h : ∀ bs, r' bs = Answer.withScript (r bs) l) :
    (s.withScript l).withInBytes n r' = Answer.withScript (s.withInBytes n r) l := by
  simp only [State.withInBytes, Answer.withScript_ite]
  congr 1
  change (match Memory.readMany s.inBuf 0 n with | .error i => _ | .ok bs => r' bs) = _
  cases Memory.readMany s.inBuf 0 n with
  | error i => rfl
  | ok bs => exact h bs
theorem State.withOutBytes_withScript (s : State) (v : List Byte) (r r' : State → Answer) (l : List Ports)
    (h : ∀ t : State, r' (t.withScript l) = Answer.withScript (r t) l) :
    (s.withScript l).withOutBytes v r' = Answer.withScript (s.withOutBytes v r) l := by
  simp only [State.withOutBytes, Answer.withScript_ite]
  congr 1
  exact h { s with outBuf := _ }
theorem takeEcho_withScript (b : Byte) (e : Bool) (s : State) (l : List Ports) :
    takeEcho b e (s.withScript l) = Answer.withScript (takeEcho b e s) l := by
  rw [takeEcho_eq, takeEcho_eq, Answer.withScript_ite, ← finishCall_withScript]; rfl
theorem checkReply_withScript (s : State) (l : List Ports) :
    checkReply (s.withScript l) = Answer.withScript (checkReply s) l := by
  simp only [checkReply, Answer.withScript_ite, ← finishCall_withScript]; rfl
theorem takeData_withScript (b : Byte) (e : Bool) (s : State) (l : List Ports) :
    takeData b e (s.withScript l) = Answer.withScript (takeData b e s) l := by
  simp only [takeData, Answer.withScript_ite, ← finishCall_withScript, ← checkReply_withScript]; rfl
theorem windowEdge_withScript (c : Result) (s : State) (l : List Ports) :
    windowEdge c (s.withScript l) = Answer.withScript (windowEdge c s) l := by
  simp only [windowEdge, Answer.withScript_ite, ← finishCall_withScript]; rfl
theorem transmitEdge_withScript (s : State) (l : List Ports) (h1 : (l.headD idlePorts).txReady = s.ports.txReady)
    (h2 : (l.headD idlePorts).txDone = s.ports.txDone) :
    transmitEdge (s.withScript l) = Answer.withScript (transmitEdge s) l := by
  have e1 : (s.withScript l).ports.txReady = s.ports.txReady := h1
  have e2 : (s.withScript l).ports.txDone = s.ports.txDone := h2
  simp only [transmitEdge, e1, e2, Answer.withScript_ite]; rfl
theorem takeByte_withScript (b : Byte) (s : State) (l : List Ports) :
    takeByte b (s.withScript l) = Answer.withScript (takeByte b s) l := by
  unfold takeByte
  change (match s.poll.bpe with | .idle => _ | .tx => _ | .waitId => _ | .waitData => _) = _
  cases s.poll.bpe
  · rfl
  · rfl
  · exact takeEcho_withScript b false s.popRx l
  · exact takeData_withScript b false s.popRx l
theorem encodeCommand_withScript (r : Bool) (s : State) (l : List Ports) :
    encodeCommand r (s.withScript l) = Answer.withScript (encodeCommand r s) l := by
  simp only [encodeCommand, Answer.withScript_ite]
  congr 1
  exact State.withInBytes_withScript s _ _ _ l fun bs => State.withOutBytes_withScript s _ _ _ l fun t => rfl
theorem decodeCommand_withScript (s : State) (l : List Ports) :
    decodeCommand (s.withScript l) = Answer.withScript (decodeCommand s) l := by
  simp only [decodeCommand, Answer.withScript_ite]
  congr 1
  exact State.withInBytes_withScript s _ _ _ l fun bs => State.withOutBytes_withScript s _ _ _ l fun t => rfl

/-- A meaning reads no port but `tx_ready` and `tx_done`, and leaves the inputs to come. -/
theorem exec_withScript (i : Instr) (s : State) (l : List Ports) (h1 : (l.headD idlePorts).txReady = s.ports.txReady)
    (h2 : (l.headD idlePorts).txDone = s.ports.txDone) : exec i (s.withScript l) = Answer.withScript (exec i s) l := by
  cases i with
  | encSize => simp only [exec, execEncSize, sizeCommand, Answer.withScript_ite]; rfl
  | decSize => simp only [exec, execDecSize, sizeCommand, Answer.withScript_ite]; rfl
  | encodeS => exact encodeCommand_withScript ..
  | encodeM => exact encodeCommand_withScript ..
  | decodeS => exact decodeCommand_withScript ..
  | decodeM => exact decodeCommand_withScript ..
  | encbS => rfl
  | encbM => rfl
  | decbS => rfl
  | decbM => rfl
  | isbS => rfl
  | isbM => rfl
  | crc8 =>
    simp only [exec, execCrc8, Answer.withScript_ite]
    congr 1
    exact State.withInBytes_withScript s _ _ _ l fun bs => rfl
  | pollStep =>
    simp only [exec, execPollStep]
    change (match s.poll.bpe, s.rxFifo with | .idle, _ => _ | .tx, _ => _ | .waitId, [] => _ | .waitId, e :: _ => _ | .waitData, [] => _ | .waitData, e :: _ => _) = _
    cases s.poll.bpe
    · simp only [startCall, Answer.withScript_ite]; rfl
    · exact transmitEdge_withScript _ _ h1 h2
    · cases s.rxFifo
      · exact windowEdge_withScript ..
      · exact takeEcho_withScript _ _ s.popRx _
    · cases s.rxFifo
      · exact windowEdge_withScript ..
      · exact takeData_withScript _ _ s.popRx _
  | rxFlush => rfl
  | btnSample =>
    simp only [exec, execBtnSample, Answer.withScript_ite]
    congr 1
    have h : readButton (s.withScript l).regs (s.withScript l).operandSample = readButton s.regs s.operandSample := rfl
    rw [h]
    cases readButton s.regs s.operandSample <;> rfl
  | btnReset => rfl
  | invalid op => rfl
  | wirePoll id =>
    simp only [exec, execWirePoll]
    have h : (s.withScript l).poll.bpe = s.poll.bpe := rfl
    rw [h]
    cases hb : s.poll.bpe
    · exact takeByte_withScript ..
    · dsimp only
      rw [← hb]
      exact transmitEdge_withScript { s with poll.callId := id } _ h1 h2
    · exact takeByte_withScript ..
    · exact takeByte_withScript ..
  | wireEcho id => exact takeByte_withScript ..
  | wireData d => exact takeByte_withScript ..

/-! ### The edge -/

theorem State.arrive_withScript (s : State) (l : List Ports) (p : Ports) :
    (s.withScript l).arrive p = (s.arrive p).withScript l := by
  unfold State.arrive State.pushRx
  by_cases hx : p.rxValid = true
  · by_cases hf : s.rxFull = true
    · have hf2 : (s.withScript l).rxFull = true := hf
      rw [if_pos hx, if_pos hx, if_pos hf, if_pos hf2]; rfl
    · have hf2 : ¬(s.withScript l).rxFull = true := hf
      rw [if_pos hx, if_pos hx, if_neg hf, if_neg hf2]; rfl
  · rw [if_neg hx, if_neg hx]

theorem State.tick_withScript (s : State) (l : List Ports) (p : Ports) :
    (s.withScript l).tick p = (s.tick p).withScript l := by
  unfold State.tick
  by_cases ht : p.tickMs = true
  · rw [if_pos ht, if_pos ht]; rfl
  · rw [if_neg ht, if_neg ht]

theorem State.engineStep_withScript (s : State) (l : List Ports) (h1 : (l.headD idlePorts).txReady = s.ports.txReady)
    (h2 : (l.headD idlePorts).txDone = s.ports.txDone) :
    (s.withScript l).engineStep = Answer.withScript s.engineStep l := by
  simp only [State.engineStep, Answer.withScript_ite]
  have hf : (s.withScript l).fetch = s.fetch := rfl
  rw [hf, exec_withScript _ _ _ h1 h2]
  rfl

end Sys2Proof.Machine
end

