-- ==== Sys2Proof/Machine/HostNotation.lean ====
section
/-! DEFINITION. The host-program notation of 30_encoding.md R96: how WR, RD, WAIT_DONE and the pseudo-instructions become
register accesses. The host stands outside the block (10_state.md R21); nothing of the machine depends on this file. -/

namespace Sys2Proof.Machine

/-- The address of a register, the inverse of `regAt` (30_encoding.md R84); 0x1C, a reserved one, for `reserved`. -/
def regAddress : RegName → BitVec 7
  | .inBuf i => BitVec.ofNat 7 (0x20 + i)
  | .outBuf i => BitVec.ofNat 7 (0x40 + i)
  | .reserved => 0x1C
  | r => BitVec.ofNat 7 (lowRegisters.idxOf r)

/-- One line of a host program (30_encoding.md R96). -/
inductive HostInstr where
  | wr (r : RegName) (v : Reg16)
  | rd (r : RegName)
  | waitDone
  | command (opcode : Byte)
  | clrDone
  | loadIn (bytes : List Byte)
  deriving DecidableEq, Repr

/-- The accesses a host makes: one write, one read, or reading STATUS until DONE is 1. -/
inductive HostAccess where
  | write (a : BitVec 7) (v : Reg16)
  | read (a : BitVec 7)
  | untilDone
  deriving DecidableEq, Repr

/-- LOAD_IN: one write for each byte, from IN_BUF[i] on. -/
def loadAccesses (i : Nat) : List Byte → List HostAccess
  | [] => []
  | b :: bs => .write (regAddress (.inBuf i)) (b.setWidth 16) :: loadAccesses (i + 1) bs

/-- The expansion of a line (30_encoding.md R96). -/
def HostInstr.expand : HostInstr → List HostAccess
  | .wr r v => [.write (regAddress r) v]
  | .rd r => [.read (regAddress r)]
  | .waitDone => [.untilDone]
  | .command op => [.write (regAddress .cmd) (op.setWidth 16), .untilDone]
  | .clrDone => [.write (regAddress .status) 0x0020]
  | .loadIn bytes => loadAccesses 0 bytes

/-- The state with a host access on the ports of its next edge, the environment's other inputs kept. -/
def State.present (s : State) (a : BitVec 7) (we : Bool) (v : Reg16) : State :=
  { s with script := { s.ports with regAddr := a, regWe := we, regWdata := v } :: s.script.tail }

/-- A host program against the block, one access an edge, at most `fuel` edges. WAIT_DONE repeats its read of STATUS at every
edge until the value read has DONE = 1. Answers the state where the program or the fuel ends. -/
def hostRun : Nat → List HostAccess → State → Answer
  | 0, _, s => .next s
  | _ + 1, [], s => .next s
  | fuel + 1, .write a v :: p, s =>
    match step (s.present a true v) with
    | .next t => hostRun fuel p t
    | .fault f => .fault f
    | .refused r => .refused r
  | fuel + 1, .read a :: p, s =>
    match step (s.present a false 0) with
    | .next t => hostRun fuel p t
    | .fault f => .fault f
    | .refused r => .refused r
  | fuel + 1, .untilDone :: p, s =>
    match step (s.present (regAddress .status) false 0) with
    | .next t => hostRun fuel (if s.statusWord.getLsbD 5 then p else .untilDone :: p) t
    | .fault f => .fault f
    | .refused r => .refused r

end Sys2Proof.Machine
end

