-- ==== Sys2Proof/Tests/Slice0.lean ====
section
/-! SUPPORT. Tests on fixed values, and for each statement with hypotheses a state and operands that meet them. Expected values
are those of 95_test_vectors.md; the vector is named beside each. -/

namespace Sys2Proof.Tests

open Sys2Proof Sys2Proof.Machine Sys2Proof.Claims

/-! ### States the tests start from -/

/-- The next state of an answer, if it is one. -/
def after : Answer → Option State
  | .next t => some t
  | .fault _ | .refused _ => none

/-- The refusal of an answer, if it is one. -/
def refusal : Answer → Option Refusal
  | .refused r => some r
  | .next _ | .fault _ => none

/-- Reset, with these bytes in IN_BUF and their number in ARG_N. -/
def withIn (bytes : List Byte) : State :=
  { State.reset with
    inBuf := Memory.writeMany [] 0 bytes
    regs := { State.reset.regs with argN := BitVec.ofNat 8 bytes.length } }

/-- Reset, with this count in ARG_N. -/
def withN (n : Byte) : State := { State.reset with regs := { State.reset.regs with argN := n } }

/-- Reset, with this byte in ARG_BYTE. -/
def withByte (b : Byte) : State := { State.reset with regs := { State.reset.regs with argByte := b } }

/-- The first `k` bytes of OUT_BUF after an answer. -/
def outBytes (a : Answer) (k : Nat) : Option (List (Option Byte)) :=
  (after a).map fun t => (List.range k).map (Memory.read t.outBuf)

/-- RES_BYTE after an answer. -/
def resByteOf (a : Answer) : Option Byte := (after a).map (·.resByte)

/-- The engine about to run a command of opcode `op`, an idle environment ahead. -/
def running (op : Byte) (s : State) : State :=
  { s with
    status := { s.status with busy := true, done := false }
    engine := { opcode := op, latLeft := 1, debounceAtIssue := s.btn.left } }

/-- A call to terminal 1 of 13 in the given phase. -/
def calling (ph : BpeState) : State :=
  let s := running 0x30 State.reset
  { s with
    regs := { s.regs with terminalCount := 13 }
    poll := { s.poll with bpe := ph, callId := 1, winLeft := 30 } }

/-- A call that has taken three payload bytes, the fourth the oldest FIFO entry. -/
def fourth (b0 b1 b2 b3 : Byte) : State :=
  let s := calling .waitData
  { s with
    poll := { s.poll with dataCnt := 3, frame := { b0 := b0, b1 := b1, b2 := b2, b3 := 0 } }
    rxFifo := [{ data := b3, err := false }] }

/-- The same state with the error-free bytes in the FIFO. -/
def withRx (s : State) (l : List Byte) : State := { s with rxFifo := l.map fun b => { data := b, err := false } }

/-- An edge that presents an error-free byte. -/
def edgeWith (b : Byte) : Ports := { idlePorts with rxValid := true, rxData := b }

/-- An edge with a Tick. -/
def edgeTick : Ports := { idlePorts with tickMs := true }

/-- An edge with a host write. -/
def edgeWrite (a : BitVec 7) (v : Reg16) : Ports := { idlePorts with regWe := true, regAddr := a, regWdata := v }

/-- The classifier configuration of section 2.8, with a sample and no debounce. -/
def ladder (sample : Reg16) : State :=
  { State.reset with
    regs := { State.reset.regs with
      argSample := sample, edgeThreshold := 1000, debounceMs := 0
      btnMean1 := 100, btnMean2 := 300, btnMean3 := 500, btnInterval1 := 50, btnInterval2 := 50, btnInterval3 := 50 } }

/-! ### WellFormed: the one check -/

theorem test_wellFormed_refuses_invalid_with_legal_opcode :
    (Instr.invalid 0x10).wellFormed = false ∧ (Instr.invalid 0x41).wellFormed = false ∧
    (Instr.invalid 0x42).wellFormed = true ∧ (Instr.invalid 0x00).wellFormed = true := by decide

/-! ### Decoding of words written out from 30_encoding.md R82 and R85 to R87, one for each constructor -/

theorem test_decode_encSize : decodeCmd 0b0000000000010000#16 = .encSize := by decide
theorem test_decode_decSize : decodeCmd 0b0000000000010001#16 = .decSize := by decide
theorem test_decode_encodeS : decodeCmd 0b0000000000010010#16 = .encodeS := by decide
theorem test_decode_encodeM : decodeCmd 0b0000000000010011#16 = .encodeM := by decide
theorem test_decode_decodeS : decodeCmd 0b0000000000010100#16 = .decodeS := by decide
theorem test_decode_decodeM : decodeCmd 0b0000000000010101#16 = .decodeM := by decide
theorem test_decode_encbS : decodeCmd 0b0000000000010110#16 = .encbS := by decide
theorem test_decode_encbM : decodeCmd 0b0000000000010111#16 = .encbM := by decide
theorem test_decode_decbS : decodeCmd 0b0000000000011000#16 = .decbS := by decide
theorem test_decode_decbM : decodeCmd 0b0000000000011001#16 = .decbM := by decide
theorem test_decode_isbS : decodeCmd 0b0000000000011010#16 = .isbS := by decide
theorem test_decode_isbM : decodeCmd 0b0000000000011011#16 = .isbM := by decide
theorem test_decode_crc8 : decodeCmd 0b0000000000100000#16 = .crc8 := by decide
theorem test_decode_pollStep : decodeCmd 0b0000000000110000#16 = .pollStep := by decide
theorem test_decode_rxFlush : decodeCmd 0b0000000000110001#16 = .rxFlush := by decide
theorem test_decode_btnSample : decodeCmd 0b0000000001000000#16 = .btnSample := by decide
theorem test_decode_btnReset : decodeCmd 0b0000000001000001#16 = .btnReset := by decide
/-- H1: 0x0000, 0x0021, 0x0042 and 0x00FF are INVALID. -/
theorem test_decode_invalid :
    decodeCmd 0x0000 = .invalid 0x00 ∧ decodeCmd 0x0021 = .invalid 0x21 ∧ decodeCmd 0x0042 = .invalid 0x42 ∧
    decodeCmd 0x00FF = .invalid 0xFF := by decide
/-- H2: bits [15:8] are ignored. -/
theorem test_decode_ignores_high_byte : decodeCmd 0x1210 = .encSize := by decide
/-- S15: device 12 is polled by 0x8C and echoes 0x0C. -/
theorem test_decode_wirePoll : decodeWire .echo 0b10001100#8 = .wirePoll 12 := by decide
theorem test_decode_wireEcho : decodeWire .echo 0b00001100#8 = .wireEcho 12 := by decide
theorem test_decode_wireData : decodeWire .data 0b01111110#8 = .wireData 0x7E := by decide

/-! ### WireCodec and FrameCRC (sections 2.1 to 2.6) -/

theorem test_encSize_255_is_292 : (after (exec .encSize (withN 255))).map (·.resN) = some 292 := by decide
theorem test_decSize_9_is_7 : (after (exec .decSize (withN 9))).map (·.resN) = some 7 := by decide
theorem test_decSize_zero_is_invalid_argument :
    (after (exec .decSize (withN 0))).map (fun t => (t.status.result, t.resN)) = some (.invalidArg, 0) := by decide
theorem test_encodeS_bytes :
    outBytes (exec .encodeS (withIn [0x12, 0x34])) 4 = some [some 0x12, some 0x68, some 0x00, none] := by decide
theorem test_encodeM_bytes :
    outBytes (exec .encodeM (withIn [0xFF, 0xC7, 0x8C])) 4 = some [some 0xFF, some 0x8F, some 0xB3, some 0x84] := by decide
theorem test_encodeM_29_is_invalid_argument :
    (after (exec .encodeM (withN 29))).map (·.status.result) = some .invalidArg := by decide
theorem test_decodeS_reads_no_trailing_bits :
    outBytes (exec .decodeS (withIn [0x12, 0x68, 0x7F])) 3 = some [some 0x12, some 0xF4, none] := by decide
theorem test_decodeM_bytes :
    outBytes (exec .decodeM (withIn [0x92, 0xE8, 0x80])) 3 = some [some 0x12, some 0x34, none] := by decide
theorem test_decodeS_one_byte_is_invalid_argument :
    (after (exec .decodeS (withIn [0x55]))).map (·.status.result) = some .invalidArg := by decide
theorem test_encbS_clears_bit_7 : resByteOf (exec .encbS (withByte 0x85)) = some 0x05 := by decide
theorem test_encbM_sets_bit_7 : resByteOf (exec .encbM (withByte 0x05)) = some 0x85 := by decide
theorem test_decbS_clears_bit_7 : resByteOf (exec .decbS (withByte 0xFF)) = some 0x7F := by decide
theorem test_decbM_clears_bit_7 : resByteOf (exec .decbM (withByte 0x80)) = some 0x00 := by decide
theorem test_isbS : resByteOf (exec .isbS (withByte 0x7F)) = some 1 ∧ resByteOf (exec .isbS (withByte 0x80)) = some 0 := by
  decide
theorem test_isbM : resByteOf (exec .isbM (withByte 0x80)) = some 1 ∧ resByteOf (exec .isbM (withByte 0x7F)) = some 0 := by
  decide
theorem test_crc8_bytes : resByteOf (exec .crc8 (withIn [0x12, 0x34])) = some 0xF1 := by decide +kernel
theorem test_crc8_of_nothing :
    (after (exec .crc8 State.reset)).map (fun t => (t.status.result, t.resByte)) = some (.ok, 0) := by decide
/-- Section 2.6, trimmer 341 with states 1, 2, 3. -/
theorem test_replyFrame : replyFrame 341 0x39 = [0x55, 0x4A, 0x63, 0x07] := by decide +kernel

/-! ### BusPollingEngine (section 2.7) -/

/-- P1: DISABLED leaves POLL_NEXT_ID. -/
theorem test_pollStep_disabled :
    (after (exec .pollStep { State.reset with poll := { State.reset.poll with nextId := 5 } })).map
      (fun t => (t.status.result, t.poll.nextId)) = some (.disabled, 5) := by decide
/-- P15: stored id 10, count 5: 0x81 is sent. -/
theorem test_pollStep_sends_next_poll_byte :
    (after (exec .pollStep { State.reset with
      regs := { State.reset.regs with terminalCount := 5 }, poll := { State.reset.poll with nextId := 10 } })).map
      (·.txOffer) = some (some 0x81) := by decide
theorem test_wirePoll_is_taken_when_ready :
    (after (exec (.wirePoll 1) { calling .tx with script := [{ idlePorts with txReady := true }] })).map
      (fun t => (t.txOffer, t.poll.bpe)) = some (none, .tx) := by decide
/-- P5: the master-marked echo. -/
theorem test_wirePoll_received_is_invalid_response :
    (after (exec (.wirePoll 1) (withRx (calling .waitId) [0x81]))).map
      (fun t => (t.status.result, t.poll.dev, t.rxFifo)) = some (.invalidResponse, 1, []) := by decide
theorem test_wireEcho_opens_data_window :
    (after (exec (.wireEcho 1) (withRx (calling .waitId) [0x01]))).map
      (fun t => (t.poll.bpe, t.poll.winLeft, t.rxFifo)) = some (.waitData, 100, []) := by decide
/-- P6: the wrong id. -/
theorem test_wireEcho_wrong_id :
    (after (exec (.wireEcho 2) (withRx (calling .waitId) [0x02, 0x55]))).map
      (fun t => (t.status.result, t.poll.nextId, t.rxFifo)) = some (.invalidResponse, 1, []) := by decide
/-- P4: the fourth byte. -/
theorem test_wireData_reports_reply :
    (after (exec (.wireData 0x04) (fourth 0x7F 0x0F 0x33 0x04))).map
      (fun t => (t.status.result, t.poll.trim, t.poll.btn, t.poll.crcCalc ++ t.poll.crcRx)) =
      some (.ok, 1023, 0x31, 0x8C8C#16) := by decide +kernel
/-- P10: one bit wrong. -/
theorem test_wireData_reports_crc_error :
    (after (exec (.wireData 0x04) (fourth 0x7E 0x0F 0x33 0x04))).map
      (fun t => (t.status.result, t.poll.trim, t.poll.crcCalc ++ t.poll.crcRx)) =
      some (.invalidCrc, 0, 0x998C#16) := by decide +kernel
theorem test_rxFlush_empties_and_keeps_rxovr :
    (after (exec .rxFlush { withRx State.reset [1, 2, 3] with status := { State.reset.status with rxOvr := true } })).map
      (fun t => (t.rxFifo, t.status.rxOvr, t.status.result)) = some ([], true, .ok) := by decide
/-- W1: the echo arrives at the edge of the window's last Tick and is taken. -/
theorem test_step_takes_byte_at_last_tick :
    (after (step { calling .waitId with
      poll := { (calling .waitId).poll with winLeft := 1 }
      script := [{ edgeWith 0x01 with tickMs := true }] })).map (·.poll.bpe) = some .waitData := by decide

/-! ### ButtonClassifier (sections 2.8, 2.9) -/

theorem test_btnSample_first_detection :
    (after (exec .btnSample (ladder 120))).map (fun t => (t.resByte, t.btn.statesField, t.btn.runWord)) =
      some (1, 0x01, 0x0101) := by decide
/-- B7: Held wins over DoublePressed. -/
theorem test_btnSample_held_wins :
    (after (exec .btnSample { ladder 120 with
      regs := { (ladder 120).regs with heldThreshold := 1 }
      btn := { State.reset.btn with st1 := .pressed, last := some .b1, count := 1 } })).map
      (fun t => (t.btn.st1, t.btn.runWord)) = some (.held, 0x0201) := by decide
theorem test_read_button_bounds :
    [49, 50, 150, 151, 350, 500, 999, 1000].map (fun x => buttonNumber (readButton (ladder x).regs x)) =
      [0, 1, 1, 0, 2, 3, 0, 0] := by decide
/-- B8: the run survives. -/
theorem test_btnReset_keeps_run :
    (after (exec .btnReset { State.reset with
      btn := { State.reset.btn with st1 := .held, st3 := .pressed, last := some .b1, count := 6 } })).map
      (fun t => (t.btn.statesField, t.btn.runWord)) = some (0, 0x0601) := by decide

/-! ### Host interface (section 2.10) -/

/-- H1: STATUS after an illegal opcode. -/
theorem test_invalid_status : (after (exec (.invalid 0) State.reset)).map (·.statusWord) = some 0x002E := by decide
/-- H3: a write in WAIT_ID is lost. -/
theorem test_step_write_while_busy_is_lost :
    (after (step { calling .waitId with script := [edgeWrite 0x03 5] })).map (fun t => (t.statusWord, t.regs.argN)) =
      some (0x0281, 0) := by decide
/-- H6: a write to 0x60 changes nothing; 0x1C and 0x7F read 0. -/
theorem test_reserved_addresses :
    regAt 0x1C = .reserved ∧ regAt 0x7F = .reserved ∧ regAt 0x60 = .reserved ∧ State.reset.readReg .reserved = 0 := by decide
/-- Section 3, lines 1 to 5: the host computes the CRC of its payload. -/
theorem test_host_program_crc :
    (after (hostRun 20 ([HostInstr.loadIn [0xFF, 0xC7], .wr .argN 2, .command 0x20].flatMap HostInstr.expand)
      State.reset)).map (fun t => t.readReg .resByte) = some 0x008C := by decide +kernel
/-- A CRC over a byte the host has not written is refused. -/
theorem test_unwritten_byte_is_refused : refusal (exec .crc8 (withN 1)) = some (.inBufNotWritten 0) := by decide

/-! ### Witnesses: for each statement with hypotheses, states and operands that meet them, at the ends of each clause -/

/-- A property of the next state, read off a closed computation. -/
theorem next_of_after {a : Answer} {P : State → Prop} [DecidablePred P]
    (h : (after a).any (fun t => decide (P t)) = true) : ∃ t, a = .next t ∧ P t := by
  cases a with
  | next t => exact ⟨t, rfl, by simpa [after] using h⟩
  | fault f => simp [after] at h
  | refused r => simp [after] at h

/-- Reset, with `n` bytes 0x55 in IN_BUF and `n` in ARG_N. -/
def filled (n : Nat) : State := withIn (List.replicate n 0x55)

/-- What the host copies from OUT_BUF into IN_BUF after ENCODE.S, with the size in ARG_N. -/
def copied (n : Nat) : State :=
  { withN (BitVec.ofNat 8 (encodedSize n)) with
    inBuf := ((after (exec .encodeS (filled n))).map (·.outBuf)).getD [] }

/-- The state with one edge of input. -/
def withEdge (s : State) (p : Ports) : State := { s with script := [p] }

/-- An edge with reset. -/
def edgeReset : Ports := { idlePorts with rst := true }

/-- The state with WIN_LEFT set. -/
def withWindow (s : State) (n : Reg16) : State := { s with poll := { s.poll with winLeft := n } }

/-- The state with button 1 Held. -/
def withHeld (s : State) : State := { s with btn := { s.btn with st1 := .held } }

/-- The CRC of the first two payload bytes of a frame against the third (42_polling.md R157, R158). -/
def crcFits (b0 b1 b2 b3 : Byte) : Bool :=
  crc8 [b1.extractLsb' 0 1 ++ b0.extractLsb' 0 7, b2.extractLsb' 0 2 ++ b1.extractLsb' 1 6] =
    (b3.extractLsb' 0 3 ++ b2.extractLsb' 2 5 : Byte)

theorem filled_written : (filled 1).inBufWritten 1 ∧ (filled 2).inBufWritten 2 ∧ (filled 28).inBufWritten 28 ∧
    (filled 32).inBufWritten 32 ∧ (filled 0).inBufWritten 0 := by
  unfold State.inBufWritten; decide +kernel

theorem filled_argN : (filled 1).regs.argN.toNat = 1 ∧ (filled 2).regs.argN.toNat = 2 ∧
    (filled 28).regs.argN.toNat = 28 ∧ (filled 32).regs.argN.toNat = 32 ∧ (filled 0).regs.argN.toNat = 0 := by
  decide

theorem witness_decodeOfEncodeIsIdentity :
    (Instr.invalid 0x42).wellFormed = true ∧ (Instr.wireData 0x7F).wellFormed = true := by decide

theorem witness_wireBytesAreClassified : (0x80 : Byte).getLsbD 7 = true ∧ (0x7F : Byte).getLsbD 7 = false := by decide

theorem witness_sizeCommands : (withN 0).regs.argN = 0 ∧ (withN 1).regs.argN ≠ 0 ∧ (withN 255).regs.argN ≠ 0 := by decide

theorem witness_encode_rejected : (withN 0).regs.argN.toNat = 0 ∧ 28 < (withN 29).regs.argN.toNat := by decide

/-- ENCODE.x of 1 and 28 bytes, DECODE.x of 2 and 32: `filled_written` with these counts. -/
theorem witness_encode_decode_accepted :
    (1 ≤ (filled 1).regs.argN.toNat ∧ (filled 28).regs.argN.toNat ≤ 28) ∧
    (2 ≤ (filled 2).regs.argN.toNat ∧ (filled 32).regs.argN.toNat ≤ 32) := by decide

theorem witness_decode_rejected : (withN 1).regs.argN.toNat < 2 ∧ 32 < (withN 33).regs.argN.toNat := by decide

theorem witness_decodeOfEncodeGivesInputBack :
    ∃ s s1 s2 : State, 1 ≤ s.regs.argN.toNat ∧ s.regs.argN.toNat ≤ 28 ∧ s.inBufWritten s.regs.argN.toNat ∧
      exec (if false then .encodeM else .encodeS) s = .next s1 ∧
      (∀ i, i < s1.resN.toNat → Memory.read s2.inBuf i = Memory.read s1.outBuf i) ∧
      s2.regs.argN.toNat = s1.resN.toNat := by
  obtain ⟨s1, h, hr, hn⟩ := next_of_after (a := exec .encodeS (filled 28))
    (P := fun t => (∀ i, i < t.resN.toNat → Memory.read (copied 28).inBuf i = Memory.read t.outBuf i) ∧
      (copied 28).regs.argN.toNat = t.resN.toNat) (by decide +kernel)
  exact ⟨filled 28, s1, copied 28, by decide, by decide, filled_written.2.2.1, h, hr, hn⟩

theorem witness_unstuff_second_clause :
    2 ≤ [0x12, 0x68].length ∧ stuff false (unstuff [0x12, 0x68, 0x00]) = [0x12, 0x68, 0x00] ∧
    stuff false (unstuff [0x92, 0x68, 0x00]) ≠ [0x92, 0x68, 0x00] ∧
    stuff false (unstuff [0x12, 0x68, 0x7C]) ≠ [0x12, 0x68, 0x7C] := by decide +kernel

theorem witness_crc : 32 < (withN 33).regs.argN.toNat ∧ (filled 0).regs.argN.toNat ≤ 32 ∧
    (filled 32).regs.argN.toNat ≤ 32 := by decide

theorem witness_pollStep : State.reset.poll.bpe = .idle ∧ State.reset.regs.terminalCount = 0 ∧
    ∀ c ∈ [1, 127], ({ State.reset.regs with terminalCount := c } : HostRegs).terminalCount ≠ 0 := by decide

theorem witness_transmit : (calling .tx).poll.bpe = .tx := by decide

theorem witness_echo : (calling .waitId).poll.bpe = .waitId ∧ (1 : BitVec 7) = (calling .waitId).poll.callId ∧
    (2 : BitVec 7) ≠ (calling .waitId).poll.callId := by decide

/-- The echo itself, the master marker, another id and a reception error. -/
theorem witness_firstByte :
    (calling .waitId).engine.opcode = pollStepOpcode ∧
    [RxEntry.mk 0x01 false, .mk 0x81 false, .mk 0x02 false, .mk 0x01 true].map
      (fun e => decide (e.err = false ∧ e.data.getLsbD 7 = false ∧ e.data.extractLsb' 0 7 = (calling .waitId).poll.callId)) =
      [true, false, false, false] := by decide

theorem witness_dataByte : (calling .waitData).poll.dataCnt.toNat = 0 ∧
    ({ (calling .waitData).poll with dataCnt := 2 } : PollUnit).dataCnt.toNat < 3 := by decide

/-- A payload byte with the master marker joins the frame as it is (42_polling.md R157). -/
theorem witness_dataByte_any_marker :
    let s := withRx (calling .waitData) [0xFF]
    s.poll.bpe = .waitData ∧ s.poll.dataCnt.toNat < 3 ∧ s.rxFifo = { data := 0xFF, err := false } :: [] ∧
      (after (exec s.fetch s)).map (fun t => (t.poll.bpe, t.poll.dataCnt, t.poll.frame.b0)) =
        some (.waitData, 1, 0xFF) := by decide

theorem witness_erroredPayload :
    ∃ (s : State) (b : Byte) (rest : List RxEntry), s.engine.opcode = pollStepOpcode ∧ s.poll.bpe = .waitData ∧
      s.rxFifo = { data := b, err := true } :: rest :=
  ⟨{ calling .waitData with rxFifo := [{ data := 0x12, err := true }] }, 0x12, [], rfl, rfl, rfl⟩

/-- A reply that fits, one that does not, and one with a marker in its fourth byte under CHK_MARK. -/
theorem witness_fourthByte :
    (fourth 0x7F 0x0F 0x33 0x04).poll.bpe = .waitData ∧ (fourth 0x7F 0x0F 0x33 0x04).poll.dataCnt = 3 ∧
    crcFits 0x7F 0x0F 0x33 0x04 = true ∧ crcFits 0x7E 0x0F 0x33 0x04 = false ∧ (0x84 : Byte).getLsbD 7 = true := by
  decide +kernel

theorem witness_emptyWindow :
    [BpeState.waitId, .waitData].all (fun ph => decide ((calling ph).rxFifo = [] ∧ (calling ph).poll.bpe = ph ∧
      (withWindow (calling ph) 0).poll.winLeft = 0 ∧ (calling ph).poll.winLeft ≠ 0)) = true := by decide

/-- Each of the five endings of a call is met. -/
theorem witness_everyCallEnds :
    [withWindow (calling .waitId) 0, withWindow (calling .waitData) 0, withRx (calling .waitId) [0x81],
      fourth 0x7E 0x0F 0x33 0x04, fourth 0x7F 0x0F 0x33 0x04].map
      (fun s => (after (exec s.fetch s)).map (fun t => (s.engine.opcode, s.status.busy, t.status.busy, t.status.result))) =
    [Result.idle, .timeout, .invalidResponse, .invalidCrc, .ok].map (fun c => some (pollStepOpcode, true, false, c)) := by
  decide +kernel

theorem witness_assembledReplyIsReported :
    ∃ (s : State) (trim : BitVec 10) (btn : BitVec 6) (e d0 d1 d2 d3 : Ports) (rest : List Ports) (w0 w1 w2 w3 : Byte),
      legalParams s.params = true ∧ s.status.busy = true ∧ s.engine.opcode = pollStepOpcode ∧ s.engine.latLeft ≤ 1 ∧
      s.poll.bpe = .waitId ∧ s.rxFifo = [] ∧ replyFrame trim btn = [w0, w1, w2, w3] ∧
      s.script = e :: d0 :: d1 :: d2 :: d3 :: rest ∧ presents e (s.poll.callId.setWidth 8) ∧
      presents d0 w0 ∧ presents d1 w1 ∧ presents d2 w2 ∧ presents d3 w3 :=
  ⟨{ calling .waitId with script := [0x01, 0x55, 0x4A, 0x63, 0x07].map edgeWith }, 341, 0x39, edgeWith 0x01,
    edgeWith 0x55, edgeWith 0x4A, edgeWith 0x63, edgeWith 0x07, [], 0x55, 0x4A, 0x63, 0x07, rfl, rfl, rfl, Nat.le_refl 1,
    rfl, rfl, test_replyFrame, rfl, ⟨rfl, rfl, rfl, rfl⟩, ⟨rfl, rfl, rfl, rfl⟩, ⟨rfl, rfl, rfl, rfl⟩, ⟨rfl, rfl, rfl, rfl⟩,
    ⟨rfl, rfl, rfl, rfl⟩⟩

/-- The ID phase with one Tick left, and the data phase with two. -/
theorem witness_silentWindow :
    [(BpeState.waitId, 1, [idlePorts, idlePorts]), (.waitData, 2, [idlePorts, edgeTick])].all (fun x =>
      let s := { withWindow (calling x.1) x.2.1 with script := x.2.2 ++ edgeTick :: [] }
      decide (legalParams s.params = true ∧ s.status.busy = true ∧ s.engine.opcode = pollStepOpcode ∧
        s.engine.latLeft ≤ 1 ∧ s.poll.bpe = x.1 ∧ s.rxFifo = [] ∧
        (∀ q ∈ x.2.2 ++ [edgeTick], q.rst = false ∧ q.rxValid = false) ∧ edgeTick.tickMs = true ∧
        ticks x.2.2 + 1 = s.poll.winLeft.toNat)) = true := by decide

theorem witness_roundRobin : (1 : BitVec 7) ≠ 0 ∧ (127 : BitVec 7) ≠ 0 ∧ (0 : BitVec 7) < 1 ∧ (126 : BitVec 7) < 127 := by
  decide

/-- A call that starts with this state's POLL_STEP, and one the host issues after it, each ended by a wrong echo. -/
def twoCalls : State :=
  let call := [idlePorts, { idlePorts with txReady := true }, { idlePorts with txDone := true }, edgeWith 0x81]
  { running 0x30 State.reset with
    regs := { State.reset.regs with terminalCount := 13 }
    script := call ++ edgeWrite 0x00 0x0030 :: call }

theorem witness_roundRobin_calls : twoCalls.poll.bpe = .idle ∧
    (∀ j, j < 9 → (twoCalls.script.getD j idlePorts).rst = false ∧
      ¬((twoCalls.script.getD j idlePorts).regWe = true ∧ (twoCalls.script.getD j idlePorts).regAddr = 0x08)) ∧
    polledIds 9 twoCalls = [1, 2] := by decide +kernel

/-- RX_FLUSH with a byte arriving on a full FIFO and on one that is not full. -/
theorem witness_rxFlush :
    [withRx State.reset [1], withRx State.reset (List.replicate 16 1)].all (fun r =>
      let s := withEdge (running 0x31 r) (edgeWith 0x55)
      decide (legalParams s.params = true ∧ s.ports.rst = false ∧ s.status.busy = true ∧ s.engine.latLeft ≤ 1 ∧
        s.engine.opcode = 0x31 ∧ s.poll.bpe = .idle ∧ s.ports.regWe = false)) = true := by decide

theorem witness_sampleInDebounce :
    ({ (ladder 120).engine with debounceAtIssue := 1 } : Engine).debounceAtIssue ≠ 0 := by decide

theorem witness_noDetection : [49, 151, 1000].all (fun x => decide ((ladder x).engine.debounceAtIssue = 0 ∧
    readButton (ladder x).regs (ladder x).operandSample = none)) = true := by decide

theorem witness_detection : [(50, Button.b1), (150, .b1), (550, .b3)].all (fun x =>
    decide ((ladder x.1).engine.debounceAtIssue = 0 ∧
      readButton (ladder x.1).regs (ladder x.1).operandSample = some x.2)) = true := by decide

theorem witness_consecutiveDetections : State.reset.btn.state .b1 = .idle ∧ State.reset.btn.last ≠ some .b1 ∧
    2 ≤ State.reset.regs.heldThreshold.toNat ∧ 1 ≤ 1 ∧ 255 ≤ 255 := by decide

theorem witness_onlyResetsMakeAButtonIdle :
    [withEdge (withHeld State.reset) edgeReset, running 0x41 (withHeld State.reset)].all (fun s =>
      decide (s.btn.state .b1 ≠ .idle) && (after (step s)).any (fun t => decide (t.btn.state .b1 = .idle))) = true := by
  decide

theorem witness_refusals :
    refusal (step { State.reset with params := { State.reset.params with latMax := 0 } }) = some .illegalParameters ∧
    refusal (step (running 0x12 (withN 28))) = some (.inBufNotWritten 0) ∧
    refusal (step (running 0x14 { filled 1 with regs := (withN 2).regs })) = some (.inBufNotWritten 1) ∧
    refusal (step (running 0x20 { filled 1 with regs := (withN 32).regs })) = some (.inBufNotWritten 1) := by decide

theorem witness_statusWordLayout : State.reset.rxFifo.length ≤ 31 ∧
    (withRx State.reset (List.replicate 31 0x55)).rxFifo.length = 31 := by decide

/-- The write alone, the write at a completion, and the write at an overflow. -/
theorem witness_setBeatsStatusClear :
    [withEdge State.reset (edgeWrite 0x01 0x00E0), withEdge (running 0x16 State.reset) (edgeWrite 0x01 0x00E0),
      withEdge (withRx State.reset (List.replicate 16 1)) { edgeWrite 0x01 0x00E0 with rxValid := true }].map
      (fun s => (after (step s)).map (fun t => (s.ports.regWdata, t.status.done, t.status.rxOvr))) =
    [some (0x00E0, false, false), some (0x00E0, true, false), some (0x00E0, false, true)] ∧
    (edgeWrite 0x01 0x00E0).rst = false ∧ (edgeWrite 0x01 0x00E0).regWe = true ∧
    (edgeWrite 0x01 0x00E0).regAddr = 0x01 := by decide

/-- All three bits set, under a write of 0, a write of 0x0020, and no write. -/
theorem test_step_status_bits_are_kept_and_cleared :
    [edgeWrite 0x01 0x0000, edgeWrite 0x01 0x0020, edgeTick].map (fun p =>
      (after (step (withEdge { State.reset with
        status := { State.reset.status with done := true, rxOvr := true, wrLost := true } } p))).map (·.statusWord)) =
    [some 0x00E0, some 0x00C0, some 0x00E0] := by decide

theorem witness_setBeatsStatusClear_frame :
    ∃ (s u : State) (p : Ports) (rest : List Ports), s.script = p :: rest ∧ p.rst = false ∧ p.regWe = true ∧
      p.regAddr = 0x01 ∧ step { s with script := { p with regWe := false } :: rest } = .next u :=
  ⟨withEdge (calling .waitId) (edgeWrite 0x01 0xFFFF), _, edgeWrite 0x01 0xFFFF, [], rfl, rfl, rfl, rfl, rfl⟩

/-- A writable register, a read-only one and a reserved address. -/
theorem witness_writeStores_step :
    [0x03, 0x04, 0x7F].all (fun a =>
      let s := withEdge State.reset (edgeWrite a 0xFFFF)
      decide (legalParams s.params = true ∧ s.ports.rst = false ∧ s.status.busy = false ∧ s.ports.regWe = true ∧
        regAt s.ports.regAddr ≠ .cmd ∧ regAt s.ports.regAddr ≠ .status)) = true := by decide

/-- A Tick while a call waits, and the edge at which a BTN_SAMPLE opens its debounce window. -/
theorem witness_ticksCountDown_busy :
    ((after (step (withEdge (calling .waitId) edgeTick))).map (fun t => (t.poll.winLeft, t.status.busy)) =
      some (29, true)) ∧
    (after (step (withEdge (running 0x40 { ladder 120 with
      regs := { (ladder 120).regs with debounceMs := 200 } }) edgeTick))).map (fun t => (t.btn.left, t.status.busy)) =
      some (200, false) := by decide

theorem witness_registerWords : Memory.read (filled 1).inBuf 0 = some 0x55 ∧
    (after (exec .encodeS (withIn [0x12, 0x34]))).map (fun t => Memory.read t.outBuf 1) = some (some 0x68) := by decide

theorem witness_writeStoresWritableBitsOnly :
    RegName.inBuf 31 ≠ .cmd ∧ RegName.inBuf 31 ≠ .status ∧ legalParams State.reset.params = true ∧
    writableMask 16 (.inBuf 31) = some 0x00FF ∧ writableMask 1 .argSample = some 0x0001 ∧
    writableMask 16 .resN = none ∧ RegName.ctrl ≠ .inBuf 31 := by decide

theorem witness_cmdWriteIssuesTheCommand :
    let s := withEdge State.reset (edgeWrite 0x00 0x0030)
    legalParams s.params = true ∧ s.ports.rst = false ∧ s.status.busy = false ∧ s.ports.regWe = true ∧
      s.ports.regAddr = 0x00 := by decide

theorem witness_writeWhileBusyIsDropped :
    ∃ (s t : State) (p : Ports) (rest : List Ports), s.script = p :: rest ∧ s.status.busy = true ∧ p.rst = false ∧
      p.regWe = true ∧ p.regAddr ≠ 0x01 ∧ step { s with script := { p with regWe := false } :: rest } = .next t :=
  ⟨withEdge (calling .waitId) (edgeWrite 0x03 5), _, edgeWrite 0x03 5, [], rfl, rfl, rfl, rfl, by decide, rfl⟩

theorem witness_readsChangeNothing : (edgeWith 0x55).regWe = false := by decide

theorem witness_readsWhileBusyShowOldValues :
    (∃ s t : State, step s = .next t ∧ s.status.busy = true ∧ t.status.busy = true ∧ heldWhileBusy .pollCrc) ∧
    (∃ t, step (withEdge (withHeld State.reset) (edgeWrite 0x01 0x00E0)) = .next t) ∧
    ∃ t, step (withEdge (withHeld State.reset) { edgeWith 0x55 with tickMs := true }) = .next t :=
  ⟨⟨calling .waitId, _, rfl, rfl, rfl, trivial⟩, ⟨_, rfl⟩, ⟨_, rfl⟩⟩

theorem witness_busyChanges :
    [withEdge State.reset (edgeWrite 0x00 0x0010), running 0x10 State.reset,
      withEdge (calling .waitId) edgeReset].map
      (fun s => (after (step s)).map (fun t => (s.status.busy, t.status.busy))) =
    [some (false, true), some (true, false), some (true, false)] := by decide

/-- A byte on a FIFO with one place left, and on a full one. -/
theorem witness_fifoIsConsumedInArrivalOrder :
    [15, 16].map (fun n => (after (step (withEdge (withRx State.reset (List.replicate n 1)) (edgeWith 0x55)))).map
      (fun t => (t.rxFifo.length, t.status.rxOvr))) = [some (16, false), some (16, true)] := by decide +kernel

theorem witness_ticksCountDown :
    [idlePorts, edgeTick].map (fun p => (after (step (withEdge (withWindow State.reset 1) p))).map
      (fun t => (t.poll.winLeft, t.btn.left))) = [some (1, 0), some (0, 0)] := by decide

theorem witness_commandsLeaveHostStateAlone : ∃ t, exec .encSize (withN 1) = .next t := ⟨_, rfl⟩

theorem witness_resetEdge : legalParams (withEdge (calling .waitData) edgeReset).params = true ∧
    (withEdge (calling .waitData) edgeReset).ports.rst = true := by decide

/-- ENC_SIZE, and a CRC over the whole of IN_BUF. -/
theorem witness_commandsCompleteWithinLatMax :
    ∀ s ∈ [running 0x10 State.reset, running 0x20 (filled 32)], Inv s ∧ s.status.busy = true ∧
      s.engine.opcode ≠ pollStepOpcode ∧ (∀ k, k < s.params.latMax → (s.script.getD k idlePorts).rst = false) ∧
      operandsWritten s := by
  intro s hs
  simp only [List.mem_cons, List.not_mem_nil, or_false] at hs
  unfold operandsWritten State.inBufWritten
  rcases hs with rfl | rfl
  · exact ⟨by constructor <;> decide, by decide, by decide, by decide, by decide⟩
  · exact ⟨by constructor <;> decide +kernel, by decide, by decide, by decide, by decide +kernel⟩

theorem witness_resetStateIsSound : legalParams { defaultParams with adcWidth := 1, rxFifoDepth := 5 } = true ∧
    legalParams { defaultParams with rxFifoDepth := 31, latMax := 1000 } = true := by decide

theorem witness_everyStepKeepsTheStateSound : ∃ s t : State, Inv s ∧ step s = .next t :=
  ⟨withEdge (calling .waitData) edgeTick, _, by constructor <;> decide, rfl⟩

theorem witness_stepRunsTheFetchedInstruction :
    (∃ (s u : State), legalParams s.params = true ∧ s.ports.rst = false ∧ s.status.busy = true ∧ s.engine.latLeft ≤ 1 ∧
      exec s.beforeEngine.fetch s.beforeEngine = .next u) ∧
    ∃ (s : State) (r : Refusal), legalParams s.params = true ∧ s.ports.rst = false ∧ s.status.busy = true ∧
      s.engine.latLeft ≤ 1 ∧ exec s.beforeEngine.fetch s.beforeEngine = .refused r :=
  ⟨⟨withEdge (calling .waitId) (edgeWith 0x01), _, rfl, rfl, rfl, Nat.le_refl 1, rfl⟩,
    ⟨running 0x20 (withN 1), _, rfl, rfl, rfl, Nat.le_refl 1, rfl⟩⟩

theorem witness_placedCommandRunsNext :
    ∃ u, legalParams State.reset.params = true ∧
      exec (decodeCmd (BitVec.ofNat 16 0x1216)) (State.reset.withFetchWord 16 0x1216) = .next u :=
  ⟨_, rfl, rfl⟩

end Sys2Proof.Tests
end

/-! SUPPORT. A byte on the line is its role marker and its seven bits (30_encoding.md R85 to R88). -/

namespace Sys2Proof.Proofs.WireBytes

open Sys2Proof

/-- Bits 0..6 of a wire byte are its field, bit 7 its marker. -/
theorem getLsbD_wireByte (master : Bool) (v : BitVec 7) (t : Nat) :
    (wireByte master v).getLsbD t = if t < 7 then v.getLsbD t else decide (t = 7) && master := by
  have h : (wireByte master v).getLsbD t = if t < 7 then v.getLsbD t else (BitVec.ofBool master).getLsbD (t - 7) :=
    BitVec.getLsbD_append
  rw [h]
  split_ifs with ht
  · rfl
  · have h7 : t - 7 = 0 ↔ t = 7 := by omega
    simp [BitVec.getLsbD_ofBool, h7]

@[simp] theorem isMasterByte_wireByte (master : Bool) (v : BitVec 7) : isMasterByte (wireByte master v) = master :=
  getLsbD_wireByte master v 7

@[simp] theorem wireField_wireByte (master : Bool) (v : BitVec 7) : wireField (wireByte master v) = v :=
  BitVec.extractLsb'_append_eq_right

/-- A byte is put together again from its marker and its field. -/
theorem wireByte_isMasterByte_wireField (b : Byte) : wireByte (isMasterByte b) (wireField b) = b := by
  refine BitVec.eq_of_getLsbD_eq fun t ht => ?_
  rw [getLsbD_wireByte]
  split_ifs with h
  · simp [wireField, h]
  · obtain rfl : t = 7 := by omega
    simp [isMasterByte]

theorem wireByte_false (v : BitVec 7) : wireByte false v = v.setWidth 8 := by
  refine BitVec.eq_of_getLsbD_eq fun t ht => ?_
  rw [getLsbD_wireByte, BitVec.getLsbD_setWidth]
  split_ifs with h
  · simp [ht]
  · simp [BitVec.getLsbD_of_ge v t (by omega)]

theorem wireByte_true (v : BitVec 7) : wireByte true v = 0x80 ||| v.setWidth 8 := by
  have h80 : (0x80 : Byte) = wireByte true 0 := by decide
  rw [h80, ← wireByte_false]
  refine BitVec.eq_of_getLsbD_eq fun t _ => ?_
  simp only [BitVec.getLsbD_or, getLsbD_wireByte]
  split_ifs <;> simp

/-- A byte under the master marker is WIRE.POLL in either phase. -/
theorem decodeWire_wireByte_true (ph : ReplyPhase) (v : BitVec 7) : decodeWire ph (wireByte true v) = .wirePoll v := by
  simp [decodeWire]

/-- A byte under the slave marker is what the phase expects: an echo. -/
theorem decodeWire_echo_wireByte_false (v : BitVec 7) : decodeWire .echo (wireByte false v) = .wireEcho v := by
  simp [decodeWire]

/-- The same byte in the data phase is a payload byte. -/
theorem decodeWire_data_wireByte_false (v : BitVec 7) : decodeWire .data (wireByte false v) = .wireData v := by
  simp [decodeWire]

/-- Settles O4: the two forms of a byte are `wireByte` under either marker, and every byte is one of them. -/
theorem wireBytesAreClassifiedByMarkerAndPhase : Obligations.WireBytesAreClassifiedByMarkerAndPhase := by
  unfold Obligations.WireBytesAreClassifiedByMarkerAndPhase
  intro b v
  rw [← wireByte_true, ← wireByte_false]
  have hb := wireByte_isMasterByte_wireField b
  refine ⟨fun ph => decodeWire_wireByte_true ph v, decodeWire_echo_wireByte_false v, decodeWire_data_wireByte_false v,
    fun hmaster => ?_, fun hslave => ?_⟩
  · rw [isMasterByte, hmaster, wireByte_true] at hb
    exact hb.symm
  · rw [isMasterByte, hslave, wireByte_false] at hb
    exact hb.symm

end Sys2Proof.Proofs.WireBytes

/-! SUPPORT. The edge of the fourth payload byte (42_polling.md R157, R158, R161, R162). -/

namespace Sys2Proof.Proofs.FourthByte

open Sys2Proof Sys2Proof.Machine Sys2Proof.Claims

/-- `finish(code)` leaves what the claims call an ended call. -/
theorem finishCall_eq_endedCall (c : Result) (p : List Byte) (s : State) :
    finishCall c p s = .next (endedCall s (if c.flushes then [] else s.rxFifo) c
      (if c = .ok then trimField (payloadWord p) else 0) (if c = .ok then btnField (payloadWord p) else 0)
      (if c.decoded then payloadCalc p else 0) (if c.decoded then payloadCrc p else 0)) :=
  finishCall_eq c p s

/-- The marker check fails: it is on, and some byte of the frame has the master marker (R157). -/
def WrongMarker (s : State) : Prop := s.regs.chkMark = true ∧ s.poll.frame.bytes.any (·.getLsbD 7) = true

theorem any_marker_iff (f : RxFrame) :
    f.bytes.any (·.getLsbD 7) = true ↔ f.b0.getLsbD 7 ∨ f.b1.getLsbD 7 ∨ f.b2.getLsbD 7 ∨ f.b3.getLsbD 7 := by
  simp [RxFrame.bytes]

/-- The marker check comes first. -/
theorem checkReply_of_wrongMarker {s : State} (h : WrongMarker s) :
    checkReply s = .next (endedCall s [] .invalidResponse 0 0 0 0) :=
  calc checkReply s
    _ = finishCall .invalidResponse [] s := if_pos h
    _ = .next (endedCall s [] .invalidResponse 0 0 0 0) := finishCall_eq_endedCall ..

/-- Past the marker check the CRC decides (R158). -/
theorem checkReply_of_not_wrongMarker {s : State} {p0 p1 p2 : Byte} (hm : ¬WrongMarker s)
    (hp : unstuff s.poll.frame.bytes = [p0, p1, p2]) :
    checkReply s = finishCall (if crc8 [p0, p1] = p2 then .ok else .invalidCrc) [p0, p1, p2] s :=
  calc checkReply s
    _ = if payloadCalc (unstuff s.poll.frame.bytes) ≠ payloadCrc (unstuff s.poll.frame.bytes) then
          finishCall .invalidCrc (unstuff s.poll.frame.bytes) s
        else finishCall .ok (unstuff s.poll.frame.bytes) s := if_neg hm
    _ = if crc8 [p0, p1] ≠ p2 then finishCall .invalidCrc [p0, p1, p2] s else finishCall .ok [p0, p1, p2] s := by
        rw [hp]; rfl
    _ = finishCall (if crc8 [p0, p1] = p2 then .ok else .invalidCrc) [p0, p1, p2] s := by
        rw [ite_not, apply_ite (finishCall · [p0, p1, p2] s)]

/-- A CRC that does not fit ends the call with both CRCs shown (R162). -/
theorem checkReply_of_crc_ne {s : State} {p0 p1 p2 : Byte} (hm : ¬WrongMarker s)
    (hp : unstuff s.poll.frame.bytes = [p0, p1, p2]) (hc : crc8 [p0, p1] ≠ p2) :
    checkReply s = .next (endedCall s [] .invalidCrc 0 0 (crc8 [p0, p1]) p2) := by
  rw [checkReply_of_not_wrongMarker hm hp, if_neg hc]
  exact finishCall_eq_endedCall ..

/-- With a CRC that fits, the fields of the payload are reported and the FIFO keeps what is left in it (R92, R161). -/
theorem checkReply_of_crc_eq {s : State} {p0 p1 p2 : Byte} (hm : ¬WrongMarker s)
    (hp : unstuff s.poll.frame.bytes = [p0, p1, p2]) (hc : crc8 [p0, p1] = p2) :
    checkReply s = .next (endedCall s s.rxFifo .ok (trimField (p1 ++ p0)) (btnField (p1 ++ p0)) p2 p2) := by
  rw [checkReply_of_not_wrongMarker hm hp, if_pos hc]
  subst hc
  exact finishCall_eq_endedCall ..

/-- The state in which the reply is checked: the byte out of the FIFO and in the frame. -/
def fourthTaken (s : State) (d : Byte) (rest : List RxEntry) : State :=
  { s with rxFifo := rest, poll := { s.poll with frame := { s.poll.frame with b3 := d }, dataCnt := 4 } }

/-- The edge with an error-free fourth byte is the check of the reply. -/
theorem exec_fetch_fourthByte {s : State} {d : Byte} {rest : List RxEntry} (hb : s.poll.bpe = .waitData)
    (hc : s.poll.dataCnt = 3) (hf : s.rxFifo = { data := d, err := false } :: rest) :
    exec s.fetch s = checkReply (fourthTaken s d rest) := by
  rw [exec_fetch_waitData_byte s _ rest hb hf rfl, takeData_last _ _ (by simpa using hc)]
  simp only [State.popRx, hf, List.tail_cons, fourthTaken]

/-- Settles O24: the edge checks the reply, and the check has three ends. -/
theorem fourthByteDecidesTheCall : Obligations.FourthByteDecidesTheCall := by
  unfold Obligations.FourthByteDecidesTheCall
  intro s d rest hb hc hf f t p0 p1 p2 w16 wrongMarker
  have hmark : WrongMarker (fourthTaken s d rest) ↔ wrongMarker := and_congr_right fun _ => any_marker_iff f
  have hpay : unstuff (fourthTaken s d rest).poll.frame.bytes = [p0, p1, p2] := unstuff_frame f
  rw [exec_fetch_fourthByte hb hc hf, ← hmark]
  exact ⟨checkReply_of_wrongMarker, fun hm => checkReply_of_crc_ne hm hpay, fun hm => checkReply_of_crc_eq hm hpay⟩

end Sys2Proof.Proofs.FourthByte

/-! SUPPORT. The WireCodec commands: sizes, stuffing into OUT_BUF, unstuffing, and the single-byte helpers
(40_wirecodec.md R110 to R124). -/

namespace Sys2Proof.Proofs.WireCodec

open Sys2Proof Sys2Proof.Machine Sys2Proof.Claims

/-! ### The commands that `exec` runs -/

theorem exec_encSize (s : State) : exec .encSize s = sizeCommand encodedSize s := rfl
theorem exec_decSize (s : State) : exec .decSize s = sizeCommand decodedSize s := rfl
theorem exec_encode (role : Bool) (s : State) :
    exec (if role then .encodeM else .encodeS) s = encodeCommand role s := by cases role <;> rfl
/-- DECODE.S and DECODE.M are one command: the role selects nothing (R116, R117). -/
theorem exec_decode (role : Bool) (s : State) :
    exec (if role then .decodeM else .decodeS) s = decodeCommand s := by cases role <;> rfl

/-! ### The size commands (R110, R111) -/

theorem sizeCommand_of_zero (size : Nat → Nat) {s : State} (h : s.regs.argN = 0) :
    sizeCommand size s = .next (ended s .invalidArg) :=
  if_pos (congrArg BitVec.toNat h)

theorem sizeCommand_of_ne_zero (size : Nat → Nat) {s : State} (h : s.regs.argN ≠ 0) :
    sizeCommand size s = .next { ended s .ok with resN := BitVec.ofNat 16 (size s.regs.argN.toNat) } :=
  if_neg fun h0 => h (BitVec.eq_of_toNat_eq h0)

/-- RES_N holds the size of the encoding of any 8-bit count: it is at most 292 (R110). -/
theorem toNat_ofNat_encodedSize (n : Byte) : (BitVec.ofNat 16 (encodedSize n.toNat)).toNat = encodedSize n.toNat := by
  have hn := n.isLt
  have hb := encodedSize_bounds n.toNat
  exact (BitVec.toNat_ofNat ..).trans (Nat.mod_eq_of_lt (by omega))

/-- RES_N holds the size of the decoding of any 8-bit count. -/
theorem toNat_ofNat_decodedSize (m : Byte) : (BitVec.ofNat 16 (decodedSize m.toNat)).toNat = decodedSize m.toNat := by
  have hm := m.isLt
  have hb := decodedSize_bounds m.toNat
  exact (BitVec.toNat_ofNat ..).trans (Nat.mod_eq_of_lt (by omega))

/-- Settles O7: RES_N takes the size, which its 16 bits hold, and the sizes are the ceiling and the floor. -/
theorem sizeCommandsGiveExactSizes : Obligations.SizeCommandsGiveExactSizes := by
  unfold Obligations.SizeCommandsGiveExactSizes
  refine ⟨by decide, by decide, fun s => ?_⟩
  rw [exec_encSize, exec_decSize]
  refine ⟨fun h => ⟨sizeCommand_of_zero _ h, sizeCommand_of_zero _ h⟩, fun h => ⟨?_, ?_⟩⟩
  · obtain ⟨hle, hlt⟩ := encodedSize_bounds s.regs.argN.toNat
    refine ⟨_, ?_, ?_, sizeCommand_of_ne_zero _ h⟩ <;> rwa [toNat_ofNat_encodedSize]
  · obtain ⟨hle, hlt⟩ := decodedSize_bounds s.regs.argN.toNat
    refine ⟨_, ?_, ?_, sizeCommand_of_ne_zero _ h⟩ <;> rwa [toNat_ofNat_decodedSize]

/-! ### The buffer commands (R113, R114, R116, R117) -/

/-- A buffer command whose `n` input bytes are written and whose output fits OUT_BUF ends OK: `f` of the input stands in
OUT_BUF from index 0, and every byte behind it is kept. -/
theorem bufferCommand_ends {s : State} {n m : Nat} {f : List Byte → List Byte} (hn : n ≤ bufBytes) (hm : m ≤ bufBytes)
    (hf : ∀ src, src.length = n → (f src).length = m) (hw : s.inBufWritten n) :
    ∃ (src : List Byte) (out : Memory), src.length = n ∧ (∀ k, k < n → Memory.read s.inBuf k = src[k]?) ∧
      (s.withInBytes n fun src => s.withOutBytes (f src) fun t => complete .ok { t with resN := BitVec.ofNat 16 m }) =
        .next { ended s .ok with resN := BitVec.ofNat 16 m, outBuf := out } ∧
      ∀ j, Memory.read out j = if j < m then (f src)[j]? else Memory.read s.outBuf j := by
  obtain ⟨src, hlen, hsrc, hin⟩ := s.withInBytes_of_written n
    (fun src => s.withOutBytes (f src) fun t => complete .ok { t with resN := BitVec.ofNat 16 m }) hn hw
  have hfl := hf src hlen
  obtain ⟨out, hout, -, hwr⟩ := s.withOutBytes_of_fits (f src)
    (fun t => complete .ok { t with resN := BitVec.ofNat 16 m }) (hfl.trans_le hm)
  rw [hfl] at hout
  exact ⟨src, out, hlen, hsrc, hin.trans hwr, hout⟩

/-- A stream bit of the bytes read is the bit of the buffer. -/
theorem streamBit_of_read {buf : Memory} {n : Nat} {bs : List Byte} (h : ∀ i, i < n → Memory.read buf i = bs[i]?)
    {width k : Nat} (hk : k < width * n) :
    streamBit width bs k = ((Memory.read buf (k / width)).getD 0).getLsbD (k % width) := by
  rw [streamBit, List.getD_eq_getElem?_getD, h _ (Nat.div_lt_of_lt_mul hk)]

/-- Settles O8: an accepted count runs the buffer command with `stuff`, whose bits are those of IN_BUF. -/
theorem encodeStuffsInputIntoOutput : Obligations.EncodeStuffsInputIntoOutput := by
  unfold Obligations.EncodeStuffsInputIntoOutput
  refine ⟨by decide, by decide, fun role s => ?_⟩
  intro i n
  have hexec : exec i s = encodeCommand role s := exec_encode role s
  rw [hexec]
  refine ⟨fun h => encodeCommand_rejects role s ((encode_count_iff n).2 h), fun h1 h28 hw => ?_⟩
  have hacc : ¬(n = 0 ∨ bufBytes < encodedSize n) := (encode_count_iff n).not.2 (by omega)
  obtain ⟨hle, hlt⟩ := encodedSize_bounds n
  obtain ⟨src, out, hlen, hsrc, hrun, hout⟩ := bufferCommand_ends (m := encodedSize n) (f := stuff role)
    (by unfold bufBytes; omega) (by omega) (fun src h => by rw [length_stuff, h]) hw
  refine ⟨encodedSize n, out, hle, hlt, (encodeCommand_runs role s hacc).trans hrun, fun j hj => ?_, fun j hj => ?_⟩
  · refine ⟨stuffByte role src j, ?_, stuffByte_marker role src j, fun t ht => ?_⟩
    · rw [hout, if_pos hj, getElem?_stuff _ _ _ (by rwa [hlen])]
    · rw [stuffByte_bit _ _ _ _ ht, hlen]
      split_ifs with hbit
      · exact streamBit_of_read hsrc hbit
      · rfl
  · rw [hout, if_neg (by omega)]

/-- Settles O9: an accepted count runs the buffer command with `unstuff`, whose bits are bits 0..6 of IN_BUF's bytes. -/
theorem decodeUnstuffsInputIntoOutput : Obligations.DecodeUnstuffsInputIntoOutput := by
  unfold Obligations.DecodeUnstuffsInputIntoOutput
  refine ⟨by decide, by decide, fun role s => ?_⟩
  intro i m
  have hexec : exec i s = decodeCommand s := exec_decode role s
  rw [hexec]
  refine ⟨fun h => decodeCommand_rejects s ((decode_count_iff m).2 h), fun h2 h32 hw => ?_⟩
  have hacc : ¬(bufBytes < m ∨ decodedSize m = 0) := (decode_count_iff m).not.2 (by omega)
  obtain ⟨hle, hlt⟩ := decodedSize_bounds m
  obtain ⟨w, out, hlen, hin, hrun, hout⟩ := bufferCommand_ends (m := decodedSize m) (f := unstuff)
    h32 (by unfold bufBytes; omega) (fun w h => by rw [length_unstuff, h]) hw
  refine ⟨decodedSize m, out, hle, hlt, (decodeCommand_runs s hacc).trans hrun, fun j hj => ?_, fun j hj => ?_⟩
  · refine ⟨unstuffByte w j, ?_, fun t ht => ?_⟩
    · rw [hout, if_pos hj, getElem?_unstuff _ _ (by rwa [hlen])]
    · rw [unstuffByte_bit _ _ _ ht]
      exact streamBit_of_read hin (by omega)
  · rw [hout, if_neg (by omega)]

/-! ### The single-byte helpers (R119 to R124) -/

/-- Clearing the marker keeps the seven bits below it. -/
theorem getLsbD_encodeSlaveByte (b : Byte) (t : Nat) (h : t < 7) : (encodeSlaveByte b).getLsbD t = b.getLsbD t := by
  have hmask : ∀ t < 7, (0x7F : Byte).getLsbD t = true := by decide
  rw [encodeSlaveByte, BitVec.getLsbD_and, hmask t h, Bool.and_true]

theorem encodeSlaveByte_marker (b : Byte) : (encodeSlaveByte b).getLsbD 7 = false := by
  have hmask : (0x7F : Byte).getLsbD 7 = false := by decide
  rw [encodeSlaveByte, BitVec.getLsbD_and, hmask, Bool.and_false]

/-- Setting the marker keeps the seven bits below it. -/
theorem getLsbD_encodeMasterByte (b : Byte) (t : Nat) (h : t < 7) : (encodeMasterByte b).getLsbD t = b.getLsbD t := by
  have hmask : ∀ t < 7, (0x80 : Byte).getLsbD t = false := by decide
  rw [encodeMasterByte, BitVec.getLsbD_or, hmask t h, Bool.or_false]

theorem encodeMasterByte_marker (b : Byte) : (encodeMasterByte b).getLsbD 7 = true := by
  have hmask : (0x80 : Byte).getLsbD 7 = true := by decide
  rw [encodeMasterByte, BitVec.getLsbD_or, hmask, Bool.or_true]

theorem isSlaveByteFlag_eq (b : Byte) : isSlaveByteFlag b = if b.getLsbD 7 = false then 1 else 0 := by
  unfold isSlaveByteFlag
  cases b.getLsbD 7 <;> rfl

theorem byteCommand_eq (f : Byte → Byte) (s : State) :
    byteCommand f s = .next { ended s .ok with resByte := f s.regs.argByte } := rfl

theorem exec_encbS (s : State) : exec .encbS s = byteCommand encodeSlaveByte s := rfl
theorem exec_encbM (s : State) : exec .encbM s = byteCommand encodeMasterByte s := rfl
theorem exec_decbS (s : State) : exec .decbS s = byteCommand decodeSlaveByte s := rfl
theorem exec_decbM (s : State) : exec .decbM s = byteCommand decodeMasterByte s := rfl
theorem exec_isbS (s : State) : exec .isbS s = byteCommand isSlaveByteFlag s := rfl
theorem exec_isbM (s : State) : exec .isbM s = byteCommand isMasterByteFlag s := rfl

/-- Settles O10: `cleared` and `marked` are ARG_BYTE under the slave and the master marker; DECB.S and DECB.M clear the
marker as ENCB.S does. -/
theorem byteHelpersWriteTheirByte : Obligations.ByteHelpersWriteTheirByte := by
  unfold Obligations.ByteHelpersWriteTheirByte
  refine ⟨by decide, by decide, by decide, by decide, by decide, by decide, fun s => ?_⟩
  rw [exec_encbS, exec_encbM, exec_decbS, exec_decbM, exec_isbS, exec_isbM, ← isSlaveByteFlag_eq]
  exact ⟨encodeSlaveByte s.regs.argByte, encodeMasterByte s.regs.argByte, encodeSlaveByte_marker _,
    encodeMasterByte_marker _, fun t ht => ⟨getLsbD_encodeSlaveByte _ t ht, getLsbD_encodeMasterByte _ t ht⟩,
    byteCommand_eq encodeSlaveByte s, byteCommand_eq encodeMasterByte s, byteCommand_eq decodeSlaveByte s,
    byteCommand_eq decodeMasterByte s, byteCommand_eq isSlaveByteFlag s, byteCommand_eq isMasterByteFlag s⟩

end Sys2Proof.Proofs.WireCodec

/-! SUPPORT. Commands of the polling unit that end at their first edge: POLL_STEP with no terminal, and RX_FLUSH with what
arrives at its edge (42_polling.md R151, R160). -/

namespace Sys2Proof.Proofs.FirstEdge

open Sys2Proof Sys2Proof.Machine Sys2Proof.Claims

/-! ### What the engine runs while no call is in progress -/

theorem exec_pollStep_of_idle {s : State} (h : s.poll.bpe = .idle) : exec .pollStep s = startCall s := by
  change execPollStep s = startCall s
  rw [execPollStep, h]

theorem startCall_of_no_terminals {s : State} (h : s.regs.terminalCount = 0) : startCall s = .next (ended s .disabled) :=
  if_pos h

/-- Settles O17: the first edge of a POLL_STEP tests TERMINAL_COUNT before anything else. -/
theorem pollStepWithoutTerminalsIsDisabled : Obligations.PollStepWithoutTerminalsIsDisabled := by
  unfold Obligations.PollStepWithoutTerminalsIsDisabled
  intro s hidle hcount
  rw [exec_pollStep_of_idle hidle, startCall_of_no_terminals hcount]

theorem exec_rxFlush (s : State) : exec .rxFlush s = .next { ended s .ok with rxFifo := [] } := rfl

/-- Outside a call the engine works on the command it holds, whatever waits in the FIFO. -/
theorem fetch_of_idle {s : State} (h : s.poll.bpe = .idle) : s.fetch = decodeOpcode s.engine.opcode := by
  rw [State.fetch, h]

/-! ### The parts of an edge around the engine -/

/-- An arrival sets RXOVR exactly where it finds the FIFO full (10_state.md R49). -/
theorem arrive_rxOvr (s : State) (p : Ports) :
    (s.arrive p).status.rxOvr = (s.status.rxOvr || (p.rxValid && s.rxFull)) := by
  unfold State.arrive
  split
  case isTrue hv => rw [State.pushRx_spec, hv, Bool.true_and, Bool.or_comm]
  case isFalse hv => rw [Bool.eq_false_iff.2 hv, Bool.false_and, Bool.or_false]

theorem beforeEngine_rxOvr (s : State) :
    s.beforeEngine.status.rxOvr = (s.status.rxOvr || (s.ports.rxValid && s.rxFull)) := by
  rw [State.beforeEngine, State.tick_status, arrive_rxOvr]

/-- With no write the engine's state stands, and the next inputs are due. -/
theorem finishEdge_of_no_write {s : State} (h : s.ports.regWe = false) (t : State) :
    s.finishEdge t = { t with script := s.script.tail } := by
  simp only [State.finishEdge, State.hostAccess, h, Bool.false_eq_true, if_false]

/-- An edge at which the engine runs the command it holds: the command meets the state after the arrival and the Tick. -/
theorem step_of_command {s t : State} (hp : legalParams s.params = true) (hr : s.ports.rst = false)
    (hb : s.status.busy = true) (hl : s.engine.latLeft ≤ 1) (hidle : s.poll.bpe = .idle)
    (ht : exec (decodeOpcode s.engine.opcode) s.beforeEngine = .next t) : step s = .next (s.finishEdge t) := by
  have hfetch : s.beforeEngine.fetch = decodeOpcode s.engine.opcode := by
    rw [fetch_of_idle (by rwa [State.beforeEngine_poll_bpe]), State.beforeEngine_engine]
  have hengine : s.beforeEngine.engineStep = .next t :=
    calc s.beforeEngine.engineStep
      _ = exec s.beforeEngine.fetch s.beforeEngine :=
        engineStep_runs (by rwa [State.beforeEngine_status_busy]) (by rwa [State.beforeEngine_engine])
      _ = .next t := by rw [hfetch, ht]
  exact step_of_engine hp hr hengine

theorem decodeOpcode_rxFlush : decodeOpcode 0x31 = .rxFlush := by decide

/-- Settles O30: the flush meets the state after the arrival, so the arriving byte is flushed with the rest, and the RXOVR
that this state has is the one it keeps. -/
theorem rxFlushEmptiesTheFifo : Obligations.RxFlushEmptiesTheFifo := by
  unfold Obligations.RxFlushEmptiesTheFifo
  refine ⟨decodeOpcode_rxFlush, exec_rxFlush, fun s hp hr hb hl hop hidle hwe => ?_⟩
  have hflush : exec (decodeOpcode s.engine.opcode) s.beforeEngine =
      .next { ended s.beforeEngine .ok with rxFifo := [] } := by
    rw [hop, decodeOpcode_rxFlush, exec_rxFlush]
  refine ⟨_, step_of_command hp hr hb hl hidle hflush, ?_⟩
  rw [finishEdge_of_no_write hwe]
  exact ⟨rfl, rfl, rfl, beforeEngine_rxOvr s⟩

end Sys2Proof.Proofs.FirstEdge

/-! SUPPORT. The button classifier: which button a sample reads as, and what can make a button Idle
(43_buttons.md R180, R185, R188). -/

namespace Sys2Proof.Proofs.Buttons

open Sys2Proof Sys2Proof.Machine Sys2Proof.Claims

/-! ### What an engine edge does to the button states -/

/-- A change of the button unit that turns no button Idle. -/
def TurnsNoneIdle (u v : ButtonUnit) : Prop := ∀ b, v.state b = .idle → u.state b = .idle

theorem turnsNoneIdle_of_eq {u v : ButtonUnit} (h : v = u) : TurnsNoneIdle u v := fun _ hv => h ▸ hv

/-- R181: Idle is never a new state, only an old one kept. -/
theorem old_idle_of_nextBtnState_idle {cnt h : Byte} {old : BtnState} (hn : nextBtnState cnt old h = .idle) :
    old = .idle := by
  unfold nextBtnState at hn
  split_ifs at hn
  exact hn

/-- A detection moves the state of the detected button alone, by `next_state` of its new run count. -/
theorem detect_state (r : HostRegs) (u : ButtonUnit) (b c : Button) :
    (detect r u b).state c =
      if c = b then nextBtnState (detect r u b).count (u.state b) r.heldThreshold else u.state c := by
  -- loading the debounce counter touches neither a state nor the count
  have hleft : ∀ (v : ButtonUnit) (l : Reg16), ({ v with left := l } : ButtonUnit).state c = v.state c := by
    intro v l
    cases c <;> rfl
  have hrun : ∀ cnt, ({ u with last := some b, count := cnt } : ButtonUnit).state c = u.state c := by
    intro cnt
    cases c <;> rfl
  unfold detect
  dsimp only
  generalize (if u.last = some b then satIncr u.count else 1) = cnt
  split <;> simp only [hleft, hrun, ButtonUnit.state_setState] <;> rw [ButtonUnit.setState_count]

theorem detect_turnsNoneIdle (r : HostRegs) (u : ButtonUnit) (b : Button) : TurnsNoneIdle u (detect r u b) := by
  intro c hc
  rw [detect_state] at hc
  split at hc
  case isTrue heq => exact heq ▸ old_idle_of_nextBtnState_idle hc
  case isFalse => exact hc

/-- Of the commands, BTN_RESET alone can turn a button Idle. -/
theorem completed_turnsNoneIdle {i : Instr} {s t : State} (h : Completed i s t) (hi : i ≠ .btnReset) :
    TurnsNoneIdle s.btn t.btn := by
  rcases h.buttons with hkept | hrunEnds | ⟨_, b, _, hdetect⟩ | ⟨hreset, _⟩
  · exact turnsNoneIdle_of_eq hkept
  · rw [hrunEnds]
    intro b hb
    cases b <;> exact hb
  · exact hdetect ▸ detect_turnsNoneIdle s.regs s.btn b
  · exact absurd hreset hi

/-- A call that goes on is an edge of the polling engine, which has no access to the buttons. -/
theorem callGoesOn_btn {s t : State} (h : CallGoesOn s t) : t.btn = s.btn := by
  obtain ⟨hframe, _⟩ := h
  rw [hframe]

theorem finishCall_btn {c : Result} {p : List Byte} {s t : State} (h : finishCall c p s = .next t) : t.btn = s.btn := by
  rw [finishCall_eq] at h
  cases h
  rfl

theorem callEnds_btn {s t : State} {c : Result} (h : CallEnds s t c) : t.btn = s.btn := by
  obtain ⟨u, p, hfinish, hframe, _⟩ := h
  rw [finishCall_btn hfinish, hframe]

theorem exec_fetch_turnsNoneIdle {s t : State} (h : exec s.fetch s = .next t) (hf : s.fetch ≠ .btnReset) :
    TurnsNoneIdle s.btn t.btn := by
  rcases engineEdge_cases h with ⟨_, _, hcommand⟩ | ⟨_, _, rfl⟩ | ⟨_, _, rfl⟩ | ⟨_, hgoesOn⟩ | ⟨_, _, hends⟩
  · exact completed_turnsNoneIdle hcommand hf
  · exact turnsNoneIdle_of_eq rfl
  · exact turnsNoneIdle_of_eq rfl
  · exact turnsNoneIdle_of_eq (callGoesOn_btn hgoesOn)
  · exact turnsNoneIdle_of_eq (callEnds_btn hends)

theorem engineStep_turnsNoneIdle {s t : State} (h : s.engineStep = .next t)
    (hf : ¬(s.status.busy = true ∧ s.fetch = .btnReset)) : TurnsNoneIdle s.btn t.btn := by
  rcases engineStep_next_cases h with ⟨_, rfl⟩ | ⟨_, _, rfl⟩ | ⟨hbusy, _, hexec⟩
  · exact turnsNoneIdle_of_eq rfl
  · exact turnsNoneIdle_of_eq rfl
  · exact exec_fetch_turnsNoneIdle hexec fun hreset => hf ⟨hbusy, hreset⟩

/-- An arrival and a Tick move no button state. -/
theorem beforeEngine_btn_state (s : State) (b : Button) : s.beforeEngine.btn.state b = s.btn.state b := by
  cases b
  · exact State.beforeEngine_btn_st1 s
  · exact State.beforeEngine_btn_st2 s
  · exact State.beforeEngine_btn_st3 s

/-- Settles O37: an edge without reset changes the buttons in its engine step alone, and of all the engine works on only
BTN_RESET can turn one Idle. -/
theorem onlyResetsMakeAButtonIdle : Obligations.OnlyResetsMakeAButtonIdle := by
  unfold Obligations.OnlyResetsMakeAButtonIdle
  intro s t b hstep hs ht
  obtain ⟨_, ⟨hrst, _⟩ | ⟨_, u, hengine, rfl⟩⟩ := clockEdge_next_cases hstep
  · exact .inl hrst
  · right
    by_contra hno
    rw [← State.beforeEngine_status_busy] at hno
    rw [State.finishEdge_btn] at ht
    have hidle : s.beforeEngine.btn.state b = .idle := engineStep_turnsNoneIdle hengine hno b ht
    exact hs (beforeEngine_btn_state s b ▸ hidle)

/-! ### BTN_RESET -/

theorem exec_btnReset (s : State) :
    exec .btnReset s = .next { ended s .ok with btn := { s.btn with st1 := .idle, st2 := .idle, st3 := .idle } } := rfl

theorem decodeCmd_btnReset : decodeCmd 0x0041 = .btnReset := by decide

/-- Settles O35. -/
theorem btnResetClearsOnlyTheStates : Obligations.BtnResetClearsOnlyTheStates := by
  unfold Obligations.BtnResetClearsOnlyTheStates
  refine ⟨decodeCmd_btnReset, fun s => ⟨_, exec_btnReset s, fun b => ?_, rfl, rfl, rfl⟩⟩
  cases b <;> rfl

/-! ### read_button -/

theorem inWindow_iff (r : HostRegs) (sample : Reg16) (b : Button) :
    inWindow r sample b = true ↔ windowHolds r sample b := decide_eq_true_iff

/-- The search in the order of a measure that rises along the list stops at the member of least measure that is found. -/
theorem find?_eq_some_iff_least {α : Type} {f : α → Nat} {p : α → Bool} {l : List α}
    (hl : l.Pairwise (f · < f ·)) (b : α) :
    l.find? p = some b ↔ b ∈ l ∧ p b = true ∧ ∀ c ∈ l, f c < f b → ¬p c = true := by
  induction l with
  | nil => simp
  | cons a l ih =>
    obtain ⟨ha, hl⟩ := List.pairwise_cons.1 hl
    by_cases hp : p a = true
    · rw [List.find?_cons_of_pos hp, Option.some.injEq]
      constructor
      · rintro rfl
        refine ⟨List.mem_cons_self, hp, fun c hc hlt => ?_⟩
        rcases List.mem_cons.1 hc with rfl | hc
        · exact absurd hlt (lt_irrefl _)
        · exact absurd hlt (ha c hc).not_gt
      · rintro ⟨hb, _, hleast⟩
        rcases List.mem_cons.1 hb with rfl | hb
        · rfl
        · exact absurd hp (hleast a List.mem_cons_self (ha b hb))
    · rw [List.find?_cons_of_neg hp, ih hl]
      constructor
      · rintro ⟨hb, hpb, hleast⟩
        exact ⟨List.mem_cons_of_mem a hb, hpb, List.forall_mem_cons.2 ⟨fun _ => hp, hleast⟩⟩
      · rintro ⟨hb, hpb, hleast⟩
        have hne : b ≠ a := fun h => hp (h ▸ hpb)
        exact ⟨List.mem_of_ne_of_mem hne hb, hpb, (List.forall_mem_cons.1 hleast).2⟩

/-- The three buttons in the order in which `read_button` tries them: by rising number, none left out. -/
theorem buttons_pairwise : [Button.b1, .b2, .b3].Pairwise (·.number.toNat < ·.number.toNat) := by decide

theorem mem_buttons (b : Button) : b ∈ [Button.b1, .b2, .b3] := by cases b <;> decide

theorem readButton_of_below {r : HostRegs} {sample : Reg16} (h : sample.toNat < r.edgeThreshold.toNat) :
    readButton r sample = [Button.b1, .b2, .b3].find? (inWindow r sample) := if_pos h

theorem readButton_of_not_below {r : HostRegs} {sample : Reg16} (h : ¬sample.toNat < r.edgeThreshold.toNat) :
    readButton r sample = none := if_neg h

theorem readButton_eq_some_iff (r : HostRegs) (sample : Reg16) (b : Button) :
    readButton r sample = some b ↔
      sample.toNat < r.edgeThreshold.toNat ∧ windowHolds r sample b ∧
        ∀ c : Button, c.number.toNat < b.number.toNat → ¬windowHolds r sample c := by
  by_cases h : sample.toNat < r.edgeThreshold.toNat
  · rw [readButton_of_below h, find?_eq_some_iff_least buttons_pairwise]
    simp only [h, mem_buttons, inWindow_iff, true_and, true_imp_iff]
  · simp only [readButton_of_not_below h, h, false_and, reduceCtorEq]

theorem readButton_eq_none_iff (r : HostRegs) (sample : Reg16) :
    readButton r sample = none ↔
      r.edgeThreshold.toNat ≤ sample.toNat ∨ ∀ b, ¬windowHolds r sample b := by
  by_cases h : sample.toNat < r.edgeThreshold.toNat
  · rw [readButton_of_below h, List.find?_eq_none]
    simp only [Nat.not_le.2 h, mem_buttons, inWindow_iff, false_or, true_imp_iff]
  · simp only [readButton_of_not_below h, Nat.not_lt.1 h, true_or]

/-- Settles O31: the search goes through the buttons by rising number. -/
theorem readButtonGivesFirstMatchingWindow : Obligations.ReadButtonGivesFirstMatchingWindow := by
  unfold Obligations.ReadButtonGivesFirstMatchingWindow
  exact fun r sample => ⟨readButton_eq_some_iff r sample, readButton_eq_none_iff r sample⟩

end Sys2Proof.Proofs.Buttons

/-! SUPPORT. What a command that only completes leaves behind, and the default row INVALID (60_exceptions.md R200, R201). -/

namespace Sys2Proof.Proofs.InvalidCommand

open Sys2Proof Sys2Proof.Machine Sys2Proof.Claims

/-- Completion writes BUSY, DONE and RESULT, and no other field of the state. -/
theorem raiseResult_eq_ended (s : State) (c : Result) : s.raiseResult c = ended s c := rfl

/-- The opcode of INVALID reaches nothing: every illegal one runs the same completion. -/
theorem exec_invalid (op : Byte) (s : State) : exec (.invalid op) s = complete .invalidOp s := rfl

/-- Settles O38: INVALID is completion and no more, and completion writes STATUS alone. -/
theorem invalidChangesOnlyStatus : Obligations.InvalidChangesOnlyStatus := by
  unfold Obligations.InvalidChangesOnlyStatus
  intro op s
  calc exec (.invalid op) s = complete .invalidOp s := exec_invalid op s
    _ = .next (s.raiseResult .invalidOp) := complete_eq .invalidOp s
    _ = .next (ended s .invalidOp) := by rw [raiseResult_eq_ended]

end Sys2Proof.Proofs.InvalidCommand

/-! SUPPORT. The edge with `rst`, and the write that a busy block drops (70_reset_and_hazards.md R230, R240). -/

namespace Sys2Proof.Proofs.ResetAndHazards

open Sys2Proof Sys2Proof.Machine Sys2Proof.Claims

/-! ### An edge and the host's part of its inputs -/

/-- The inputs of two edges differ in the host's access alone: what the environment presents is the same. -/
def SameButForAccess (p q : Ports) : Prop :=
  q = { p with regAddr := q.regAddr, regWe := q.regWe, regWdata := q.regWdata }

/-- The arrival and the Tick do not see the host's access (20_memory.md R71). -/
theorem beforeEngine_withScript {s : State} {l : List Ports} (h : SameButForAccess s.ports (l.headD idlePorts)) :
    (s.withScript l).beforeEngine = s.beforeEngine.withScript l := by
  have harrive : ∀ u : State, u.arrive (l.headD idlePorts) = u.arrive s.ports := fun u => by rw [h]; rfl
  have htick : ∀ u : State, u.tick (l.headD idlePorts) = u.tick s.ports := fun u => by rw [h]; rfl
  calc (s.withScript l).beforeEngine
    _ = ((s.withScript l).arrive (l.headD idlePorts)).tick (l.headD idlePorts) := rfl
    _ = ((s.withScript l).arrive s.ports).tick s.ports := by rw [harrive, htick]
    _ = s.beforeEngine.withScript l := by rw [State.arrive_withScript, State.tick_withScript, State.beforeEngine]

/-- Nor does the command engine: under another host access it leaves the same state. -/
theorem engineStep_next_withScript {s u : State} {l : List Ports} (h : SameButForAccess s.ports (l.headD idlePorts))
    (hu : s.beforeEngine.engineStep = .next u) : (s.withScript l).beforeEngine.engineStep = .next (u.withScript l) :=
  calc (s.withScript l).beforeEngine.engineStep
    _ = (s.beforeEngine.withScript l).engineStep := by rw [beforeEngine_withScript h]
    _ = Answer.withScript s.beforeEngine.engineStep l := by
      refine State.engineStep_withScript _ _ ?_ ?_ <;> rw [State.beforeEngine_ports, h]
    _ = .next (u.withScript l) := by rw [hu]; rfl

/-! ### A write while BUSY -/

theorem regAt_eq_status_iff (a : BitVec 7) : regAt a = .status ↔ a = 0x01 := by
  revert a
  decide

/-- The host access of an edge before which BUSY was 1, where it writes to anything but STATUS. -/
theorem finishEdge_of_write_while_busy {s : State} (hbusy : s.status.busy = true) (hwe : s.ports.regWe = true)
    (haddr : s.ports.regAddr ≠ 0x01) (t : State) :
    s.finishEdge t = { t with status := { t.status with wrLost := true }, script := s.script.tail } := by
  have hreg : regAt s.ports.regAddr ≠ .status := fun h => haddr ((regAt_eq_status_iff _).1 h)
  simp only [State.finishEdge, State.hostAccess, hwe, hbusy, hreg, if_true, if_false]

/-- Settles O48: the two edges differ in the host access alone, and the engine is done before it. -/
theorem writeWhileBusyIsDropped : Obligations.WriteWhileBusyIsDropped := by
  unfold Obligations.WriteWhileBusyIsDropped
  intro s t p rest hscript hbusy hrst hwe haddr hquiet
  have hports : s.ports = p := by rw [State.ports, hscript]; rfl
  rw [← hports] at hrst hwe haddr
  obtain ⟨hparams, ⟨hreset, _⟩ | ⟨_, u, hengine, rfl⟩⟩ := clockEdge_next_cases hquiet
  · exact absurd hreset (hports ▸ Bool.eq_false_iff.1 hrst)
  · have hsame : s.beforeEngine.engineStep = .next (u.withScript s.script) :=
      engineStep_next_withScript (s := s.withScript ({ p with regWe := false } :: rest)) (by rw [hscript]; rfl) hengine
    rw [step_of_engine (s := s) hparams hrst hsame, finishEdge_of_write_while_busy hbusy hwe haddr,
      FirstEdge.finishEdge_of_no_write rfl, hscript]
    rfl

/-! ### The state after an edge with `rst` -/

@[simp] theorem resetEdge_regs (s : State) : s.resetEdge.regs = HostRegs.atReset s.params := rfl
@[simp] theorem resetEdge_resN (s : State) : s.resetEdge.resN = 0 := rfl
@[simp] theorem resetEdge_resByte (s : State) : s.resetEdge.resByte = 0 := rfl
@[simp] theorem resetEdge_rxFifo (s : State) : s.resetEdge.rxFifo = [] := rfl
@[simp] theorem resetEdge_params (s : State) : s.resetEdge.params = s.params := rfl
@[simp] theorem resetEdge_statusWord (s : State) : s.resetEdge.statusWord = 0 := by
  change State.reset.statusWord = 0
  decide
@[simp] theorem resetEdge_irq (s : State) : s.resetEdge.irq = false := rfl
@[simp] theorem resetEdge_txOffer (s : State) : s.resetEdge.txOffer = none := rfl
@[simp] theorem resetEdge_poll (s : State) : s.resetEdge.poll = (State.resetWith s.params).poll := rfl
@[simp] theorem resetEdge_btn (s : State) : s.resetEdge.btn = (State.resetWith s.params).btn := rfl

@[simp] theorem resetWith_btn_state (p : Config.Params) (b : Button) : (State.resetWith p).btn.state b = .idle := by
  cases b <;> rfl

/-- Settles O55: the edge is `resetEdge` whatever else its inputs hold, and each listed field has its R53 value there. -/
theorem resetEdgeRestoresEveryField : Obligations.ResetEdgeRestoresEveryField := by
  unfold Obligations.ResetEdgeRestoresEveryField
  intro s hparams hrst
  refine ⟨s.resetEdge, step_of_rst hparams hrst, ?_⟩
  simp only [resetEdge_regs, resetEdge_resN, resetEdge_resByte, resetEdge_rxFifo, resetEdge_params, resetEdge_statusWord,
    resetEdge_irq, resetEdge_txOffer, resetEdge_poll, resetEdge_btn, resetWith_btn_state, implies_true, true_and, and_true]
  -- what is left are the fields of `HostRegs.atReset` and of the two units at reset
  and_intros <;> rfl

end Sys2Proof.Proofs.ResetAndHazards

/-! SUPPORT. The opcode map read both ways (30_encoding.md R81 to R83, R97). -/

namespace Sys2Proof.Proofs.OpcodeMap

open Sys2Proof Sys2Proof.Machine Sys2Proof.Claims Sys2Proof.Proofs.WireBytes

/-- Bits [15:8] of a CMD word are ignored: the encoder's zeros there do not reach the opcode. -/
theorem decode_cmdWord (ph : ReplyPhase) (op : Byte) : decode ph (cmdWord op) = decodeOpcode op := by
  have hlow : (op.setWidth 16).extractLsb' 0 8 = op := by
    refine BitVec.eq_of_getLsbD_eq fun t ht => ?_
    simp [ht, show t < 16 by omega]
  exact congrArg decodeOpcode hlow

/-- R83: the listed ranges are exactly what the map leaves out. -/
theorem illegalOpcode_iff (op : Byte) : illegalOpcode op = true ↔ decodeOpcode op = .invalid op := by
  revert op
  decide

/-- Settles O1: a command's word carries its opcode, an INVALID's an opcode outside the map, and a wire byte its marker
and field, which the phase of the instruction reads back. -/
theorem decodeOfEncodeIsIdentity : Obligations.DecodeOfEncodeIsIdentity := by
  unfold Obligations.DecodeOfEncodeIsIdentity
  intro i hwf
  cases i with
  | invalid op => exact (decode_cmdWord _ op).trans ((illegalOpcode_iff op).1 hwf)
  | wirePoll id => exact decodeWire_wireByte_true .echo id
  | wireEcho id => exact decodeWire_echo_wireByte_false id
  | wireData d => exact decodeWire_data_wireByte_false d
  | _ => exact decode_cmdWord _ _

/-- Settles O2: the word's high byte does not enter, and the 256 low bytes are looked up one by one. -/
theorem cmdWordDecodesByOpcodeMap : Obligations.CmdWordDecodesByOpcodeMap := by
  unfold Obligations.CmdWordDecodesByOpcodeMap
  intro w
  change decodeOpcode (w.extractLsb' 0 8) = _
  generalize w.extractLsb' 0 8 = op
  revert op
  decide

/-- Settles O3. -/
theorem illegalOpcodesRunInvalid : Obligations.IllegalOpcodesRunInvalid := by
  unfold Obligations.IllegalOpcodesRunInvalid
  exact fun w => illegalOpcode_iff (w.extractLsb' 0 8)

/-- Settles O5. -/
theorem sampleWordsDecode : Obligations.SampleWordsDecode := by
  unfold Obligations.SampleWordsDecode
  decide

end Sys2Proof.Proofs.OpcodeMap

/-! SUPPORT. What no meaning changes, and where a meaning has no next state (10_state.md R52, 60_exceptions.md R216). -/

namespace Sys2Proof.Proofs.CommandFrame

open Sys2Proof Sys2Proof.Machine Sys2Proof.Claims

/-! ### The frame of every meaning -/

/-- What the host writes, the flags no command reaches, and the model's own records are the same in both states. -/
structure HostStateKept (s t : State) : Prop where
  regs : t.regs = s.regs
  inBuf : t.inBuf = s.inBuf
  rxOvr : t.status.rxOvr = s.status.rxOvr
  wrLost : t.status.wrLost = s.status.wrLost
  engine : t.engine = s.engine
  params : t.params = s.params
  script : t.script = s.script
  resets : t.resets = s.resets
  issued : t.issued = s.issued

theorem HostStateKept.refl (s : State) : HostStateKept s s := ⟨rfl, rfl, rfl, rfl, rfl, rfl, rfl, rfl, rfl⟩

theorem HostStateKept.trans {s t u : State} (h : HostStateKept s t) (k : HostStateKept t u) : HostStateKept s u :=
  ⟨k.regs.trans h.regs, k.inBuf.trans h.inBuf, k.rxOvr.trans h.rxOvr, k.wrLost.trans h.wrLost, k.engine.trans h.engine,
    k.params.trans h.params, k.script.trans h.script, k.resets.trans h.resets, k.issued.trans h.issued⟩

theorem raiseResult_kept (s : State) (c : Result) : HostStateKept s (s.raiseResult c) :=
  ⟨rfl, rfl, rfl, rfl, rfl, rfl, rfl, rfl, rfl⟩

theorem completed_kept {i : Instr} {s t : State} (h : Completed i s t) : HostStateKept s t := by
  have hover : t.status.rxOvr = s.status.rxOvr := by rw [h.status]
  have hlost : t.status.wrLost = s.status.wrLost := by rw [h.status]
  constructor
  case rxOvr => exact hover
  case wrLost => exact hlost
  all_goals rw [h.frame]

theorem callGoesOn_kept {s t : State} (h : CallGoesOn s t) : HostStateKept s t := by
  obtain ⟨hframe, _⟩ := h
  constructor <;> rw [hframe]

theorem finishCall_kept {c : Result} {p : List Byte} {s t : State} (h : finishCall c p s = .next t) :
    HostStateKept s t := by
  rw [finishCall_eq] at h
  cases h
  exact ⟨rfl, rfl, rfl, rfl, rfl, rfl, rfl, rfl, rfl⟩

theorem callEnds_kept {s t : State} {c : Result} (h : CallEnds s t c) : HostStateKept s t := by
  obtain ⟨u, p, hfinish, hframe, _⟩ := h
  have hu : HostStateKept s u := by constructor <;> rw [hframe]
  exact hu.trans (finishCall_kept hfinish)

theorem startCall_kept {s t : State} (h : startCall s = .next t) : HostStateKept s t := by
  unfold startCall at h
  split at h <;> cases h
  · exact raiseResult_kept s .disabled
  · exact ⟨rfl, rfl, rfl, rfl, rfl, rfl, rfl, rfl, rfl⟩

theorem execPollStep_of_idle {s : State} (h : s.poll.bpe = .idle) : execPollStep s = startCall s :=
  FirstEdge.exec_pollStep_of_idle h

theorem execPollStep_kept {s t : State} (h : execPollStep s = .next t) : HostStateKept s t := by
  by_cases hidle : s.poll.bpe = .idle
  · rw [execPollStep_of_idle hidle] at h
    exact startCall_kept h
  · rcases pollEdge_cases s t hidle h with hgoesOn | ⟨_, hends⟩
    · exact callGoesOn_kept hgoesOn
    · exact callEnds_kept hends

/-! ### The wire bytes, as the POLL_STEP that works on them -/

/-- The byte as the oldest FIFO entry, in the place of the one that is there. -/
def withOldest (s : State) (b : Byte) : State := { s with rxFifo := { data := b, err := false } :: s.rxFifo.tail }

/-- Where a byte is taken, POLL_STEP would take it from the FIFO; elsewhere it has no effect (30_encoding.md R89). -/
theorem takeByte_cases (b : Byte) (s : State) :
    takeByte b s = .next s ∨ takeByte b s = execPollStep (withOldest s b) := by
  cases hb : s.poll.bpe with
  | idle => left; simp only [takeByte, hb]
  | tx => left; simp only [takeByte, hb]
  | waitId => right; simp only [takeByte, execPollStep, withOldest, hb]; rfl
  | waitData => right; simp only [takeByte, execPollStep, withOldest, hb]; rfl

/-- A wire byte has no effect, or that of a POLL_STEP in a state that differs in the byte alone. -/
def RunsAsPoll (s : State) (a : Answer) : Prop :=
  a = .next s ∨ ∃ u, HostStateKept s u ∧ a = execPollStep u

theorem takeByte_runsAsPoll (b : Byte) (s : State) : RunsAsPoll s (takeByte b s) :=
  (takeByte_cases b s).imp id fun h => ⟨withOldest s b, ⟨rfl, rfl, rfl, rfl, rfl, rfl, rfl, rfl, rfl⟩, h⟩

theorem wirePoll_runsAsPoll (id : BitVec 7) (s : State) : RunsAsPoll s (exec (.wirePoll id) s) := by
  cases hb : s.poll.bpe with
  | tx =>
    refine .inr ⟨{ s with poll.callId := id }, ⟨rfl, rfl, rfl, rfl, rfl, rfl, rfl, rfl, rfl⟩, ?_⟩
    simp only [exec, execWirePoll, execPollStep, hb]
  | idle | waitId | waitData =>
    have htake : exec (.wirePoll id) s = takeByte (wireByte true id) s := by simp only [exec, execWirePoll, hb]
    exact htake ▸ takeByte_runsAsPoll _ s

theorem runsAsPoll_kept {s t : State} {a : Answer} (ha : RunsAsPoll s a) (h : a = .next t) : HostStateKept s t := by
  rcases ha with rfl | ⟨u, hu, rfl⟩
  · cases h
    exact .refl s
  · exact hu.trans (execPollStep_kept h)

/-- Every meaning of every instruction, in every state. -/
theorem exec_kept {i : Instr} {s t : State} (h : exec i s = .next t) : HostStateKept s t := by
  cases i with
  | pollStep => exact execPollStep_kept h
  | wirePoll id => exact runsAsPoll_kept (wirePoll_runsAsPoll id s) h
  | wireEcho id => exact runsAsPoll_kept (takeByte_runsAsPoll _ s) h
  | wireData d => exact runsAsPoll_kept (takeByte_runsAsPoll _ s) h
  | _ => exact completed_kept (command_completes h (by simp) (by simp) (by simp) (by simp))

/-- Settles O54. -/
theorem commandsLeaveHostStateAlone : Obligations.CommandsLeaveHostStateAlone := by
  unfold Obligations.CommandsLeaveHostStateAlone
  intro i s t h
  have hk := exec_kept h
  exact ⟨hk.regs, fun a => by rw [hk.inBuf], hk.inBuf, hk.rxOvr, hk.wrLost, hk.engine, hk.params, hk.script, hk.resets,
    hk.issued⟩

/-! ### What a meaning answers -/

theorem finishCall_answers (c : Result) (p : List Byte) (s : State) : ∃ t, finishCall c p s = .next t :=
  ⟨_, finishCall_eq c p s⟩

/-- No edge of a call is without a next state. -/
theorem execPollStep_answers (s : State) : ∃ t, execPollStep s = .next t := by
  unfold execPollStep
  split
  · unfold startCall
    split <;> exact ⟨_, rfl⟩
  · unfold transmitEdge
    split_ifs <;> exact ⟨_, rfl⟩
  · unfold windowEdge
    split
    · exact finishCall_answers ..
    · exact ⟨_, rfl⟩
  · rw [takeEcho_eq]
    split
    · exact ⟨_, rfl⟩
    · exact finishCall_answers ..
  · unfold windowEdge
    split
    · exact finishCall_answers ..
    · exact ⟨_, rfl⟩
  · simp only [takeData, checkReply]
    split_ifs
    case pos => exact finishCall_answers ..
    case pos => exact ⟨_, rfl⟩
    all_goals exact finishCall_answers ..

theorem runsAsPoll_answers {s : State} {a : Answer} (ha : RunsAsPoll s a) : ∃ t, a = .next t := by
  rcases ha with rfl | ⟨u, _, rfl⟩
  · exact ⟨s, rfl⟩
  · exact execPollStep_answers u

/-- The instruction reads IN_BUF with a count it accepts (40_wirecodec.md R113, R116, 41_framecrc.md R141). -/
def ReadsInBuf (i : Instr) (n : Nat) : Prop :=
  (i ∈ [Instr.encodeS, .encodeM] ∧ n ≤ 28) ∨ (i ∈ [Instr.decodeS, .decodeM] ∧ 2 ≤ n ∧ n ≤ 32) ∨ (i = .crc8 ∧ n ≤ 32)

/-- A meaning has a next state, or reads byte `k` of IN_BUF, which nothing has written. -/
def NextOrUnwritten (i : Instr) (s : State) (a : Answer) : Prop :=
  (∃ t, a = .next t) ∨
    ∃ k, a = .refused (.inBufNotWritten k) ∧ k < s.regs.argN.toNat ∧ Memory.read s.inBuf k = none ∧
      ReadsInBuf i s.regs.argN.toNat

/-- MemRead with an accepted count, where the rest of the command always has a next state. -/
theorem withInBytes_nextOrUnwritten {i : Instr} {s : State} {rest : List Byte → Answer}
    (hn : s.regs.argN.toNat ≤ bufBytes) (hi : ReadsInBuf i s.regs.argN.toNat)
    (hrest : ∀ bs : List Byte, bs.length = s.regs.argN.toNat → ∃ t, rest bs = .next t) :
    NextOrUnwritten i s (s.withInBytes s.regs.argN.toNat rest) := by
  rcases s.withInBytes_cases s.regs.argN.toNat rest with ⟨hbig, _⟩ | ⟨_, k, hk, hread, hr⟩ | ⟨_, bs, hlen, _, hr⟩
  · exact absurd hn (Nat.not_le.2 hbig)
  · exact .inr ⟨k, hr, hk, hread, hi⟩
  · rw [hr]
    exact .inl (hrest bs hlen)

theorem withOutBytes_answers {s : State} {v : List Byte} {rest : State → Answer} (h : v.length ≤ bufBytes)
    (hrest : ∀ t, ∃ t', rest t = .next t') : ∃ t, s.withOutBytes v rest = .next t := by
  obtain ⟨out, _, _, hr⟩ := s.withOutBytes_of_fits v rest h
  rw [hr]
  exact hrest _

theorem encodeCommand_nextOrUnwritten {i : Instr} (hi : i ∈ [Instr.encodeS, .encodeM]) (role : Bool) (s : State) :
    NextOrUnwritten i s (encodeCommand role s) := by
  by_cases hc : s.regs.argN.toNat = 0 ∨ bufBytes < encodedSize s.regs.argN.toNat
  · rw [encodeCommand_rejects role s hc]
    exact .inl ⟨_, rfl⟩
  · have hn : ¬(s.regs.argN.toNat = 0 ∨ 28 < s.regs.argN.toNat) := (encode_count_iff _).not.1 hc
    rw [encodeCommand_runs role s hc]
    refine withInBytes_nextOrUnwritten (by unfold bufBytes; omega) (.inl ⟨hi, by omega⟩) fun src hlen => ?_
    exact withOutBytes_answers (by rw [length_stuff, hlen]; omega) fun t => ⟨_, rfl⟩

theorem decodeCommand_nextOrUnwritten {i : Instr} (hi : i ∈ [Instr.decodeS, .decodeM]) (s : State) :
    NextOrUnwritten i s (decodeCommand s) := by
  by_cases hc : bufBytes < s.regs.argN.toNat ∨ decodedSize s.regs.argN.toNat = 0
  · rw [decodeCommand_rejects s hc]
    exact .inl ⟨_, rfl⟩
  · have hn : ¬(s.regs.argN.toNat < 2 ∨ 32 < s.regs.argN.toNat) := (decode_count_iff _).not.1 hc
    have hsize := (decodedSize_bounds s.regs.argN.toNat).1
    rw [decodeCommand_runs s hc]
    refine withInBytes_nextOrUnwritten (by omega) (.inr (.inl ⟨hi, by omega, by omega⟩)) fun w hlen => ?_
    exact withOutBytes_answers (by rw [length_unstuff, hlen]; omega) fun t => ⟨_, rfl⟩

theorem execCrc8_nextOrUnwritten (s : State) : NextOrUnwritten .crc8 s (execCrc8 s) := by
  by_cases hc : bufBytes < s.regs.argN.toNat
  · rw [execCrc8_rejects s hc]
    exact .inl ⟨_, rfl⟩
  · rw [execCrc8_runs s hc]
    exact withInBytes_nextOrUnwritten (by omega) (.inr (.inr ⟨rfl, Nat.not_lt.1 hc⟩)) fun data _ => ⟨_, rfl⟩

theorem sizeCommand_answers (size : Nat → Nat) (s : State) : ∃ t, sizeCommand size s = .next t := by
  unfold sizeCommand
  split <;> exact ⟨_, rfl⟩

theorem execBtnSample_answers (s : State) : ∃ t, execBtnSample s = .next t := by
  simp only [execBtnSample]
  split
  · exact ⟨_, rfl⟩
  · split <;> exact ⟨_, rfl⟩

/-- Every instruction in every state. -/
theorem exec_nextOrUnwritten (i : Instr) (s : State) : NextOrUnwritten i s (exec i s) := by
  cases i with
  | encSize => exact .inl (sizeCommand_answers _ s)
  | decSize => exact .inl (sizeCommand_answers _ s)
  | encodeS => exact encodeCommand_nextOrUnwritten (by simp) false s
  | encodeM => exact encodeCommand_nextOrUnwritten (by simp) true s
  | decodeS => exact decodeCommand_nextOrUnwritten (by simp) s
  | decodeM => exact decodeCommand_nextOrUnwritten (by simp) s
  | crc8 => exact execCrc8_nextOrUnwritten s
  | pollStep => exact .inl (execPollStep_answers s)
  | btnSample => exact .inl (execBtnSample_answers s)
  | wirePoll id => exact .inl (runsAsPoll_answers (wirePoll_runsAsPoll id s))
  | wireEcho id => exact .inl (runsAsPoll_answers (takeByte_runsAsPoll _ s))
  | wireData d => exact .inl (runsAsPoll_answers (takeByte_runsAsPoll _ s))
  | encbS | encbM | decbS | decbM | isbS | isbM | rxFlush | btnReset | invalid op => exact .inl ⟨_, rfl⟩

/-- The engine's part of an edge: only a command that runs can have no next state. -/
theorem engineStep_answers (s : State) :
    (∃ t, s.engineStep = .next t) ∨ (s.status.busy = true ∧ s.engineStep = exec s.fetch s) := by
  cases hb : s.status.busy with
  | false => exact .inl ⟨_, engineStep_idle hb⟩
  | true =>
    by_cases hl : 1 < s.engine.latLeft
    · exact .inl ⟨_, engineStep_waiting hb hl⟩
    · exact .inr ⟨rfl, engineStep_runs hb (Nat.not_lt.1 hl)⟩

theorem step_of_illegal {s : State} (h : legalParams s.params = false) : step s = .refused .illegalParameters := by
  simp [step, State.clockEdge, h]

theorem step_of_refusal {s : State} {r : Refusal} (hp : legalParams s.params = true) (hr : s.ports.rst = false)
    (hu : s.beforeEngine.engineStep = .refused r) : step s = .refused r := by
  simp [step, State.clockEdge, hp, hr, State.runEdge, hu]

/-- The answers of a step: illegal parameters, a next state, or an unwritten byte that a running command reads. -/
theorem step_answers (s : State) :
    (legalParams s.params = false ∧ step s = .refused .illegalParameters) ∨ (∃ t, step s = .next t) ∨
      ∃ k, step s = .refused (.inBufNotWritten k) ∧ s.status.busy = true ∧ k < s.regs.argN.toNat ∧
        Memory.read s.inBuf k = none ∧ ReadsInBuf s.beforeEngine.fetch s.regs.argN.toNat := by
  cases hp : legalParams s.params with
  | false => exact .inl ⟨rfl, step_of_illegal hp⟩
  | true =>
    cases hr : s.ports.rst with
    | true => exact .inr (.inl ⟨_, step_of_rst hp hr⟩)
    | false =>
      rcases engineStep_answers s.beforeEngine with ⟨t, ht⟩ | ⟨hb, he⟩
      · exact .inr (.inl ⟨_, step_of_engine hp hr ht⟩)
      · rw [State.beforeEngine_status_busy] at hb
        rcases exec_nextOrUnwritten s.beforeEngine.fetch s.beforeEngine with ⟨t, ht⟩ | ⟨k, hk, hlt, hread, hreads⟩
        · exact .inr (.inl ⟨_, step_of_engine hp hr (he.trans ht)⟩)
        · rw [State.beforeEngine_regs] at hlt hreads
          rw [State.beforeEngine_inBuf] at hread
          exact .inr (.inr ⟨k, step_of_refusal hp hr (he.trans hk), hb, hlt, hread, hreads⟩)

/-- Settles O40: none of the answers of a step is a fault. -/
theorem noStepFaults : Obligations.NoStepFaults := by
  unfold Obligations.NoStepFaults
  intro s f hf
  rcases step_answers s with ⟨_, h⟩ | ⟨t, h⟩ | ⟨k, h, _⟩ <;> rw [h] at hf <;> cases hf

/-- Settles O41. -/
theorem refusalsAreTheTwoTheSpecNames : Obligations.RefusalsAreTheTwoTheSpecNames := by
  unfold Obligations.RefusalsAreTheTwoTheSpecNames
  intro s r hr
  rcases step_answers s with ⟨hp, h⟩ | ⟨t, h⟩ | ⟨k, h, hb, hlt, hread, hreads⟩ <;> rw [h] at hr <;> cases hr
  · exact .inl ⟨rfl, hp⟩
  · exact .inr ⟨k, rfl, hlt, hread, hb, hreads⟩

end Sys2Proof.Proofs.CommandFrame

/-! SUPPORT. The two ends of an edge: what the engine does to the flags, and what the host access does to its state
(20_memory.md R71, 10_state.md R23 to R25). -/

namespace Sys2Proof.Proofs.Edge

open Sys2Proof Sys2Proof.Machine Sys2Proof.Claims Sys2Proof.Proofs.CommandFrame

/-! ### The engine's part -/

/-- An engine edge keeps what a meaning keeps; a waiting command counts its latency, in the engine's own record. -/
theorem engineStep_kept {s t : State} (h : s.engineStep = .next t) : HostStateKept { s with engine := t.engine } t := by
  rcases engineStep_next_cases h with ⟨_, rfl⟩ | ⟨_, _, rfl⟩ | ⟨_, _, hexec⟩
  · exact .refl _
  · exact ⟨rfl, rfl, rfl, rfl, rfl, rfl, rfl, rfl, rfl⟩
  · obtain ⟨hregs, hin, hovr, hlost, _, hparams, hscript, hresets, hissued⟩ := exec_kept hexec
    exact ⟨hregs, hin, hovr, hlost, rfl, hparams, hscript, hresets, hissued⟩

theorem finishCall_flags {c : Result} {p : List Byte} {s t : State} (h : finishCall c p s = .next t) :
    t.status.busy = false ∧ t.status.done = true ∧ t.status.result = c := by
  rw [finishCall_eq] at h
  cases h
  exact ⟨rfl, rfl, rfl⟩

/-- The flags a command moves are as they were, and the command runs on. -/
def FlagsKept (s t : State) : Prop :=
  t.status.busy = s.status.busy ∧ t.status.done = s.status.done ∧ t.status.result = s.status.result

/-- What the engine works on runs on, or completes: BUSY is cleared and DONE set together. -/
theorem exec_fetch_flags {s t : State} (h : exec s.fetch s = .next t) :
    FlagsKept s t ∨ (t.status.busy = false ∧ t.status.done = true) := by
  rcases engineEdge_cases h with ⟨_, _, hcommand⟩ | ⟨_, _, rfl⟩ | ⟨_, _, rfl⟩ | ⟨_, hframe, _⟩ | ⟨_, c, _, _, hfinish, _⟩
  · have hstatus := hcommand.status
    exact .inr ⟨by rw [hstatus], by rw [hstatus]⟩
  · exact .inr ⟨rfl, rfl⟩
  · exact .inl ⟨rfl, rfl, rfl⟩
  · exact .inl ⟨by rw [hframe], by rw [hframe], by rw [hframe]⟩
  · obtain ⟨hbusy, hdone, _⟩ := finishCall_flags hfinish
    exact .inr ⟨hbusy, hdone⟩

theorem engineStep_flags {s t : State} (h : s.engineStep = .next t) :
    FlagsKept s t ∨ (s.status.busy = true ∧ t.status.busy = false ∧ t.status.done = true) := by
  rcases engineStep_next_cases h with ⟨_, rfl⟩ | ⟨_, _, rfl⟩ | ⟨hb, _, hexec⟩
  · exact .inl ⟨rfl, rfl, rfl⟩
  · exact .inl ⟨rfl, rfl, rfl⟩
  · exact (exec_fetch_flags hexec).imp_right fun hdone => ⟨hb, hdone⟩

/-- An idle engine leaves the state after the arrival and the Tick. -/
theorem engineStep_next_of_idle {s t : State} (hb : s.status.busy = false) (h : s.beforeEngine.engineStep = .next t) :
    t = s.beforeEngine := by
  rw [engineStep_idle (by rwa [State.beforeEngine_status_busy])] at h
  cases h
  rfl

/-! ### The host access -/

theorem regAt_eq_cmd_iff (a : BitVec 7) : regAt a = .cmd ↔ a = 0x00 := by
  revert a
  decide

/-- The engine completed a command at the edge from `s` that left it at `t`. -/
def completedNow (s t : State) : Bool := s.status.busy && !t.status.busy

/-- A STATUS write is performed whether or not a command runs. -/
theorem finishEdge_of_status_write {s : State} (hwe : s.ports.regWe = true) (haddr : s.ports.regAddr = 0x01) (t : State) :
    s.finishEdge t =
      { t.writeStatus s.ports.regWdata (completedNow s t) s.ovrSetNow with script := s.script.tail } := by
  have hreg : regAt s.ports.regAddr = .status := (ResetAndHazards.regAt_eq_status_iff _).2 haddr
  simp only [State.finishEdge, State.hostAccess, hwe, hreg, if_true, completedNow]

/-- A write to another register is performed where no command runs. -/
theorem finishEdge_of_accepted_write {s : State} (hwe : s.ports.regWe = true) (haddr : s.ports.regAddr ≠ 0x01)
    (hbusy : s.status.busy = false) (t : State) :
    s.finishEdge t = { t.writeReg (regAt s.ports.regAddr) s.ports.regWdata with script := s.script.tail } := by
  have hreg : regAt s.ports.regAddr ≠ .status := fun h => haddr ((ResetAndHazards.regAt_eq_status_iff _).1 h)
  simp only [State.finishEdge, State.hostAccess, hwe, hbusy, hreg, if_true, if_false, Bool.false_eq_true]

/-- The host issues a command at this edge (10_state.md R24). -/
def Issues (s : State) : Prop := s.status.busy = false ∧ s.ports.regWe = true ∧ s.ports.regAddr = 0x00

/-- The host writes at this edge a register other than CMD and STATUS while no command runs. -/
structure WritesRegister (s : State) : Prop where
  idle : s.status.busy = false
  write : s.ports.regWe = true
  notCmd : s.ports.regAddr ≠ 0x00
  notStatus : s.ports.regAddr ≠ 0x01

/-- The host access of an edge is one of five: none, a STATUS write, a lost write, a command, a register write. -/
theorem finishEdge_cases (s t : State) :
    (s.ports.regWe = false ∧ s.finishEdge t = { t with script := s.script.tail }) ∨
    ((s.ports.regWe = true ∧ s.ports.regAddr = 0x01) ∧ s.finishEdge t =
      { t.writeStatus s.ports.regWdata (completedNow s t) s.ovrSetNow with script := s.script.tail }) ∨
    ((s.ports.regWe = true ∧ s.ports.regAddr ≠ 0x01 ∧ s.status.busy = true) ∧ s.finishEdge t =
      { t with status := { t.status with wrLost := true }, script := s.script.tail }) ∨
    (Issues s ∧ s.finishEdge t = { t.issue s.ports.regWdata with script := s.script.tail }) ∨
    (WritesRegister s ∧ s.finishEdge t =
      { t.writeReg (regAt s.ports.regAddr) s.ports.regWdata with script := s.script.tail }) := by
  cases hwe : s.ports.regWe with
  | false => exact .inl ⟨rfl, FirstEdge.finishEdge_of_no_write hwe t⟩
  | true =>
    by_cases hstatus : s.ports.regAddr = 0x01
    · exact .inr (.inl ⟨⟨rfl, hstatus⟩, finishEdge_of_status_write hwe hstatus t⟩)
    · cases hb : s.status.busy with
      | true =>
        exact .inr (.inr (.inl
          ⟨⟨rfl, hstatus, rfl⟩, ResetAndHazards.finishEdge_of_write_while_busy hb hwe hstatus t⟩))
      | false =>
        have hwrite := finishEdge_of_accepted_write hwe hstatus hb t
        by_cases hcmd : s.ports.regAddr = 0x00
        · rw [(regAt_eq_cmd_iff _).2 hcmd] at hwrite
          exact .inr (.inr (.inr (.inl ⟨⟨hb, hwe, hcmd⟩, hwrite⟩)))
        · exact .inr (.inr (.inr (.inr ⟨⟨hb, hwe, hcmd, hstatus⟩, hwrite⟩)))

/-! ### What a register write leaves -/

theorem writeReg_status {s : State} {r : RegName} {v : Reg16} (h : r ≠ .cmd) : (s.writeReg r v).status = s.status := by
  cases r with
  | cmd => exact absurd rfl h
  | _ => rfl

theorem WritesRegister.ne_cmd {s : State} (h : WritesRegister s) : regAt s.ports.regAddr ≠ .cmd := fun hreg =>
  h.notCmd ((regAt_eq_cmd_iff _).1 hreg)

/-! ### The flags after an edge -/

/-- BUSY after an edge: the engine's, or set by the command issued at it. -/
theorem finishEdge_busy (s t : State) : (s.finishEdge t).status.busy = true ↔ t.status.busy = true ∨ Issues s := by
  have hno : ∀ {p : Prop}, p → (Issues s → ¬p) → ¬Issues s := fun hp himp hi => himp hi hp
  rcases finishEdge_cases s t with ⟨hwe, h⟩ | ⟨⟨_, haddr⟩, h⟩ | ⟨⟨_, _, hb⟩, h⟩ | ⟨hi, h⟩ | ⟨hw, h⟩ <;> rw [h]
  · have hn : ¬Issues s := hno hwe fun ⟨_, hwe', _⟩ => by simp [hwe']
    simp only [hn, or_false]
  · have hn : ¬Issues s := hno haddr fun ⟨_, _, hcmd⟩ => by simp [hcmd]
    simp only [hn, or_false, State.writeStatus_busy]
  · have hn : ¬Issues s := hno hb fun ⟨hb', _⟩ => by simp [hb']
    simp only [hn, or_false]
  · simp only [hi, or_true, iff_true]
    rfl
  · have hn : ¬Issues s := fun ⟨_, _, hcmd⟩ => hw.notCmd hcmd
    simp only [hn, or_false, writeReg_status hw.ne_cmd]

/-- RESULT after an edge is the engine's: no host access moves it. -/
theorem finishEdge_result (s t : State) : (s.finishEdge t).status.result = t.status.result := by
  rcases finishEdge_cases s t with ⟨_, h⟩ | ⟨_, h⟩ | ⟨_, h⟩ | ⟨_, h⟩ | ⟨hw, h⟩ <;> rw [h]
  · rfl
  · rfl
  · simp only [writeReg_status hw.ne_cmd]

/-- Where a command was running, the host access reaches the sticky flags and DONE alone. -/
theorem finishEdge_of_busy {s : State} (hb : s.status.busy = true) (t : State) :
    ∃ st : Status, s.finishEdge t = { t with status := st, script := s.script.tail } ∧ st.busy = t.status.busy ∧
      st.result = t.status.result := by
  have hni : ¬(s.status.busy = false) := by simp [hb]
  rcases finishEdge_cases s t with ⟨_, h⟩ | ⟨_, h⟩ | ⟨_, h⟩ | ⟨⟨hb', _⟩, _⟩ | ⟨⟨hb', _⟩, _⟩
  · exact ⟨t.status, h, rfl, rfl⟩
  · exact ⟨_, h, rfl, rfl⟩
  · exact ⟨_, h, rfl, rfl⟩
  · exact absurd hb' hni
  · exact absurd hb' hni

end Sys2Proof.Proofs.Edge

/-! SUPPORT. The invariant of the block: it holds after reset, and each part of an edge keeps it (10_state.md section 8). -/

namespace Sys2Proof.Proofs.Soundness

open Sys2Proof Sys2Proof.Machine Sys2Proof.Claims Sys2Proof.Proofs.CommandFrame Sys2Proof.Proofs.Edge

/-- The invariant does not speak of the inputs to come, nor of the two counters of the model's free values. -/
theorem inv_withRecords {s : State} (h : Inv s) (l : List Ports) (resets issued : Nat) :
    Inv { s with script := l, resets := resets, issued := issued } :=
  ⟨h.paramsLegal, h.inBufWf, h.outBufWf, h.fifoFits, h.busyNotDone, h.phaseOfPoll, h.callIdBelowCount, h.dataCntLe,
    h.dataCntLt, h.sampleFits, h.latencyLe, h.runCount, h.debounceLatched⟩

/-! ### Reset -/

theorem inv_resetWith {p : Config.Params} (h : legalParams p = true) : Inv (State.resetWith p) where
  paramsLegal := h
  inBufWf := (State.resetWith_wf p).1
  outBufWf := (State.resetWith_wf p).2
  fifoFits := Nat.zero_le _
  busyNotDone := fun _ => rfl
  phaseOfPoll := fun hphase => absurd rfl hphase
  callIdBelowCount := fun hphase => absurd rfl hphase
  dataCntLe := Nat.zero_le _
  dataCntLt := fun hphase => nomatch hphase
  sampleFits := Nat.two_pow_pos _
  latencyLe := Nat.zero_le _
  runCount := ⟨fun _ => rfl, fun _ => rfl⟩
  debounceLatched := fun hbusy => nomatch hbusy

/-- Settles O57. -/
theorem resetStateIsSound : Obligations.ResetStateIsSound := by
  unfold Obligations.ResetStateIsSound
  exact ⟨fun _ hp => inv_resetWith hp, inv_resetWith (by decide)⟩

theorem inv_resetEdge {s : State} (h : legalParams s.params = true) : Inv s.resetEdge :=
  inv_withRecords (inv_resetWith h) s.script.tail (s.resets + 1) s.issued

/-! ### The arrival and the Tick -/

theorem tick_left_le (s : State) (p : Ports) : (s.tick p).btn.left.toNat ≤ s.btn.left.toNat := by
  unfold State.tick
  split
  · exact countDown_le s.btn.left
  · exact Nat.le_refl _

theorem inv_beforeEngine {s : State} (h : Inv s) : Inv s.beforeEngine where
  paramsLegal := by simpa using h.paramsLegal
  inBufWf := by simpa using h.inBufWf
  outBufWf := by simpa using h.outBufWf
  fifoFits := by simpa [State.beforeEngine] using State.arrive_fits s s.ports h.fifoFits
  busyNotDone := by simpa using h.busyNotDone
  phaseOfPoll := by simpa using h.phaseOfPoll
  callIdBelowCount := by simpa using h.callIdBelowCount
  dataCntLe := by simpa using h.dataCntLe
  dataCntLt := by simpa using h.dataCntLt
  sampleFits := by simpa using h.sampleFits
  latencyLe := by simpa using h.latencyLe
  runCount := by simpa using h.runCount
  debounceLatched := fun hbusy => by
    have hleft : s.beforeEngine.btn.left.toNat ≤ s.btn.left.toNat := by
      simpa [State.beforeEngine] using tick_left_le (s.arrive s.ports) s.ports
    have hlatch := h.debounceLatched
    simp only [State.beforeEngine_status_busy, State.beforeEngine_engine] at hbusy ⊢
    exact hleft.trans (hlatch hbusy)

/-! ### The engine -/

/-- What is left to show of an edge of the engine that keeps what every meaning keeps. -/
theorem inv_of_kept {s t : State} (h : Inv s) (hk : HostStateKept s t) (hout : Memory.wf t.outBuf = true)
    (hfifo : t.rxFifo.length ≤ s.rxFifo.length) (hdone : t.status.busy = true → t.status.done = false)
    (hphase : t.poll.bpe ≠ .idle → t.status.busy = true ∧ s.engine.opcode = pollStepOpcode ∧
      t.poll.callId.toNat < s.regs.terminalCount.toNat)
    (hcnt : t.poll.dataCnt.toNat ≤ replyBytes) (hlt : t.poll.bpe = .waitData → t.poll.dataCnt.toNat < replyBytes)
    (hrun : t.btn.last = none ↔ t.btn.count = 0)
    (hleft : t.status.busy = true → t.btn.left.toNat ≤ s.engine.debounceAtIssue.toNat) : Inv t where
  paramsLegal := hk.params ▸ h.paramsLegal
  inBufWf := hk.inBuf ▸ h.inBufWf
  outBufWf := hout
  fifoFits := hk.params ▸ hfifo.trans h.fifoFits
  busyNotDone := hdone
  phaseOfPoll := fun hp => ⟨(hphase hp).1, hk.engine ▸ (hphase hp).2.1⟩
  callIdBelowCount := fun hp => hk.regs ▸ (hphase hp).2.2
  dataCntLe := hcnt
  dataCntLt := hlt
  sampleFits := by rw [hk.regs, hk.params]; exact h.sampleFits
  latencyLe := by rw [hk.engine, hk.params]; exact h.latencyLe
  runCount := hrun
  debounceLatched := fun hb => hk.engine ▸ hleft hb

/-- Every command that completes leaves a run exactly where it leaves a count (43_buttons.md R184). -/
theorem completed_runCount {i : Instr} {s t : State} (hc : Completed i s t)
    (h : s.btn.last = none ↔ s.btn.count = 0) : t.btn.last = none ↔ t.btn.count = 0 := by
  rcases hc.buttons with hkept | hends | ⟨_, b, _, hdetect⟩ | ⟨_, hreset⟩
  · rwa [hkept]
  · simp [hends]
  · obtain ⟨hlast, hcount⟩ := detect_run s.regs s.btn b
    simp only [hdetect, hlast, hcount, reduceCtorEq]
  · rwa [hreset]

theorem inv_of_completed {i : Instr} {s t : State} (h : Inv s) (hidle : s.poll.bpe = .idle) (hc : Completed i s t) :
    Inv t := by
  have hpoll : t.poll = s.poll := by rw [hc.frame]
  have hbusy : t.status.busy ≠ true := by rw [hc.status]; simp
  have hfifo : t.rxFifo.length ≤ s.rxFifo.length := by
    rcases hc.fifo with hf | hf <;> simp [hf]
  refine inv_of_kept h (completed_kept hc) (hc.outWf h.outBufWf) hfifo (fun hb => absurd hb hbusy)
    (fun hp => absurd (hpoll ▸ hidle) hp) ?_ ?_ (completed_runCount hc h.runCount) (fun hb => absurd hb hbusy)
  · exact hpoll ▸ h.dataCntLe
  · exact hpoll ▸ h.dataCntLt

theorem inv_raiseResult {s : State} (h : Inv s) (hidle : s.poll.bpe = .idle) (c : Result) : Inv (s.raiseResult c) :=
  inv_of_kept h (raiseResult_kept s c) h.outBufWf (Nat.le_refl _) (fun hb => nomatch hb)
    (fun hp => absurd hidle hp) h.dataCntLe h.dataCntLt h.runCount (fun hb => nomatch hb)

/-- R153: the id of a new call follows the stored one, modulo TERMINAL_COUNT, and so is below it. -/
theorem toNat_nextPollId (next : BitVec 7) {count : BitVec 7} (h : count ≠ 0) :
    (nextPollId next count).toNat = (next.toNat + 1) % count.toNat ∧
      (nextPollId next count).toNat < count.toNat := by
  have hpos : 0 < count.toNat := Nat.pos_of_ne_zero fun h0 => h (BitVec.eq_of_toNat_eq h0)
  have hmod := Nat.mod_lt (next.toNat + 1) hpos
  rw [nextPollId, BitVec.toNat_ofNat, Nat.mod_eq_of_lt (hmod.trans count.isLt)]
  exact ⟨rfl, hmod⟩

theorem inv_of_callGoesOn {s t : State} (h : Inv s) (hphase : s.poll.bpe ≠ .idle) (hc : CallGoesOn s t) : Inv t := by
  obtain ⟨hbusy, hop⟩ := h.phaseOfPoll hphase
  have hk := callGoesOn_kept hc
  obtain ⟨hframe, hgo, hid, hfifo, _, _, _, _, _, _, hcnt, hnew, _⟩ := hc
  have hstatus : t.status = s.status := by rw [hframe]
  have hbtn : t.btn = s.btn := by rw [hframe]
  have hout : t.outBuf = s.outBuf := by rw [hframe]
  refine inv_of_kept h hk (hout ▸ h.outBufWf) ?_ (hstatus ▸ h.busyNotDone)
    (fun _ => ⟨hstatus ▸ hbusy, hop, hid ▸ h.callIdBelowCount hphase⟩) ?_ ?_ (hbtn ▸ h.runCount)
    (fun hb => hbtn ▸ h.debounceLatched (hstatus ▸ hb))
  · rcases hfifo with hf | hf <;> simp [hf]
  · rcases hcnt with hc | ⟨_, hc⟩
    · exact hc ▸ h.dataCntLe
    · exact hc.le
  · intro hdata
    rcases hcnt with hkept | ⟨_, hc⟩
    · rcases hnew hdata with hold | h0
      · exact hkept ▸ h.dataCntLt hold
      · simp [h0, replyBytes]
    · exact hc

theorem inv_of_callEnds {s t : State} {c : Result} (h : Inv s) (hc : CallEnds s t c) : Inv t := by
  have hk := callEnds_kept hc
  obtain ⟨u, p, hfinish, hframe, _, hfifo, _, _, _, _, _, hcnt, _⟩ := hc
  obtain ⟨hbusy, _, _⟩ := finishCall_flags hfinish
  have hnot : t.status.busy ≠ true := by simp [hbusy]
  rw [finishCall_eq] at hfinish
  cases hfinish
  refine inv_of_kept h hk ?_ ?_ (fun hb => absurd hb hnot) (fun hp => absurd rfl hp) ?_ (fun hp => nomatch hp) ?_
    (fun hb => absurd hb hnot)
  · rw [hframe]
    exact h.outBufWf
  · have hu : u.rxFifo.length ≤ s.rxFifo.length := by rcases hfifo with hf | hf <;> simp [hf]
    dsimp only
    split
    · exact Nat.zero_le _
    · exact hu
  · change u.poll.dataCnt.toNat ≤ replyBytes
    rcases hcnt with hc | ⟨hdata, hc⟩
    · exact hc ▸ h.dataCntLe
    · have hlt := h.dataCntLt hdata
      rw [hc, BitVec.toNat_add]
      exact (Nat.mod_le _ _).trans hlt
  · rw [hframe]
    exact h.runCount

/-- What the engine works on keeps a sound state sound. -/
theorem inv_exec_fetch {s t : State} (h : Inv s) (hbusy : s.status.busy = true) (hexec : exec s.fetch s = .next t) :
    Inv t := by
  rcases fetched_cases (fun hp => (h.phaseOfPoll hp).2) hexec with
    ⟨hidle, _, hc⟩ | ⟨hidle, _, _, rfl⟩ | ⟨hidle, hop, hcount, rfl⟩ | ⟨hphase, hc⟩ | ⟨_, c, hc⟩
  · exact inv_of_completed h hidle hc
  · exact inv_raiseResult h hidle .disabled
  · exact inv_of_kept h ⟨rfl, rfl, rfl, rfl, rfl, rfl, rfl, rfl, rfl⟩ h.outBufWf (Nat.le_refl _) h.busyNotDone
      (fun _ => ⟨hbusy, hop, (toNat_nextPollId _ hcount).2⟩) h.dataCntLe (fun hp => nomatch hp) h.runCount h.debounceLatched
  · exact inv_of_callGoesOn h hphase hc
  · exact inv_of_callEnds h hc

theorem inv_latencyDown {s : State} (h : Inv s) : Inv { s with engine.latLeft := s.engine.latLeft - 1 } :=
  ⟨h.paramsLegal, h.inBufWf, h.outBufWf, h.fifoFits, h.busyNotDone, h.phaseOfPoll, h.callIdBelowCount, h.dataCntLe,
    h.dataCntLt, h.sampleFits, (Nat.sub_le _ _).trans h.latencyLe, h.runCount, h.debounceLatched⟩

theorem inv_engineStep {s t : State} (h : Inv s) (ht : s.engineStep = .next t) : Inv t := by
  rcases engineStep_next_cases ht with ⟨_, rfl⟩ | ⟨_, _, rfl⟩ | ⟨hbusy, _, hexec⟩
  · exact h
  · exact inv_latencyDown h
  · exact inv_exec_fetch h hbusy hexec

/-! ### The host access -/

/-- The flags the host writes may be anything, so long as BUSY stays and DONE is not set. -/
theorem inv_withFlags {s : State} (h : Inv s) (st : Status) (hbusy : st.busy = s.status.busy)
    (hdone : st.done = true → s.status.done = true) : Inv { s with status := st } where
  paramsLegal := h.paramsLegal
  inBufWf := h.inBufWf
  outBufWf := h.outBufWf
  fifoFits := h.fifoFits
  busyNotDone := fun hb => Bool.eq_false_iff.2 fun hd =>
    Bool.eq_false_iff.1 (h.busyNotDone (hbusy ▸ hb)) (hdone hd)
  phaseOfPoll := fun hp => ⟨hbusy.trans (h.phaseOfPoll hp).1, (h.phaseOfPoll hp).2⟩
  callIdBelowCount := h.callIdBelowCount
  dataCntLe := h.dataCntLe
  dataCntLt := h.dataCntLt
  sampleFits := h.sampleFits
  latencyLe := h.latencyLe
  runCount := h.runCount
  debounceLatched := fun hb => h.debounceLatched (hbusy ▸ hb)

/-- A sound idle block is in no call. -/
theorem bpe_idle_of_not_busy {s : State} (h : Inv s) (hbusy : s.status.busy = false) : s.poll.bpe = .idle :=
  Classical.byContradiction fun hp => Bool.eq_false_iff.1 hbusy (h.phaseOfPoll hp).1

theorem latMax_pos {p : Config.Params} (h : legalParams p = true) : 1 ≤ p.latMax := by
  simp only [legalParams, Bool.and_eq_true, decide_eq_true_eq] at h
  exact h.2

theorem inv_issue {s : State} (h : Inv s) (hbusy : s.status.busy = false) (w : Reg16) : Inv (s.issue w) where
  paramsLegal := h.paramsLegal
  inBufWf := h.inBufWf
  outBufWf := h.outBufWf
  fifoFits := h.fifoFits
  busyNotDone := fun _ => rfl
  phaseOfPoll := fun hp => absurd (bpe_idle_of_not_busy h hbusy) hp
  callIdBelowCount := fun hp => absurd (bpe_idle_of_not_busy h hbusy) hp
  dataCntLe := h.dataCntLe
  dataCntLt := h.dataCntLt
  sampleFits := h.sampleFits
  latencyLe := (commandLatency_bounds s).2 (latMax_pos h.paramsLegal)
  runCount := h.runCount
  debounceLatched := fun _ => Nat.le_refl _

/-- The registers the host writes may be anything while no command runs, so long as ARG_SAMPLE keeps its width. -/
theorem inv_withRegs {s : State} (h : Inv s) (hbusy : s.status.busy = false) (r : HostRegs)
    (hsample : r.argSample.toNat < 2 ^ s.params.adcWidth) : Inv { s with regs := r } :=
  ⟨h.paramsLegal, h.inBufWf, h.outBufWf, h.fifoFits, h.busyNotDone, h.phaseOfPoll,
    fun hp => absurd (bpe_idle_of_not_busy h hbusy) hp, h.dataCntLe, h.dataCntLt, hsample, h.latencyLe, h.runCount,
    h.debounceLatched⟩

theorem inv_withInBuf {s : State} (h : Inv s) {m : Memory} (hm : Memory.wf m = true) : Inv { s with inBuf := m } :=
  ⟨h.paramsLegal, hm, h.outBufWf, h.fifoFits, h.busyNotDone, h.phaseOfPoll, h.callIdBelowCount, h.dataCntLe,
    h.dataCntLt, h.sampleFits, h.latencyLe, h.runCount, h.debounceLatched⟩

theorem inv_writeReg {s : State} (h : Inv s) (hbusy : s.status.busy = false) (a : BitVec 7) (v : Reg16) :
    Inv (s.writeReg (regAt a) v) := by
  cases hr : regAt a with
  | cmd => exact inv_issue h hbusy v
  | argSample => exact inv_withRegs h hbusy _ (sampleField_lt s.params h.paramsLegal v)
  | inBuf i => exact inv_withInBuf h (Memory.wf_write _ _ _ (bufIndex_lt a i hr) h.inBufWf)
  | btnMean b => cases b <;> exact inv_withRegs h hbusy _ h.sampleFits
  | btnInterval b => cases b <;> exact inv_withRegs h hbusy _ h.sampleFits
  | ctrl | argN | argByte | terminalCount | pollTimeoutMs | connTimeoutMs | debounceMs | heldThreshold | edgeThreshold =>
    exact inv_withRegs h hbusy _ h.sampleFits
  | status | resN | resByte | pollNextId | pollDev | pollTrim | pollBtn | pollCrc | bcStates | bcRun | bcDebounceLeft
  | outBuf i | reserved => exact h

/-- The host access keeps a sound state sound: where no command ran before the edge, none runs when the host writes. -/
theorem inv_hostAccess {s : State} (h : Inv s) (p : Ports) {wasBusy : Bool} (d o : Bool)
    (hbusy : wasBusy = false → s.status.busy = false) : Inv (s.hostAccess p wasBusy d o) := by
  unfold State.hostAccess
  split
  · split
    · exact inv_withFlags h _ rfl fun hd => by
        simp only [Bool.and_eq_true] at hd
        exact hd.1
    · split
      · exact inv_withFlags h _ rfl id
      · rename_i hwas
        exact inv_writeReg h (hbusy (Bool.eq_false_iff.2 hwas)) p.regAddr p.regWdata
  · exact h

/-- Settles O58: an edge is reset, or the arrival, the Tick, the engine and the host access one after the other, and each
keeps the invariant. -/
theorem everyStepKeepsTheStateSound : Obligations.EveryStepKeepsTheStateSound := by
  unfold Obligations.EveryStepKeepsTheStateSound
  intro s t h hstep
  obtain ⟨hparams, ⟨_, rfl⟩ | ⟨_, u, hengine, rfl⟩⟩ := clockEdge_next_cases hstep
  · exact inv_resetEdge hparams
  · have hu : Inv u := inv_engineStep (inv_beforeEngine h) hengine
    have hidle : s.status.busy = false → u.status.busy = false := fun hb => by
      rw [engineStep_next_of_idle hb hengine, State.beforeEngine_status_busy, hb]
    exact inv_withRecords (inv_hostAccess hu s.ports _ _ hidle) s.script.tail _ _

end Sys2Proof.Proofs.Soundness

/-! SUPPORT. The register map, the fields of the register words, and what a write stores (10_state.md R23 to R47,
30_encoding.md R84). -/

namespace Sys2Proof.Proofs.Registers

open Sys2Proof Sys2Proof.Machine Sys2Proof.Claims

/-! ### Words put together from their fields -/

theorem getLsbD_append_low {a b : Nat} (x : BitVec a) (y : BitVec b) {k : Nat} (h : k < b) :
    (x ++ y).getLsbD k = y.getLsbD k := by rw [BitVec.getLsbD_append, if_pos h]

theorem getLsbD_append_high {a b : Nat} (x : BitVec a) (y : BitVec b) (k : Nat) :
    (x ++ y).getLsbD (b + k) = x.getLsbD k := by
  rw [BitVec.getLsbD_append, if_neg (by omega), Nat.add_sub_cancel_left]

theorem extractLsb'_append_low {a b : Nat} (x : BitVec a) (y : BitVec b) : (x ++ y).extractLsb' 0 b = y :=
  BitVec.extractLsb'_append_eq_right

theorem extractLsb'_append_high {a b : Nat} (x : BitVec a) (y : BitVec b) (k n : Nat) :
    (x ++ y).extractLsb' (b + k) n = x.extractLsb' k n := by
  refine BitVec.eq_of_getLsbD_eq fun t ht => ?_
  simp only [BitVec.getLsbD_extractLsb', Nat.add_assoc, getLsbD_append_high]

/-- A flag below the fields `x`. -/
theorem getLsbD_append_ofBool {a : Nat} (x : BitVec a) (b : Bool) : (x ++ BitVec.ofBool b).getLsbD 0 = b :=
  (getLsbD_append_low x _ Nat.one_pos).trans (by cases b <;> rfl)

/-! ### STATUS (10_state.md R25) -/

/-- Each field of STATUS is reached by passing the fields below it, whose widths from the bottom are 1, 4, 1, 1, 1, 3. -/
theorem statusWord_fields (s : State) :
    s.statusWord.getLsbD 0 = s.status.busy ∧ s.statusWord.extractLsb' 1 4 = s.status.result.code ∧
      s.statusWord.getLsbD 5 = s.status.done ∧ s.statusWord.getLsbD 6 = s.status.rxOvr ∧
      s.statusWord.getLsbD 7 = s.status.wrLost ∧ s.statusWord.extractLsb' 8 3 = s.poll.bpe.code ∧
      s.statusWord.extractLsb' 11 5 = BitVec.ofNat 5 s.rxFifo.length := by
  refine ⟨?busy, ?result, ?done, ?rxOvr, ?wrLost, ?phase, ?count⟩
  case busy => exact getLsbD_append_ofBool ..
  case result => exact (extractLsb'_append_high _ _ 0 4).trans (extractLsb'_append_low ..)
  case done =>
    exact (getLsbD_append_high _ _ 4).trans <| (getLsbD_append_high _ _ 0).trans <| getLsbD_append_ofBool ..
  case rxOvr =>
    exact (getLsbD_append_high _ _ 5).trans <| (getLsbD_append_high _ _ 1).trans <|
      (getLsbD_append_high _ _ 0).trans <| getLsbD_append_ofBool ..
  case wrLost =>
    exact (getLsbD_append_high _ _ 6).trans <| (getLsbD_append_high _ _ 2).trans <|
      (getLsbD_append_high _ _ 1).trans <| (getLsbD_append_high _ _ 0).trans <| getLsbD_append_ofBool ..
  case phase =>
    exact (extractLsb'_append_high _ _ 7 3).trans <| (extractLsb'_append_high _ _ 3 3).trans <|
      (extractLsb'_append_high _ _ 2 3).trans <| (extractLsb'_append_high _ _ 1 3).trans <|
      (extractLsb'_append_high _ _ 0 3).trans <| extractLsb'_append_low ..
  case count =>
    exact (extractLsb'_append_high _ _ 10 5).trans <| (extractLsb'_append_high _ _ 6 5).trans <|
      (extractLsb'_append_high _ _ 5 5).trans <| (extractLsb'_append_high _ _ 4 5).trans <|
      (extractLsb'_append_high _ _ 3 5).trans <| (extractLsb'_append_high _ _ 0 5).trans BitVec.extractLsb'_eq_self

/-- Settles O42: RX_COUNT's five bits hold the length of a FIFO of at most 31 entries. -/
theorem statusWordLayout : Obligations.StatusWordLayout := by
  unfold Obligations.StatusWordLayout
  refine ⟨by decide, by decide, fun s hlen => ?_⟩
  obtain ⟨hbusy, hresult, hdone, hovr, hlost, hphase, hcount⟩ := statusWord_fields s
  refine ⟨hbusy, hresult, hdone, hovr, hlost, hphase, ?_⟩
  change (s.statusWord.extractLsb' 11 5).toNat = _
  rw [hcount, BitVec.toNat_ofNat, Nat.mod_eq_of_lt (by omega)]

/-! ### The map and the other registers -/

/-- Settles O43: the 128 addresses are looked up one by one. -/
theorem registerMapNamesEveryAddress : Obligations.RegisterMapNamesEveryAddress := by
  unfold Obligations.RegisterMapNamesEveryAddress
  exact ⟨by decide, fun s v => ⟨rfl, rfl, rfl⟩⟩

/-- CTRL (10_state.md R26). -/
theorem ctrl_fields (s : State) :
    (s.readReg .ctrl).getLsbD 0 = s.regs.irqEn ∧ (s.readReg .ctrl).getLsbD 1 = s.regs.chkMark ∧
      (s.readReg .ctrl).extractLsb' 2 14 = 0 :=
  ⟨getLsbD_append_ofBool .., (getLsbD_append_high _ _ 0).trans (getLsbD_append_ofBool ..),
    (extractLsb'_append_high _ _ 1 14).trans <| (extractLsb'_append_high _ _ 0 14).trans BitVec.extractLsb'_eq_self⟩

theorem pollCrc_fields (s : State) :
    (s.readReg .pollCrc).extractLsb' 0 8 = s.poll.crcRx ∧ (s.readReg .pollCrc).extractLsb' 8 8 = s.poll.crcCalc :=
  ⟨extractLsb'_append_low .., (extractLsb'_append_high _ _ 0 8).trans BitVec.extractLsb'_eq_self⟩

/-- A field of a zero-extended word below its width is a field of what was extended. -/
theorem extractLsb'_setWidth {a b : Nat} (x : BitVec a) {k n : Nat} (h : k + n ≤ b) :
    (x.setWidth b).extractLsb' k n = x.extractLsb' k n := by
  refine BitVec.eq_of_getLsbD_eq fun t ht => ?_
  simp [ht, show k + t < b by omega]

/-- BC_STATES (10_state.md R45). -/
theorem bcStates_fields (s : State) :
    (s.readReg .bcStates).extractLsb' 0 2 = (s.btn.state .b1).code ∧
      (s.readReg .bcStates).extractLsb' 2 2 = (s.btn.state .b2).code ∧
      (s.readReg .bcStates).extractLsb' 4 2 = (s.btn.state .b3).code ∧ (s.readReg .bcStates).extractLsb' 6 10 = 0 := by
  refine ⟨?_, ?_, ?_, ?_⟩
  · exact (extractLsb'_setWidth _ (by decide)).trans (extractLsb'_append_low ..)
  · exact (extractLsb'_setWidth _ (by decide)).trans <| (extractLsb'_append_high _ _ 0 2).trans <|
      extractLsb'_append_low ..
  · exact (extractLsb'_setWidth _ (by decide)).trans <| (extractLsb'_append_high _ _ 2 2).trans <|
      (extractLsb'_append_high _ _ 0 2).trans BitVec.extractLsb'_eq_self
  · refine (extractLsb'_setWidth _ (by decide)).trans (BitVec.eq_of_getLsbD_eq fun t ht => ?_)
    simp [BitVec.getLsbD_of_ge]

/-- BC_RUN (10_state.md R46). -/
theorem bcRun_fields (s : State) :
    (s.readReg .bcRun).extractLsb' 0 2 = buttonNumber s.btn.last ∧ (s.readReg .bcRun).extractLsb' 2 6 = 0 ∧
      (s.readReg .bcRun).extractLsb' 8 8 = s.btn.count :=
  ⟨extractLsb'_append_low .., (extractLsb'_append_high _ _ 0 6).trans (extractLsb'_append_low ..),
    (extractLsb'_append_high _ _ 6 8).trans <| (extractLsb'_append_high _ _ 0 8).trans BitVec.extractLsb'_eq_self⟩

/-- The low `k` bits of a word, as a mask. -/
theorem getLsbD_lowMask (k : Nat) {t : Nat} (h : t < 16) :
    (BitVec.ofNat 16 (2 ^ k - 1)).getLsbD t = decide (t < k) := by
  rw [BitVec.getLsbD_ofNat, Nat.testBit_two_pow_sub_one, decide_eq_true h, Bool.true_and]

theorem getLsbD_sampleField (adcWidth : Nat) (v : Reg16) {i : Nat} (h : i < 16) :
    (sampleField adcWidth v).getLsbD i = (v.getLsbD i && decide (i < adcWidth)) := by
  rw [sampleField, BitVec.getLsbD_and, getLsbD_lowMask _ h]

/-- A buffer byte that has been written reads as it was written (20_memory.md R61, R62). -/
theorem hostByte_of_read {s : State} {m : Memory} {base i : Nat} {b : Byte} (h : Memory.read m i = some b) :
    s.hostByte m base i = b := by
  rw [State.hostByte, h]
  rfl

/-- Settles O44: the words of one field are the field zero-extended; the others have their fields at their places. -/
theorem registerWordsShowTheirFields : Obligations.RegisterWordsShowTheirFields := by
  unfold Obligations.RegisterWordsShowTheirFields
  refine ⟨by decide, ⟨rfl, rfl, rfl, rfl, fun _ => rfl⟩, fun s => ?_⟩
  refine ⟨rfl, ctrl_fields s, rfl, rfl, rfl, rfl, rfl, fun i hi => getLsbD_sampleField _ _ hi, rfl, rfl, rfl, rfl, rfl,
    rfl, rfl, pollCrc_fields s, rfl, rfl, rfl, fun b => ⟨rfl, rfl⟩, ⟨rfl, rfl, rfl, rfl, rfl, rfl⟩, bcStates_fields s,
    bcRun_fields s, rfl, fun i b hb => ?_, fun i b hb => ?_⟩
  · exact congrArg (BitVec.setWidth 16) (hostByte_of_read hb)
  · exact congrArg (BitVec.setWidth 16) (hostByte_of_read hb)

/-! ### What a write stores (10_state.md R23) -/

/-- A register of `k` bits keeps the low `k` bits of a word. -/
theorem setWidth_setWidth_eq_and (v : Reg16) (k : Nat) :
    (v.setWidth k).setWidth 16 = v &&& BitVec.ofNat 16 (2 ^ k - 1) := by
  refine BitVec.eq_of_getLsbD_eq fun t ht => ?_
  rw [BitVec.getLsbD_and, getLsbD_lowMask k ht, BitVec.getLsbD_setWidth, BitVec.getLsbD_setWidth, decide_eq_true ht,
    Bool.true_and, Bool.and_comm]

theorem ctrl_word_eq_and (v : Reg16) :
    (0 : BitVec 14) ++ BitVec.ofBool (v.getLsbD 1) ++ BitVec.ofBool (v.getLsbD 0) = v &&& 0x0003 := by
  have hmask : ∀ {t}, t < 16 → (0x0003 : Reg16).getLsbD t = decide (t < 2) := getLsbD_lowMask 2
  refine BitVec.eq_of_getLsbD_eq fun t ht => ?_
  rw [BitVec.getLsbD_and, hmask ht]
  obtain rfl | rfl | ⟨k, rfl⟩ : t = 0 ∨ t = 1 ∨ ∃ k, t = 1 + (1 + k) := by
    rcases t with _ | _ | k
    · exact .inl rfl
    · exact .inr (.inl rfl)
    · exact .inr (.inr ⟨k, by omega⟩)
  · exact (getLsbD_append_ofBool ..).trans (Bool.and_true _).symm
  · exact (getLsbD_append_high _ _ 0).trans <| (getLsbD_append_ofBool ..).trans (Bool.and_true _).symm
  · rw [decide_eq_false (show ¬1 + (1 + k) < 2 by omega), Bool.and_false]
    exact (getLsbD_append_high _ _ (1 + k)).trans <| (getLsbD_append_high _ _ k).trans BitVec.getLsbD_zero

theorem sampleField_idem (adcWidth : Nat) (v : Reg16) :
    sampleField adcWidth (sampleField adcWidth v) = sampleField adcWidth v := by
  rw [sampleField, sampleField, BitVec.and_assoc, BitVec.and_self]

theorem mean_setMean (r : HostRegs) (b c : Button) (v : Reg16) :
    (r.setMean b v).mean c = if c = b then v else r.mean c := by
  cases b <;> cases c <;> rfl

theorem interval_setInterval (r : HostRegs) (b c : Button) (v : Reg16) :
    (r.setInterval b v).interval c = if c = b then v else r.interval c := by
  cases b <;> cases c <;> rfl

/-- A written register reads as the writable bits of what was written. -/
theorem readReg_writeReg_same {s : State} {r : RegName} {m : Reg16} (v : Reg16)
    (h : writableMask s.params.adcWidth r = some m) : (s.writeReg r v).readReg r = v &&& m := by
  have hall : v = v &&& 0xFFFF := BitVec.and_allOnes.symm
  cases r <;> cases h
  case ctrl => exact ctrl_word_eq_and v
  case argN => exact setWidth_setWidth_eq_and v 8
  case argByte => exact setWidth_setWidth_eq_and v 8
  case argSample => exact sampleField_idem ..
  case terminalCount => exact setWidth_setWidth_eq_and v 7
  case heldThreshold => exact setWidth_setWidth_eq_and v 8
  case pollTimeoutMs => exact hall
  case connTimeoutMs => exact hall
  case debounceMs => exact hall
  case edgeThreshold => exact hall
  case btnMean b => exact ((mean_setMean _ b b v).trans (if_pos rfl)).trans hall
  case btnInterval b => exact ((interval_setInterval _ b b v).trans (if_pos rfl)).trans hall
  case inBuf i =>
    have hread : Memory.read (Memory.write s.inBuf i (v.setWidth 8)) i = some (v.setWidth 8) := by
      rw [Memory.read_write, if_pos rfl]
    exact (congrArg (BitVec.setWidth 16) (hostByte_of_read hread)).trans (setWidth_setWidth_eq_and v 8)

/-- Read-only registers and reserved addresses ignore a write. -/
theorem writeReg_of_readOnly {s : State} {r : RegName} (v : Reg16) (hcmd : r ≠ .cmd)
    (h : writableMask s.params.adcWidth r = none) : s.writeReg r v = s := by
  cases r <;> cases h
  case cmd => exact absurd rfl hcmd
  all_goals rfl

theorem readReg_inBuf_write {s : State} {i : Nat} {q : RegName} (v : Reg16) (hq : q ≠ .inBuf i) :
    (s.writeReg (.inBuf i) v).readReg q = s.readReg q := by
  cases q with
  | inBuf j =>
    have hj : j ≠ i := fun h => hq (h ▸ rfl)
    have hread : Memory.read (Memory.write s.inBuf i (v.setWidth 8)) j = Memory.read s.inBuf j := by
      rw [Memory.read_write, if_neg hj]
    simp only [State.readReg, State.writeReg, State.hostByte, hread]
  | _ => rfl

theorem readReg_btnMean_write {s : State} {b : Button} {q : RegName} (v : Reg16) (hq : q ≠ .btnMean b) :
    (s.writeReg (.btnMean b) v).readReg q = s.readReg q := by
  cases q with
  | btnMean c => exact (mean_setMean _ b c v).trans (if_neg fun hcb => hq (congrArg RegName.btnMean hcb))
  | btnInterval c => cases b <;> cases c <;> rfl
  | _ => cases b <;> rfl

theorem readReg_btnInterval_write {s : State} {b : Button} {q : RegName} (v : Reg16) (hq : q ≠ .btnInterval b) :
    (s.writeReg (.btnInterval b) v).readReg q = s.readReg q := by
  cases q with
  | btnInterval c => exact (interval_setInterval _ b c v).trans (if_neg fun hcb => hq (congrArg RegName.btnInterval hcb))
  | btnMean c => cases b <;> cases c <;> rfl
  | _ => cases b <;> rfl

/-- A write reaches its own register alone. -/
theorem readReg_writeReg_other {s : State} {r q : RegName} (v : Reg16) (hcmd : r ≠ .cmd) (hq : q ≠ r) :
    (s.writeReg r v).readReg q = s.readReg q := by
  cases r with
  | cmd => exact absurd rfl hcmd
  | inBuf i => exact readReg_inBuf_write v hq
  | btnMean b => exact readReg_btnMean_write v hq
  | btnInterval b => exact readReg_btnInterval_write v hq
  | ctrl => cases q with | ctrl => exact absurd rfl hq | _ => rfl
  | argN => cases q with | argN => exact absurd rfl hq | _ => rfl
  | argByte => cases q with | argByte => exact absurd rfl hq | _ => rfl
  | argSample => cases q with | argSample => exact absurd rfl hq | _ => rfl
  | terminalCount => cases q with | terminalCount => exact absurd rfl hq | _ => rfl
  | pollTimeoutMs => cases q with | pollTimeoutMs => exact absurd rfl hq | _ => rfl
  | connTimeoutMs => cases q with | connTimeoutMs => exact absurd rfl hq | _ => rfl
  | debounceMs => cases q with | debounceMs => exact absurd rfl hq | _ => rfl
  | heldThreshold => cases q with | heldThreshold => exact absurd rfl hq | _ => rfl
  | edgeThreshold => cases q with | edgeThreshold => exact absurd rfl hq | _ => rfl
  | status | resN | resByte | pollNextId | pollDev | pollTrim | pollBtn | pollCrc | bcStates | bcRun | bcDebounceLeft
  | outBuf i | reserved => rfl

end Sys2Proof.Proofs.Registers

/-! SUPPORT. What an edge does to the flags, to the registers the host sees, and to the command the engine holds
(10_state.md R23 to R25, 20_memory.md R68 to R72, 60_exceptions.md R205). -/

namespace Sys2Proof.Proofs.HostPort

open Sys2Proof Sys2Proof.Machine Sys2Proof.Claims Sys2Proof.Proofs.CommandFrame Sys2Proof.Proofs.Edge
  Sys2Proof.Proofs.Registers

/-! ### The flags after the host access -/

/-- The host writes a 1 to bit `k` of STATUS at this edge. -/
def ClearsBit (s : State) (k : Nat) : Prop :=
  s.ports.regWe = true ∧ s.ports.regAddr = 0x01 ∧ s.ports.regWdata.getLsbD k = true

theorem not_clearsBit_of_no_write {s : State} (h : s.ports.regWe = false) (k : Nat) : ¬ClearsBit s k :=
  fun hc => Bool.eq_false_iff.1 h hc.1

theorem not_clearsBit_of_addr {s : State} (h : s.ports.regAddr ≠ 0x01) (k : Nat) : ¬ClearsBit s k :=
  fun ⟨_, haddr, _⟩ => h haddr

theorem clearsBit_iff_of_status_write {s : State} (hwe : s.ports.regWe = true) (haddr : s.ports.regAddr = 0x01)
    (k : Nat) : ClearsBit s k ↔ s.ports.regWdata.getLsbD k = true := by
  simp only [ClearsBit, hwe, haddr, true_and]

theorem issues_addr_ne {s : State} (h : Issues s) : s.ports.regAddr ≠ 0x01 := by
  obtain ⟨_, _, hcmd⟩ := h
  rw [hcmd]
  decide

theorem not_issues_of_no_write {s : State} (h : s.ports.regWe = false) : ¬Issues s :=
  fun ⟨_, hwe, _⟩ => Bool.eq_false_iff.1 h hwe

theorem not_issues_of_status_write {s : State} (h : s.ports.regAddr = 0x01) : ¬Issues s := fun hi => issues_addr_ne hi h

theorem not_issues_of_busy {s : State} (h : s.status.busy = true) : ¬Issues s :=
  fun hi => Bool.eq_false_iff.1 hi.1 h

/-- DONE is cleared by an issued command, and by a STATUS write where the engine has not just set it. -/
theorem finishEdge_done (s t : State) : (s.finishEdge t).status.done = true ↔
    t.status.done = true ∧ ¬Issues s ∧ (ClearsBit s 5 → completedNow s t = true) := by
  rcases finishEdge_cases s t with ⟨hwe, h⟩ | ⟨⟨hwe, haddr⟩, h⟩ | ⟨⟨_, haddr, hb⟩, h⟩ | ⟨hi, h⟩ | ⟨hw, h⟩ <;> rw [h]
  · simp [not_issues_of_no_write hwe, not_clearsBit_of_no_write hwe]
  · simp only [State.writeStatus_done, not_issues_of_status_write haddr, clearsBit_iff_of_status_write hwe haddr,
      Bool.and_eq_true, Bool.or_eq_true, Bool.not_eq_true', not_false_eq_true, true_and]
    cases s.ports.regWdata.getLsbD 5 <;> simp
  · simp [not_issues_of_busy hb, not_clearsBit_of_addr haddr]
  · simp only [hi, not_true_eq_false, false_and, and_false, iff_false]
    exact Bool.false_ne_true
  · have hni : ¬Issues s := fun ⟨_, _, hcmd⟩ => hw.notCmd hcmd
    simp [writeReg_status hw.ne_cmd, hni, not_clearsBit_of_addr hw.notStatus]

/-- RXOVR is cleared by a STATUS write where no overflow has just set it. -/
theorem finishEdge_rxOvr (s t : State) : (s.finishEdge t).status.rxOvr = true ↔
    t.status.rxOvr = true ∧ (ClearsBit s 6 → s.ovrSetNow = true) := by
  rcases finishEdge_cases s t with ⟨hwe, h⟩ | ⟨⟨hwe, haddr⟩, h⟩ | ⟨⟨_, haddr, _⟩, h⟩ | ⟨hi, h⟩ | ⟨hw, h⟩ <;> rw [h]
  · simp [not_clearsBit_of_no_write hwe]
  · simp only [State.writeStatus_rxOvr, clearsBit_iff_of_status_write hwe haddr, Bool.and_eq_true, Bool.or_eq_true,
      Bool.not_eq_true']
    cases s.ports.regWdata.getLsbD 6 <;> simp
  · simp [not_clearsBit_of_addr haddr]
  · simp [not_clearsBit_of_addr (issues_addr_ne hi), State.issue]
  · simp [writeReg_status hw.ne_cmd, not_clearsBit_of_addr hw.notStatus]

/-- WRLOST is set by a write that finds a command running, and cleared by a STATUS write. -/
theorem finishEdge_wrLost (s t : State) : (s.finishEdge t).status.wrLost = true ↔
    (s.status.busy = true ∧ s.ports.regWe = true ∧ s.ports.regAddr ≠ 0x01) ∨
      (t.status.wrLost = true ∧ ¬ClearsBit s 7) := by
  rcases finishEdge_cases s t with ⟨hwe, h⟩ | ⟨⟨hwe, haddr⟩, h⟩ | ⟨⟨hwe, haddr, hb⟩, h⟩ | ⟨hi, h⟩ | ⟨hw, h⟩ <;> rw [h]
  · simp [not_clearsBit_of_no_write hwe, hwe]
  · simp [clearsBit_iff_of_status_write hwe haddr, haddr]
  · exact iff_of_true rfl (.inl ⟨hb, hwe, haddr⟩)
  · simp [not_clearsBit_of_addr (issues_addr_ne hi), hi.1, State.issue]
  · simp [writeReg_status hw.ne_cmd, not_clearsBit_of_addr hw.notStatus, hw.idle]

/-! ### BUSY and DONE over an edge -/

/-- The engine's part of an edge: the flags are kept, or BUSY falls and DONE rises. -/
theorem edge_flags {s u : State} (h : s.beforeEngine.engineStep = .next u) :
    (u.status.busy = s.status.busy ∧ u.status.done = s.status.done ∧ u.status.result = s.status.result) ∨
      (s.status.busy = true ∧ u.status.busy = false ∧ u.status.done = true) := by
  simpa only [FlagsKept, State.beforeEngine_status_busy, State.beforeEngine_status_done,
    State.beforeEngine_status_result] using engineStep_flags h

/-- BUSY after an edge that found it 1 is what the engine leaves. -/
theorem finishEdge_busy_of_busy {s : State} (hb : s.status.busy = true) (t : State) :
    (s.finishEdge t).status.busy = t.status.busy := by
  obtain ⟨st, h, hbusy, _⟩ := finishEdge_of_busy hb t
  rw [h]
  exact hbusy

/-- DONE after an edge: set by a completion, else kept but for what clears it (R25, R205). -/
theorem edge_done {s u : State} (h : s.beforeEngine.engineStep = .next u) :
    (s.finishEdge u).status.done = true ↔
      (s.status.busy = true ∧ (s.finishEdge u).status.busy = false) ∨
        (s.status.done = true ∧ ¬ClearsBit s 5 ∧ ¬Issues s) := by
  rw [finishEdge_done]
  rcases edge_flags h with ⟨hbusy, hdone, _⟩ | ⟨hb, hbusy, hdone⟩
  · have hrunning : ¬(s.status.busy = true ∧ (s.finishEdge u).status.busy = false) := fun ⟨hb, hf⟩ => by
      rw [finishEdge_busy_of_busy hb, hbusy, hb] at hf
      exact Bool.false_ne_true hf.symm
    have hnow : completedNow s u = false := by
      rw [completedNow, hbusy]
      cases s.status.busy <;> rfl
    simp only [hrunning, hdone, hnow, Bool.false_eq_true, imp_false, false_or, and_comm]
  · have hnow : completedNow s u = true := by rw [completedNow, hb, hbusy]; rfl
    simp only [hdone, hnow, not_issues_of_busy hb, hb, finishEdge_busy_of_busy hb, hbusy, not_false_eq_true,
      implies_true, and_self, true_or]

theorem edge_rxOvr {s u : State} (h : s.beforeEngine.engineStep = .next u) :
    (s.finishEdge u).status.rxOvr = true ↔
      (s.ports.rxValid = true ∧ s.params.rxFifoDepth ≤ s.rxFifo.length) ∨
        (s.status.rxOvr = true ∧ ¬ClearsBit s 6) := by
  have hset : s.ovrSetNow = true ↔ s.ports.rxValid = true ∧ s.params.rxFifoDepth ≤ s.rxFifo.length := by
    simp only [State.ovrSetNow, State.rxFull, Bool.and_eq_true, decide_eq_true_eq]
  have hovr : u.status.rxOvr = true ↔ s.status.rxOvr = true ∨ s.ovrSetNow = true := by
    rw [(engineStep_kept h).rxOvr, ← Bool.or_eq_true]
    exact iff_of_eq (congrArg (· = true) (FirstEdge.beforeEngine_rxOvr s))
  rw [finishEdge_rxOvr, hovr, ← hset]
  tauto

theorem edge_wrLost {s u : State} (h : s.beforeEngine.engineStep = .next u) :
    (s.finishEdge u).status.wrLost = true ↔
      (s.status.busy = true ∧ s.ports.regWe = true ∧ s.ports.regAddr ≠ 0x01) ∨
        (s.status.wrLost = true ∧ ¬ClearsBit s 7) := by
  have hlost : u.status.wrLost = s.status.wrLost :=
    (engineStep_kept h).wrLost.trans (State.beforeEngine_status_wrLost s)
  rw [finishEdge_wrLost, hlost]

/-- An edge without reset ends an engine step with the host access. -/
theorem step_next_of_no_rst {s t : State} (h : step s = .next t) (hrst : s.ports.rst = false) :
    legalParams s.params = true ∧ ∃ u, s.beforeEngine.engineStep = .next u ∧ t = s.finishEdge u := by
  obtain ⟨hparams, ⟨hreset, _⟩ | ⟨_, hu⟩⟩ := clockEdge_next_cases h
  · exact absurd hreset (Bool.eq_false_iff.1 hrst)
  · exact ⟨hparams, hu⟩

/-- Settles O45: the engine sets the bits before the host access, which clears none that it has set at this edge; and the
edge with the STATUS write and the one without differ in the host access alone. -/
theorem setBeatsStatusClear : Obligations.SetBeatsStatusClear := by
  unfold Obligations.SetBeatsStatusClear
  refine ⟨fun s t hstep hrst => ?_, fun s u p rest hscript hrst hwe haddr hquiet => ?_⟩
  · obtain ⟨_, u, hengine, rfl⟩ := step_next_of_no_rst hstep hrst
    exact ⟨edge_done hengine, edge_rxOvr hengine, edge_wrLost hengine⟩
  · have hports : s.ports = p := by rw [State.ports, hscript]; rfl
    obtain ⟨hparams, v, hengine, rfl⟩ := step_next_of_no_rst hquiet hrst
    rw [← hports] at hrst hwe haddr
    have hsame : s.beforeEngine.engineStep = .next (v.withScript s.script) :=
      ResetAndHazards.engineStep_next_withScript (s := s.withScript ({ p with regWe := false } :: rest))
        (by rw [hscript]; rfl) hengine
    rw [step_of_engine (s := s) hparams hrst hsame, finishEdge_of_status_write hwe haddr,
      FirstEdge.finishEdge_of_no_write rfl, hscript]
    exact ⟨_, _, _, rfl⟩

/-- Settles O51. -/
theorem busyChangesOnlyByCommandAndCompletion : Obligations.BusyChangesOnlyByCommandAndCompletion := by
  unfold Obligations.BusyChangesOnlyByCommandAndCompletion
  intro s t hstep
  obtain ⟨_, ⟨hrst, rfl⟩ | ⟨hrst, u, hengine, rfl⟩⟩ := clockEdge_next_cases hstep
  · exact ⟨fun _ hrise => (nomatch hrise), fun _ _ => .inl hrst⟩
  · refine ⟨fun hb hrise => ?_, fun hb hfall => .inr ((edge_done hengine).2 (.inl ⟨hb, hfall⟩))⟩
    rcases (finishEdge_busy s u).1 hrise with hu | ⟨_, hwe, haddr⟩
    · rw [engineStep_next_of_idle hb hengine, State.beforeEngine_status_busy, hb] at hu
      exact nomatch hu
    · exact ⟨hrst, hwe, haddr⟩

/-! ### The interrupt (60_exceptions.md R205) -/

/-- R208: acknowledging is a write of a 1 to DONE's bit. -/
theorem writeStatus_done_eq_acknowledge (s : State) : s.writeStatus 0x0020 false false = s.acknowledge := by
  have h5 : (0x0020 : Reg16).getLsbD 5 = true := by decide
  have h6 : (0x0020 : Reg16).getLsbD 6 = false := by decide
  have h7 : (0x0020 : Reg16).getLsbD 7 = false := by decide
  simp only [State.writeStatus, State.acknowledge, h5, h6, h7, Bool.not_true, Bool.not_false, Bool.or_false,
    Bool.and_false, Bool.and_true]

/-- Settles O39. -/
theorem irqIsDoneWhereEnabled : Obligations.IrqIsDoneWhereEnabled := by
  unfold Obligations.IrqIsDoneWhereEnabled
  exact fun s c w => ⟨rfl, Bool.true_and _, Bool.false_and _, Bool.false_and _, writeStatus_done_eq_acknowledge s⟩

/-! ### Where no command runs -/

/-- The engine rests: the edge is the arrival, the Tick and the host access. -/
theorem step_of_idle {s : State} (hp : legalParams s.params = true) (hr : s.ports.rst = false)
    (hb : s.status.busy = false) : step s = .next (s.finishEdge s.beforeEngine) :=
  step_of_engine hp hr (engineStep_idle (by rwa [State.beforeEngine_status_busy]))

/-- Settles O47. -/
theorem cmdWriteIssuesTheCommand : Obligations.CmdWriteIssuesTheCommand := by
  unfold Obligations.CmdWriteIssuesTheCommand
  intro s hp hr hb hwe haddr
  have hreg : regAt s.ports.regAddr = .cmd := (regAt_eq_cmd_iff _).2 haddr
  have hnot : s.ports.regAddr ≠ 0x01 := by rw [haddr]; decide
  have hissue := finishEdge_of_accepted_write hwe hnot hb s.beforeEngine
  rw [hreg] at hissue
  obtain ⟨hlo, hhi⟩ := commandLatency_bounds s.beforeEngine
  rw [State.beforeEngine_params] at hhi
  refine ⟨_, step_of_idle hp hr hb, ?_⟩
  rw [hissue]
  exact ⟨rfl, rfl, State.beforeEngine_status_result s, rfl, hlo, hhi (Soundness.latMax_pos hp), rfl,
    State.beforeEngine_regs s⟩

/-! ### What a read shows -/

/-- All that a read shows is as before, but STATUS and BC_DEBOUNCE_LEFT. -/
structure ShownKept (s t : State) : Prop where
  regs : t.regs = s.regs
  resN : t.resN = s.resN
  resByte : t.resByte = s.resByte
  nextId : t.poll.nextId = s.poll.nextId
  dev : t.poll.dev = s.poll.dev
  trim : t.poll.trim = s.poll.trim
  btn : t.poll.btn = s.poll.btn
  crcRx : t.poll.crcRx = s.poll.crcRx
  crcCalc : t.poll.crcCalc = s.poll.crcCalc
  states : t.btn.statesField = s.btn.statesField
  run : t.btn.runWord = s.btn.runWord
  inBuf : t.inBuf = s.inBuf
  outBuf : t.outBuf = s.outBuf
  params : t.params = s.params
  resets : t.resets = s.resets

theorem ShownKept.trans {s t u : State} (h : ShownKept s t) (k : ShownKept t u) : ShownKept s u :=
  ⟨k.regs.trans h.regs, k.resN.trans h.resN, k.resByte.trans h.resByte, k.nextId.trans h.nextId, k.dev.trans h.dev,
    k.trim.trans h.trim, k.btn.trans h.btn, k.crcRx.trans h.crcRx, k.crcCalc.trans h.crcCalc, k.states.trans h.states,
    k.run.trans h.run, k.inBuf.trans h.inBuf, k.outBuf.trans h.outBuf, k.params.trans h.params, k.resets.trans h.resets⟩

theorem readReg_of_shownKept {s t : State} (h : ShownKept s t) {r : RegName} (hr : heldWhileBusy r) :
    t.readReg r = s.readReg r := by
  obtain ⟨hregs, hresN, hresByte, hnext, hdev, htrim, hbtn, hrx, hcalc, hstates, hrun, hin, hout, hparams, hresets⟩ := h
  cases r with
  | status => exact hr.elim
  | bcDebounceLeft => exact hr.elim
  | _ =>
    simp only [State.readReg, State.operandSample, State.hostByte, hregs, hresN, hresByte, hnext, hdev, htrim, hbtn, hrx,
      hcalc, hstates, hrun, hin, hout, hparams, hresets]

/-- The arrival and the Tick move the FIFO, RXOVR and the two down-counters, and nothing else. -/
theorem beforeEngine_eq (s : State) : s.beforeEngine = { s with
    status := { s.status with rxOvr := s.beforeEngine.status.rxOvr }
    rxFifo := s.beforeEngine.rxFifo
    poll := { s.poll with winLeft := s.beforeEngine.poll.winLeft }
    btn := { s.btn with left := s.beforeEngine.btn.left } } := by
  unfold State.beforeEngine State.arrive State.tick
  split <;> split
  · rw [State.pushRx_spec]
  · rfl
  · rw [State.pushRx_spec]
  · rfl

theorem beforeEngine_shownKept (s : State) : ShownKept s s.beforeEngine := by
  rw [beforeEngine_eq]
  exact ⟨rfl, rfl, rfl, rfl, rfl, rfl, rfl, rfl, rfl, rfl, rfl, rfl, rfl, rfl, rfl⟩

/-- Where a command runs on, the engine has changed no register. -/
theorem engineStep_shownKept {s t : State} (h : s.engineStep = .next t) (ht : t.status.busy = true) : ShownKept s t := by
  have hcompleted : ∀ {p : Prop}, t.status.busy = false → p := fun hb => absurd ht (Bool.eq_false_iff.1 hb)
  rcases engineStep_next_cases h with ⟨_, rfl⟩ | ⟨_, _, rfl⟩ | ⟨_, _, hexec⟩
  · exact ⟨rfl, rfl, rfl, rfl, rfl, rfl, rfl, rfl, rfl, rfl, rfl, rfl, rfl, rfl, rfl⟩
  · exact ⟨rfl, rfl, rfl, rfl, rfl, rfl, rfl, rfl, rfl, rfl, rfl, rfl, rfl, rfl, rfl⟩
  · rcases engineEdge_cases hexec with
      ⟨_, _, hcommand⟩ | ⟨_, _, rfl⟩ | ⟨_, _, rfl⟩ | ⟨_, hframe, _, _, _, hnext, hdev, htrim, hbtn, hrx, hcalc, _⟩ |
      ⟨_, _, _, _, hfinish, _⟩
    · exact hcompleted (by rw [hcommand.status])
    · exact hcompleted rfl
    · exact ⟨rfl, rfl, rfl, rfl, rfl, rfl, rfl, rfl, rfl, rfl, rfl, rfl, rfl, rfl, rfl⟩
    · refine ⟨?_, ?_, ?_, hnext, hdev, htrim, hbtn, hrx, hcalc, ?_, ?_, ?_, ?_, ?_, ?_⟩ <;> rw [hframe]
    · exact hcompleted (finishCall_flags hfinish).1

/-- Where the host writes no register but STATUS, the engine's state stands but for the sticky flags and DONE. -/
theorem finishEdge_of_no_register_write {s : State} (h : s.ports.regWe = false ∨ s.ports.regAddr = 0x01) (t : State) :
    ∃ d o w, s.finishEdge t =
      { t with status := { t.status with done := d, rxOvr := o, wrLost := w }, script := s.script.tail } := by
  rcases h with hwe | haddr
  · exact ⟨_, _, _, FirstEdge.finishEdge_of_no_write hwe t⟩
  · cases hwe : s.ports.regWe with
    | false => exact ⟨_, _, _, FirstEdge.finishEdge_of_no_write hwe t⟩
    | true => exact ⟨_, _, _, finishEdge_of_status_write hwe haddr t⟩

/-- An edge at which a command runs on. -/
theorem edge_of_runsOn {s t : State} (hstep : step s = .next t) (hb : s.status.busy = true) (ht : t.status.busy = true) :
    t.status.result = s.status.result ∧ ShownKept s t := by
  obtain ⟨_, ⟨_, rfl⟩ | ⟨_, u, hengine, rfl⟩⟩ := clockEdge_next_cases hstep
  · exact nomatch ht
  · rw [finishEdge_busy_of_busy hb] at ht
    refine ⟨?_, ?_⟩
    · rw [finishEdge_result]
      rcases edge_flags hengine with ⟨_, _, hresult⟩ | ⟨_, hbusy, _⟩
      · exact hresult
      · exact absurd ht (Bool.eq_false_iff.1 hbusy)
    · obtain ⟨st, hfinish, _⟩ := finishEdge_of_busy hb u
      rw [hfinish]
      exact ((beforeEngine_shownKept s).trans (engineStep_shownKept hengine ht)).trans
        ⟨rfl, rfl, rfl, rfl, rfl, rfl, rfl, rfl, rfl, rfl, rfl, rfl, rfl, rfl, rfl⟩

/-- An edge at which the engine rests and the host writes no register but STATUS. -/
theorem edge_of_rests {s t : State} (hstep : step s = .next t) (hr : s.ports.rst = false) (hb : s.status.busy = false)
    (hw : s.ports.regWe = false ∨ s.ports.regAddr = 0x01) :
    t = { s with
      status := { s.status with done := t.status.done, rxOvr := t.status.rxOvr, wrLost := t.status.wrLost }
      rxFifo := t.rxFifo
      poll := { s.poll with winLeft := t.poll.winLeft }
      btn := { s.btn with left := t.btn.left }
      script := s.script.tail } := by
  obtain ⟨_, u, hengine, rfl⟩ := step_next_of_no_rst hstep hr
  obtain ⟨d, o, w, hfinish⟩ := finishEdge_of_no_register_write hw u
  rw [hfinish, engineStep_next_of_idle hb hengine, beforeEngine_eq]

/-- Settles O50. -/
theorem readsWhileBusyShowOldValues : Obligations.ReadsWhileBusyShowOldValues := by
  unfold Obligations.ReadsWhileBusyShowOldValues
  intro s t hstep
  refine ⟨?_, fun ⟨hr, hb, hw⟩ => edge_of_rests hstep hr hb hw⟩
  rintro (⟨hb, ht⟩ | ⟨hr, hb, hw⟩)
  · obtain ⟨hresult, hkept⟩ := edge_of_runsOn hstep hb ht
    exact ⟨hresult, fun r hheld => readReg_of_shownKept hkept hheld⟩
  · have hkept : ShownKept s t := by
      rw [edge_of_rests hstep hr hb hw]
      exact ⟨rfl, rfl, rfl, rfl, rfl, rfl, rfl, rfl, rfl, rfl, rfl, rfl, rfl, rfl, rfl⟩
    refine ⟨?_, fun r hheld => readReg_of_shownKept hkept hheld⟩
    rw [edge_of_rests hstep hr hb hw]

/-- Settles O46: an accepted write is a register write to the state after the arrival and the Tick, which reads as the
state before the edge. -/
theorem writeStoresWritableBitsOnly : Obligations.WriteStoresWritableBitsOnly := by
  unfold Obligations.WriteStoresWritableBitsOnly
  refine ⟨fun s r v hcmd _ _ => ⟨fun m hm => readReg_writeReg_same v hm, writeReg_of_readOnly v hcmd,
    fun q hq => readReg_writeReg_other v hcmd hq⟩, fun s hp hr hb hwe => ?_⟩
  intro r hcmd hstatus
  have haddr : s.ports.regAddr ≠ 0x01 := fun h => hstatus ((ResetAndHazards.regAt_eq_status_iff _).2 h)
  have hparams : s.beforeEngine.params = s.params := State.beforeEngine_params s
  refine ⟨_, (step_of_idle hp hr hb).trans
    (congrArg _ (finishEdge_of_accepted_write hwe haddr hb s.beforeEngine)), rfl, fun m hm => ?_, fun q hq hheld => ?_⟩
  · exact readReg_writeReg_same s.ports.regWdata (hparams ▸ hm)
  · have hold : (s.beforeEngine.writeReg r s.ports.regWdata).readReg q = s.beforeEngine.readReg q := by
      rcases hq with hq | hnone
      · exact readReg_writeReg_other _ hcmd hq
      · rw [writeReg_of_readOnly _ hcmd (hparams ▸ hnone)]
    exact hold.trans (readReg_of_shownKept (beforeEngine_shownKept s) hheld)

/-! ### Reads (20_memory.md R68) -/

/-- Without a write the host access has no part in the edge. -/
theorem step_of_no_write {s : State} (hp : legalParams s.params = true) (hr : s.ports.rst = false)
    (hwe : s.ports.regWe = false) :
    step s = Answer.withScript s.beforeEngine.engineStep s.script.tail := by
  rw [step, State.clockEdge, hp, hr]
  change s.runEdge = _
  unfold State.runEdge
  cases s.beforeEngine.engineStep with
  | next u => exact congrArg _ (FirstEdge.finishEdge_of_no_write hwe u)
  | fault f => rfl
  | refused r => rfl

/-- Neither the arrival, the Tick nor the engine sees the host's access, and without a write nothing else does. -/
theorem step_withScript_of_no_write {s : State} {l : List Ports}
    (hsame : ResetAndHazards.SameButForAccess s.ports (l.headD idlePorts)) (hwe : s.ports.regWe = false)
    (hwe' : (l.headD idlePorts).regWe = false) (htail : l.tail = s.script.tail) : step (s.withScript l) = step s := by
  have hrst : (s.withScript l).ports.rst = s.ports.rst := by
    change (l.headD idlePorts).rst = _
    rw [hsame]
  cases hp : legalParams s.params with
  | false => rw [step_of_illegal hp, step_of_illegal (s := s.withScript l) hp]
  | true =>
    cases hr : s.ports.rst with
    | true =>
      rw [step_of_rst hp hr, step_of_rst (s := s.withScript l) hp (hrst.trans hr), State.resetEdge, State.resetEdge,
        ← htail]
      rfl
    | false =>
      have hengine : (s.withScript l).beforeEngine.engineStep = Answer.withScript s.beforeEngine.engineStep l := by
        rw [ResetAndHazards.beforeEngine_withScript hsame]
        refine State.engineStep_withScript _ _ ?_ ?_ <;> rw [State.beforeEngine_ports, hsame]
      rw [step_of_no_write hp hr hwe, step_of_no_write (s := s.withScript l) hp (hrst.trans hr) hwe', hengine, ← htail]
      cases s.beforeEngine.engineStep <;> rfl

/-- Settles O49. -/
theorem readsChangeNothing : Obligations.ReadsChangeNothing := by
  unfold Obligations.ReadsChangeNothing
  intro s p rest a v hwe
  exact step_withScript_of_no_write (s := { s with script := p :: rest })
    (l := { p with regAddr := a, regWdata := v } :: rest) rfl hwe hwe rfl

end Sys2Proof.Proofs.HostPort

/-! SUPPORT. The FIFO as a queue and the two down-counters, over an edge (10_state.md R47 to R49, 20_memory.md R74,
60_exceptions.md R211). -/

namespace Sys2Proof.Proofs.QueueAndCounters

open Sys2Proof Sys2Proof.Machine Sys2Proof.Claims Sys2Proof.Proofs.Edge Sys2Proof.Proofs.HostPort

/-! ### The FIFO -/

/-- The FIFO that the engine meets at an edge: the arriving byte is behind the others, or dropped where they fill it. -/
theorem beforeEngine_rxFifo (s : State) : s.beforeEngine.rxFifo =
    if s.ports.rxValid = true ∧ s.rxFifo.length < s.params.rxFifoDepth
      then s.rxFifo ++ [{ data := s.ports.rxData, err := s.ports.rxErr }] else s.rxFifo := by
  have hfull : s.rxFull = true ↔ ¬s.rxFifo.length < s.params.rxFifoDepth := by simp [State.rxFull]
  rw [State.beforeEngine, State.tick_rxFifo, State.arrive]
  split
  case isTrue hv =>
    rw [State.pushRx_spec]
    simp only [hv, hfull, true_and, ite_not]
  case isFalse hv => rw [if_neg fun h => hv h.1]

/-- The engine removes the oldest entry, all entries, or none. -/
theorem engineStep_rxFifo {s t : State} (h : s.engineStep = .next t) :
    t.rxFifo = s.rxFifo ∨ t.rxFifo = s.rxFifo.tail ∨ t.rxFifo = [] := by
  rcases engineStep_next_cases h with ⟨_, rfl⟩ | ⟨_, _, rfl⟩ | ⟨_, _, hexec⟩
  · exact .inl rfl
  · exact .inl rfl
  · rcases engineEdge_cases hexec with
      ⟨_, _, hcommand⟩ | ⟨_, _, rfl⟩ | ⟨_, _, rfl⟩ | ⟨_, _, _, _, hfifo, _⟩ | ⟨_, c, u, p, hfinish, _, _, hfifo, _⟩
    · exact hcommand.fifo.imp_right .inr
    · exact .inl rfl
    · exact .inl rfl
    · exact hfifo.imp_right .inl
    · rw [finishCall_eq] at hfinish
      cases hfinish
      dsimp only
      split
      · exact .inr (.inr rfl)
      · exact hfifo.imp_right .inl

/-- Settles O52. -/
theorem fifoIsConsumedInArrivalOrder : Obligations.FifoIsConsumedInArrivalOrder := by
  unfold Obligations.FifoIsConsumedInArrivalOrder
  intro s t hstep hrst
  obtain ⟨_, u, hengine, rfl⟩ := step_next_of_no_rst hstep hrst
  rw [← beforeEngine_rxFifo, State.finishEdge_rxFifo]
  refine ⟨engineStep_rxFifo hengine, fun hb => ?_, fun hv hfull hwe => ?_⟩
  · rw [engineStep_next_of_idle hb hengine]
  · exact (edge_rxOvr hengine).2 (.inl ⟨hv, hfull⟩)

/-! ### The counters -/

/-- A down-counter after an edge with or without a Tick. -/
def down (p : Ports) (v : Reg16) : Nat := if p.tickMs = true then v.toNat - 1 else v.toNat

theorem toNat_countDown (v : Reg16) : (countDown v).toNat = v.toNat - 1 := by
  unfold countDown
  split
  case isTrue h => rw [h]; rfl
  case isFalse h =>
    have hpos : 1 ≤ v.toNat := Nat.one_le_iff_ne_zero.2 fun h0 => h (BitVec.eq_of_toNat_eq h0)
    exact BitVec.toNat_sub_of_le (x := v) (y := 1) hpos

theorem tick_left (s : State) (p : Ports) : (s.tick p).btn.left.toNat = down p s.btn.left := by
  unfold State.tick down
  split
  · exact toNat_countDown _
  · rfl

theorem tick_winLeft (s : State) (p : Ports) : (s.tick p).poll.winLeft.toNat = down p s.poll.winLeft := by
  unfold State.tick down
  split
  · exact toNat_countDown _
  · rfl

theorem beforeEngine_left (s : State) : s.beforeEngine.btn.left.toNat = down s.ports s.btn.left := by
  rw [State.beforeEngine, tick_left, State.arrive_btn]

theorem beforeEngine_winLeft (s : State) : s.beforeEngine.poll.winLeft.toNat = down s.ports s.poll.winLeft := by
  rw [State.beforeEngine, tick_winLeft, State.arrive_poll]

/-- A detection loads the debounce counter exactly where it moves its button's state (43_buttons.md R182). -/
theorem detect_left (r : HostRegs) (u : ButtonUnit) (b : Button) :
    (detect r u b).left = if (detect r u b).state b = u.state b then u.left else r.debounceMs := by
  have hset : ∀ (v : ButtonUnit) (x : BtnState), (v.setState b x).state b = x := fun v x => by
    rw [ButtonUnit.state_setState, if_pos rfl]
  have hload : ∀ (v : ButtonUnit) (l : Reg16), ({ v with left := l } : ButtonUnit).state b = v.state b := fun v l => by
    cases b <;> rfl
  unfold detect
  dsimp only
  generalize (if u.last = some b then satIncr u.count else 1) = cnt
  split
  case isTrue hnew => simp only [hload, hset, if_neg hnew]
  case isFalse hnew => rw [hset, if_pos (not_not.1 hnew), ButtonUnit.setState_left]

theorem completed_left {i : Instr} {s t : State} (h : Completed i s t) :
    t.btn.left = s.btn.left ∨ (i = .btnSample ∧ t.btn.left = s.regs.debounceMs) := by
  rcases h.buttons with hkept | hends | ⟨hi, b, _, hdetect⟩ | ⟨_, hreset⟩
  · exact .inl (by rw [hkept])
  · exact .inl (by rw [hends])
  · rw [hdetect]
    rw [detect_left]
    split
    · exact .inl rfl
    · exact .inr ⟨hi, rfl⟩
  · exact .inl (by rw [hreset])

/-- The engine loads BC_DEBOUNCE_LEFT where a BTN_SAMPLE completes, and nowhere else. -/
theorem engineStep_left {s t : State} (h : s.engineStep = .next t) : t.btn.left = s.btn.left ∨
    (s.status.busy = true ∧ s.fetch = .btnSample ∧ t.status.busy = false ∧ t.btn.left = s.regs.debounceMs) := by
  rcases engineStep_next_cases h with ⟨_, rfl⟩ | ⟨_, _, rfl⟩ | ⟨hb, _, hexec⟩
  · exact .inl rfl
  · exact .inl rfl
  · rcases engineEdge_cases hexec with ⟨_, _, hcommand⟩ | ⟨_, _, rfl⟩ | ⟨_, _, rfl⟩ | ⟨_, hgoesOn⟩ | ⟨_, c, hends⟩
    · exact (completed_left hcommand).imp_right fun ⟨hi, hload⟩ => ⟨hb, hi, by rw [hcommand.status], hload⟩
    · exact .inl rfl
    · exact .inl rfl
    · exact .inl (by rw [Buttons.callGoesOn_btn hgoesOn])
    · exact .inl (by rw [Buttons.callEnds_btn hends])

/-- WIN_LEFT is loaded only on entering WAIT_ID from TX or WAIT_DATA from WAIT_ID. -/
theorem winAfter_of_bpe_eq {s t : State} (h : t.poll.bpe = s.poll.bpe) : winAfter s t = s.poll.winLeft := by
  unfold winAfter
  rw [h, if_neg, if_neg]
  · rintro ⟨h1, h2⟩
    exact nomatch h1.symm.trans h2
  · rintro ⟨h1, h2⟩
    exact nomatch h1.symm.trans h2

theorem winAfter_of_not_window {s t : State} (h1 : t.poll.bpe ≠ .waitId) (h2 : t.poll.bpe ≠ .waitData) :
    winAfter s t = s.poll.winLeft := by
  simp only [winAfter, h1, h2, and_false, if_false]

theorem engineStep_winLeft {s t : State} (h : s.engineStep = .next t) : t.poll.winLeft = winAfter s t := by
  rcases engineStep_next_cases h with ⟨_, rfl⟩ | ⟨_, _, rfl⟩ | ⟨_, _, hexec⟩
  · exact (winAfter_of_bpe_eq rfl).symm
  · exact (winAfter_of_bpe_eq rfl).symm
  · rcases engineEdge_cases hexec with
      ⟨_, _, hcommand⟩ | ⟨_, _, rfl⟩ | ⟨_, _, rfl⟩ | ⟨_, _, _, _, _, _, _, _, _, _, _, _, _, hwin⟩ |
      ⟨_, c, u, p, hfinish, _, _, _, _, _, _, _, _, _, hwin⟩
    · have hpoll : t.poll = s.poll := by rw [hcommand.frame]
      rw [winAfter_of_bpe_eq (congrArg PollUnit.bpe hpoll), hpoll]
    · exact (winAfter_of_bpe_eq rfl).symm
    · rw [winAfter_of_not_window] <;> simp
    · exact hwin
    · rw [finishCall_eq] at hfinish
      cases hfinish
      rw [winAfter_of_not_window] <;> simp [hwin]

/-- Settles O53: the Tick comes before the engine, which loads a counter or leaves it, and the host access moves neither. -/
theorem ticksCountDown : Obligations.TicksCountDown := by
  unfold Obligations.TicksCountDown
  intro s t hstep hrst
  obtain ⟨_, u, hengine, rfl⟩ := step_next_of_no_rst hstep hrst
  have hleft := engineStep_left hengine
  rw [State.beforeEngine_status_busy, State.beforeEngine_regs] at hleft
  rw [State.finishEdge_btn, State.finishEdge_poll]
  refine ⟨fun hno => ?_, ?_, ?_⟩
  · rcases hleft with hkept | ⟨hb, hfetch, _⟩
    · rw [hkept]
      exact beforeEngine_left s
    · exact absurd ⟨hb, hfetch⟩ hno
  · rcases hleft with hkept | ⟨hb, _, hdone, hload⟩
    · rw [hkept]
      exact .inl (beforeEngine_left s)
    · exact .inr ⟨by rw [finishEdge_busy_of_busy hb, hdone], hload⟩
  · rw [engineStep_winLeft hengine, winAfter, State.beforeEngine_poll_bpe, State.beforeEngine_regs, apply_ite BitVec.toNat,
      apply_ite BitVec.toNat, beforeEngine_winLeft]
    rfl

end Sys2Proof.Proofs.QueueAndCounters

/-! SUPPORT. The command the engine runs at an edge, and how many edges it takes (70_reset_and_hazards.md R242). -/

namespace Sys2Proof.Proofs.Completion

open Sys2Proof Sys2Proof.Machine Sys2Proof.Claims Sys2Proof.Proofs.CommandFrame Sys2Proof.Proofs.Edge
  Sys2Proof.Proofs.HostPort

/-! ### The instruction an edge runs -/

theorem beforeEngine_engineStep_runs {s : State} (hb : s.status.busy = true) (hl : s.engine.latLeft ≤ 1) :
    s.beforeEngine.engineStep = exec s.beforeEngine.fetch s.beforeEngine :=
  engineStep_runs (by rwa [State.beforeEngine_status_busy]) (by rwa [State.beforeEngine_engine])

/-- Settles O59. -/
theorem stepRunsTheFetchedInstruction : Obligations.StepRunsTheFetchedInstruction := by
  unfold Obligations.StepRunsTheFetchedInstruction
  intro s hp hr hb hl
  have hruns := beforeEngine_engineStep_runs hb hl
  exact ⟨fun u hu => step_of_engine hp hr (hruns.trans hu), fun r hu => step_of_refusal hp hr (hruns.trans hu)⟩

/-- The environment does nothing at the edge for which a word is placed. -/
theorem placeCommand_beforeEngine (s : State) (w : Reg16) : (s.placeCommand w).beforeEngine = s.placeCommand w := rfl

/-- Settles O60: the placed command is due at once, and neither the environment nor the host has a part in its edge. -/
theorem placedCommandRunsNext : Obligations.PlacedCommandRunsNext := by
  unfold Obligations.PlacedCommandRunsNext
  intro s u w hp hexec
  change exec (decodeCmd (BitVec.ofNat 16 w)) (s.placeCommand (BitVec.ofNat 16 w)) = .next u at hexec
  change step (s.placeCommand (BitVec.ofNat 16 w)) = _
  rw [FirstEdge.step_of_command (s := s.placeCommand (BitVec.ofNat 16 w)) (t := u) hp rfl rfl (Nat.le_refl 1) rfl
    (by rw [placeCommand_beforeEngine]; exact hexec)]
  exact congrArg _ (FirstEdge.finishEdge_of_no_write rfl u)

/-! ### The latency -/

/-- R82: the opcodes of the commands that read IN_BUF. -/
theorem opcode_of_reads (op : Byte) :
    (decodeOpcode op ∈ [Instr.encodeS, .encodeM] → op = 0x12 ∨ op = 0x13) ∧
      (decodeOpcode op ∈ [Instr.decodeS, .decodeM] → op = 0x14 ∨ op = 0x15) ∧
      (decodeOpcode op = .crc8 → op = 0x20) := by
  revert op
  decide

/-- A command whose operands are written reads no byte that nothing has written. -/
theorem written_of_reads {s : State} (h : operandsWritten s)
    (hreads : ReadsInBuf (decodeOpcode s.engine.opcode) s.regs.argN.toNat) : s.inBufWritten s.regs.argN.toNat := by
  obtain ⟨hencode, hdecode, hcrc⟩ := h
  obtain ⟨opEncode, opDecode, opCrc⟩ := opcode_of_reads s.engine.opcode
  rcases hreads with ⟨hi, hn⟩ | ⟨hi, hlo, hhi⟩ | ⟨hi, hn⟩
  · exact hencode (opEncode hi) hn
  · exact hdecode (opDecode hi) hlo hhi
  · exact hcrc (opCrc hi) hn

/-- The last edge of a command other than POLL_STEP. -/
theorem completes_of_due {s : State} (h : Inv s) (hb : s.status.busy = true) (hop : s.engine.opcode ≠ pollStepOpcode)
    (hr : s.ports.rst = false) (hw : operandsWritten s) (hl : s.engine.latLeft ≤ 1) :
    ∃ t, step s = .next t ∧ t.status.busy = false ∧ t.status.done = true := by
  have hidle : s.poll.bpe = .idle := Classical.byContradiction fun hp => hop (h.phaseOfPoll hp).2
  rcases exec_nextOrUnwritten (decodeOpcode s.engine.opcode) s.beforeEngine with ⟨u, hu⟩ | ⟨k, _, hk, hread, hreads⟩
  · have hfetch : s.beforeEngine.fetch = decodeOpcode s.engine.opcode := by
      rw [FirstEdge.fetch_of_idle (by rwa [State.beforeEngine_poll_bpe]), State.beforeEngine_engine]
    have hengine : s.beforeEngine.engineStep = .next u := by
      rw [beforeEngine_engineStep_runs hb hl, hfetch, hu]
    obtain ⟨hpoll, hecho, hdata⟩ := decodeOpcode_ne_wire s.engine.opcode
    have hcompleted := command_completes hu (fun hh => hop ((decodeOpcode_pollStep _).1 hh)) hpoll hecho hdata
    have hbusy : (s.finishEdge u).status.busy = false := by
      rw [finishEdge_busy_of_busy hb, hcompleted.status]
    exact ⟨s.finishEdge u, step_of_engine h.paramsLegal hr hengine, hbusy, (edge_done hengine).2 (.inl ⟨hb, hbusy⟩)⟩
  · rw [State.beforeEngine_regs] at hk hreads
    rw [State.beforeEngine_inBuf] at hread
    exact absurd hread (written_of_reads hw hreads k hk)

/-- An edge before the last one: the command is one edge nearer to its end, with the operands it had. -/
theorem waits_of_not_due {s : State} (h : Inv s) (hb : s.status.busy = true) (hr : s.ports.rst = false)
    (hl : 1 < s.engine.latLeft) :
    ∃ t, step s = .next t ∧ t.status.busy = true ∧ t.engine.opcode = s.engine.opcode ∧
      t.engine.latLeft = s.engine.latLeft - 1 ∧ t.regs = s.regs ∧ t.inBuf = s.inBuf ∧ t.script = s.script.tail := by
  have hengine := engineStep_waiting (s := s.beforeEngine) (by rwa [State.beforeEngine_status_busy])
    (by rwa [State.beforeEngine_engine])
  have hstep := step_of_engine h.paramsLegal hr hengine
  obtain ⟨st, hfinish, hbusy, _⟩ := finishEdge_of_busy hb _
  refine ⟨_, hstep.trans (congrArg _ hfinish), ?_, ?_, ?_, ?_, ?_, rfl⟩
  · exact hbusy.trans ((State.beforeEngine_status_busy s).trans hb)
  · change s.beforeEngine.engine.opcode = _
    rw [State.beforeEngine_engine]
  · change s.beforeEngine.engine.latLeft - 1 = _
    rw [State.beforeEngine_engine]
  · exact State.beforeEngine_regs s
  · exact State.beforeEngine_inBuf s

theorem runs_one {s t : State} (h : step s = .next t) : runs 1 s = .next t := by
  simp only [runs, h]

theorem runs_succ {s t : State} (h : step s = .next t) (k : Nat) : runs (k + 1) s = runs k t := by
  simp only [runs, h]

theorem operandsWritten_congr {s t : State} (hop : t.engine.opcode = s.engine.opcode) (hregs : t.regs = s.regs)
    (hin : t.inBuf = s.inBuf) (h : operandsWritten s) : operandsWritten t := by
  unfold operandsWritten State.inBufWritten at h ⊢
  rwa [hop, hregs, hin]

theorem ports_eq_getD (s : State) : s.ports = s.script.getD 0 idlePorts := by
  rw [State.ports]
  cases s.script <;> rfl

theorem getD_tail (l : List Ports) (j : Nat) : l.tail.getD j idlePorts = l.getD (j + 1) idlePorts := by
  cases l <;> rfl

/-- A command with at most `n + 1` edges left completes within them. -/
theorem completes_within (n : Nat) : ∀ s : State, Inv s → s.status.busy = true → s.engine.opcode ≠ pollStepOpcode →
    s.engine.latLeft ≤ n + 1 → (∀ k, k < n + 1 → (s.script.getD k idlePorts).rst = false) → operandsWritten s →
    ∃ k t, 1 ≤ k ∧ k ≤ n + 1 ∧ runs k s = .next t ∧ t.status.busy = false ∧ t.status.done = true := by
  induction n with
  | zero =>
    intro s h hb hop hl hr hw
    obtain ⟨t, hstep, hend⟩ := completes_of_due h hb hop (by rw [ports_eq_getD]; exact hr 0 Nat.one_pos) hw hl
    exact ⟨1, t, Nat.le_refl 1, Nat.le_refl 1, runs_one hstep, hend⟩
  | succ n ih =>
    intro s h hb hop hl hr hw
    have hr0 : s.ports.rst = false := by rw [ports_eq_getD]; exact hr 0 (Nat.succ_pos _)
    by_cases hdue : s.engine.latLeft ≤ 1
    · obtain ⟨t, hstep, hend⟩ := completes_of_due h hb hop hr0 hw hdue
      exact ⟨1, t, Nat.le_refl 1, by omega, runs_one hstep, hend⟩
    · obtain ⟨t, hstep, hbt, hopt, hlt, hregs, hin, hscript⟩ := waits_of_not_due h hb hr0 (Nat.not_le.1 hdue)
      have hrt : ∀ k, k < n + 1 → (t.script.getD k idlePorts).rst = false := fun k hk => by
        rw [hscript, getD_tail]
        exact hr (k + 1) (by omega)
      obtain ⟨k, t', hk1, hkn, hruns, hend⟩ := ih t (Soundness.everyStepKeepsTheStateSound s t h hstep) hbt (hopt ▸ hop)
        (by omega) hrt (operandsWritten_congr hopt hregs hin hw)
      exact ⟨k + 1, t', by omega, by omega, (runs_succ hstep k).trans hruns, hend⟩

/-- Settles O56: the invariant bounds the edges left by LAT_MAX, and every edge that is not the last takes one off. -/
theorem commandsCompleteWithinLatMax : Obligations.CommandsCompleteWithinLatMax := by
  unfold Obligations.CommandsCompleteWithinLatMax
  intro s h hb hop hr hw
  obtain ⟨n, hn⟩ : ∃ n, s.params.latMax = n + 1 := ⟨_, (Nat.sub_add_cancel (Soundness.latMax_pos h.paramsLegal)).symm⟩
  rw [hn] at hr ⊢
  exact completes_within n s h hb hop (hn ▸ h.latencyLe) hr hw

end Sys2Proof.Proofs.Completion

/-! SUPPORT. Stuffing and unstuffing as one stream of bits read in bytes of 8 and in wire bytes of 7
(20_memory.md R63, 40_wirecodec.md section 5). -/

namespace Sys2Proof.Proofs.Stream

open Sys2Proof Sys2Proof.Machine Sys2Proof.Claims

/-! ### The stream of a byte list -/

theorem streamBit_mul_add {width t : Nat} (bytes : List Byte) (i : Nat) (h : t < width) :
    streamBit width bytes (width * i + t) = (bytes.getD i 0).getLsbD t := by
  have hdiv : (width * i + t) / width = i := by
    rw [Nat.mul_add_div (by omega), Nat.div_eq_of_lt h, Nat.add_zero]
  rw [streamBit, hdiv, Nat.mul_add_mod, Nat.mod_eq_of_lt h]

/-- Two lists of one length are equal where their bytes are. -/
theorem list_ext_getD {a b : List Byte} (hlen : a.length = b.length) (h : ∀ i, i < a.length → a.getD i 0 = b.getD i 0) :
    a = b := by
  refine List.ext_getElem hlen fun i ha hb => ?_
  simpa only [List.getD_eq_getElem _ _ ha, List.getD_eq_getElem _ _ hb] using h i ha

/-- A byte list is its length and its stream. -/
theorem list_ext_streamBit {a b : List Byte} (hlen : a.length = b.length)
    (h : ∀ k, k < 8 * a.length → streamBit 8 a k = streamBit 8 b k) : a = b := by
  refine list_ext_getD hlen fun i hi => BitVec.eq_of_getLsbD_eq fun t ht => ?_
  rw [← streamBit_mul_add a i ht, ← streamBit_mul_add b i ht]
  exact h _ (by omega)

/-- A list of wire bytes is its length, its markers and its stream. -/
theorem list_ext_wire {a b : List Byte} (hlen : a.length = b.length)
    (hmark : ∀ i, i < a.length → (a.getD i 0).getLsbD 7 = (b.getD i 0).getLsbD 7)
    (h : ∀ k, k < 7 * a.length → streamBit 7 a k = streamBit 7 b k) : a = b := by
  refine list_ext_getD hlen fun i hi => BitVec.eq_of_getLsbD_eq fun t ht => ?_
  rcases Nat.lt_succ_iff_lt_or_eq.1 ht with ht | rfl
  · rw [← streamBit_mul_add a i ht, ← streamBit_mul_add b i ht]
    exact h _ (by omega)
  · exact hmark i hi

theorem stuff_getD (role : Bool) (src : List Byte) {j : Nat} (h : j < encodedSize src.length) :
    (stuff role src).getD j 0 = stuffByte role src j := by
  rw [List.getD_eq_getElem?_getD, getElem?_stuff role src j h, Option.getD_some]

theorem unstuff_getD (w : List Byte) {i : Nat} (h : i < decodedSize w.length) :
    (unstuff w).getD i 0 = unstuffByte w i := by
  rw [List.getD_eq_getElem?_getD, getElem?_unstuff w i h, Option.getD_some]

/-- R112: the wire stream is the source stream, padded with zeros. -/
theorem streamBit_stuff (role : Bool) (src : List Byte) {k : Nat} (h : k < 7 * encodedSize src.length) :
    streamBit 7 (stuff role src) k = if k < 8 * src.length then streamBit 8 src k else false := by
  obtain ⟨j, t, ht, rfl⟩ : ∃ j t, t < 7 ∧ k = 7 * j + t := ⟨k / 7, k % 7, Nat.mod_lt _ (by decide), by omega⟩
  rw [streamBit_mul_add _ _ ht, stuff_getD role src (by omega), stuffByte_bit role src j t ht]

/-- R115: the decoded stream is the wire stream as far as it fills whole bytes. -/
theorem streamBit_unstuff (w : List Byte) {k : Nat} (h : k < 8 * decodedSize w.length) :
    streamBit 8 (unstuff w) k = streamBit 7 w k := by
  obtain ⟨i, t, ht, rfl⟩ : ∃ i t, t < 8 ∧ k = 8 * i + t := ⟨k / 8, k % 8, Nat.mod_lt _ (by decide), by omega⟩
  rw [streamBit_mul_add _ _ ht, unstuff_getD w (by omega), unstuffByte_bit w i t ht]

/-! ### The sizes (R126) -/

theorem decodedSize_encodedSize (n : Nat) : decodedSize (encodedSize n) = n := by
  unfold decodedSize encodedSize
  omega

theorem encodedSize_decodedSize_eq_iff {m : Nat} (h : 2 ≤ m) : encodedSize (decodedSize m) = m ↔ m % 8 ≠ 1 := by
  obtain ⟨q, r, hr, rfl⟩ : ∃ q r, r < 8 ∧ m = 8 * q + r := ⟨m / 8, m % 8, Nat.mod_lt _ (by decide), by omega⟩
  unfold decodedSize encodedSize
  interval_cases r <;> omega

/-- Settles O12. -/
theorem sizesInvert : Obligations.SizesInvert := by
  unfold Obligations.SizesInvert
  refine ⟨fun n _ => decodedSize_encodedSize n, fun m hm => ⟨?_, encodedSize_decodedSize_eq_iff hm⟩, fun k hk => ⟨?_, ?_⟩⟩
  · unfold decodedSize encodedSize
    omega
  · unfold decodedSize
    omega
  · unfold encodedSize
    omega

/-! ### Stuffing and unstuffing together (R125, R127) -/

/-- Unstuffing takes back what stuffing did, for either role. -/
theorem unstuff_stuff (role : Bool) (src : List Byte) : unstuff (stuff role src) = src := by
  have hlen : (unstuff (stuff role src)).length = src.length := by
    rw [length_unstuff, length_stuff, decodedSize_encodedSize]
  refine list_ext_streamBit hlen fun k hk => ?_
  have hsize := (encodedSize_bounds src.length).1
  rw [hlen] at hk
  rw [streamBit_unstuff _ (by rwa [length_stuff, decodedSize_encodedSize]), streamBit_stuff role src (by omega), if_pos hk]

/-- Unstuffing sees the wire bits below 8 times its size, and no other bit. -/
theorem unstuff_eq_iff {w v : List Byte} (hlen : w.length = v.length) :
    unstuff w = unstuff v ↔ ∀ k, k < 8 * (unstuff w).length → wireBit w k = wireBit v k := by
  have hlenu : (unstuff w).length = (unstuff v).length := by rw [length_unstuff, length_unstuff, hlen]
  have hbits : ∀ k, k < 8 * (unstuff w).length →
      (streamBit 8 (unstuff w) k = streamBit 8 (unstuff v) k ↔ wireBit w k = wireBit v k) := fun k hk => by
    rw [length_unstuff] at hk
    rw [streamBit_unstuff w hk, streamBit_unstuff v (hlen ▸ hk)]
    exact Iff.rfl
  exact ⟨fun h k hk => (hbits k hk).1 (by rw [h]),
    fun h => list_ext_streamBit hlenu fun k hk => (hbits k hk).2 (h k hk)⟩

/-- The wire stream of the stuffing of an unstuffing: the wire bits that unstuffing saw, then zeros. -/
theorem streamBit_stuff_unstuff (role : Bool) {w : List Byte} {k : Nat}
    (hlen : encodedSize (decodedSize w.length) = w.length) (hk : k < 7 * w.length) :
    streamBit 7 (stuff role (unstuff w)) k = if k < 8 * (unstuff w).length then wireBit w k else false := by
  rw [streamBit_stuff role _ (by rwa [length_unstuff, hlen])]
  split
  case isTrue hin => rw [length_unstuff] at hin; exact streamBit_unstuff w hin
  case isFalse => rfl

theorem getLsbD_marker_stuff (role : Bool) (src : List Byte) {b : Byte} (h : b ∈ stuff role src) :
    b.getLsbD 7 = role := by
  obtain ⟨j, _, rfl⟩ := List.mem_map.1 h
  exact stuffByte_marker role src j

/-- Stuffing gives wire bytes back exactly where they are a stuffing: by length, markers and padding. -/
theorem stuff_unstuff_eq_iff (role : Bool) {w : List Byte} (hw : 2 ≤ w.length) :
    stuff role (unstuff w) = w ↔ w.length % 8 ≠ 1 ∧ (∀ b ∈ w, b.getLsbD 7 = role) ∧
      ∀ k, 8 * (unstuff w).length ≤ k → k < 7 * w.length → wireBit w k = false := by
  have hsize : (stuff role (unstuff w)).length = encodedSize (decodedSize w.length) := by
    rw [length_stuff, length_unstuff]
  constructor
  · intro h
    have hlen : encodedSize (decodedSize w.length) = w.length := hsize.symm.trans (congrArg List.length h)
    refine ⟨(encodedSize_decodedSize_eq_iff hw).1 hlen, fun b hb => ?_, fun k hlo hhi => ?_⟩
    · exact getLsbD_marker_stuff role (unstuff w) (h.symm ▸ hb)
    · have hpad := streamBit_stuff_unstuff role hlen hhi
      rw [h, if_neg (Nat.not_lt.2 hlo)] at hpad
      exact hpad
  · rintro ⟨hmod, hmark, hpad⟩
    have hlen : encodedSize (decodedSize w.length) = w.length := (encodedSize_decodedSize_eq_iff hw).2 hmod
    refine list_ext_wire (hsize.trans hlen) (fun i hi => ?_) fun k hk => ?_
    · have hi' : i < w.length := by rwa [hsize, hlen] at hi
      rw [stuff_getD role _ (by rwa [length_unstuff, hlen]), stuffByte_marker, List.getD_eq_getElem _ _ hi']
      exact (hmark _ (List.getElem_mem hi')).symm
    · rw [hsize, hlen] at hk
      rw [streamBit_stuff_unstuff role hlen hk]
      split
      case isTrue => rfl
      case isFalse hout => exact (hpad k (Nat.not_lt.1 hout) hk).symm

/-- Settles O13. -/
theorem unstuffSeesTheStreamBitsBelowItsSize : Obligations.UnstuffSeesTheStreamBitsBelowItsSize := by
  unfold Obligations.UnstuffSeesTheStreamBitsBelowItsSize
  exact ⟨fun _ _ hlen => unstuff_eq_iff hlen, fun role _ hw => stuff_unstuff_eq_iff role hw⟩

/-! ### ENCODE and DECODE (R125) -/

/-- An accepted ENCODE leaves the stuffing of its input in OUT_BUF, and its size in RES_N. -/
theorem encodeCommand_output {role : Bool} {s s1 : State} (h1 : 1 ≤ s.regs.argN.toNat) (h28 : s.regs.argN.toNat ≤ 28)
    (hw : s.inBufWritten s.regs.argN.toNat) (h : encodeCommand role s = .next s1) :
    ∃ src : List Byte, src.length = s.regs.argN.toNat ∧
      (∀ k, k < s.regs.argN.toNat → Memory.read s.inBuf k = src[k]?) ∧
      s1.resN.toNat = encodedSize s.regs.argN.toNat ∧
      ∀ j, j < encodedSize s.regs.argN.toNat → Memory.read s1.outBuf j = (stuff role src)[j]? := by
  have hacc : ¬(s.regs.argN.toNat = 0 ∨ bufBytes < encodedSize s.regs.argN.toNat) :=
    (encode_count_iff _).not.2 (by omega)
  obtain ⟨src, out, hlen, hsrc, hrun, hout⟩ := WireCodec.bufferCommand_ends (m := encodedSize s.regs.argN.toNat)
    (f := stuff role) (by unfold bufBytes; omega) (by omega) (fun src h => by rw [length_stuff, h]) hw
  rw [encodeCommand_runs role s hacc, hrun] at h
  cases h
  exact ⟨src, hlen, hsrc, WireCodec.toNat_ofNat_encodedSize _, fun j hj => (hout j).trans (if_pos hj)⟩

/-- An accepted DECODE leaves the unstuffing of its input in OUT_BUF, and its size in RES_N. -/
theorem decodeCommand_output {s : State} (h2 : 2 ≤ s.regs.argN.toNat) (h32 : s.regs.argN.toNat ≤ 32)
    (hw : s.inBufWritten s.regs.argN.toNat) :
    ∃ (w : List Byte) (s3 : State), w.length = s.regs.argN.toNat ∧
      (∀ k, k < s.regs.argN.toNat → Memory.read s.inBuf k = w[k]?) ∧ decodeCommand s = .next s3 ∧
      s3.status.result = .ok ∧ s3.resN.toNat = decodedSize s.regs.argN.toNat ∧
      ∀ j, j < decodedSize s.regs.argN.toNat → Memory.read s3.outBuf j = (unstuff w)[j]? := by
  have hacc : ¬(bufBytes < s.regs.argN.toNat ∨ decodedSize s.regs.argN.toNat = 0) :=
    (decode_count_iff _).not.2 (by omega)
  have hsize := (decodedSize_bounds s.regs.argN.toNat).1
  obtain ⟨w, out, hlen, hin, hrun, hout⟩ := WireCodec.bufferCommand_ends (m := decodedSize s.regs.argN.toNat)
    (f := unstuff) h32 (by unfold bufBytes; omega) (fun w h => by rw [length_unstuff, h]) hw
  exact ⟨w, _, hlen, hin, (decodeCommand_runs s hacc).trans hrun, rfl, WireCodec.toNat_ofNat_decodedSize _,
    fun j hj => (hout j).trans (if_pos hj)⟩

/-- Settles O11: what DECODE reads is the stuffing that ENCODE wrote, and unstuffing takes it back. -/
theorem decodeOfEncodeGivesInputBack : Obligations.DecodeOfEncodeGivesInputBack := by
  unfold Obligations.DecodeOfEncodeGivesInputBack
  intro x y s s1 s2 h1 h28 hw hencode hcopy hcount
  rw [WireCodec.exec_encode] at hencode
  rw [WireCodec.exec_decode]
  obtain ⟨src, hlen, hsrc, hsize, hout⟩ := encodeCommand_output h1 h28 hw hencode
  obtain ⟨hlo, hhi⟩ := encodedSize_bounds s.regs.argN.toNat
  rw [hsize] at hcopy hcount
  have hin : ∀ i, i < s2.regs.argN.toNat → Memory.read s2.inBuf i = (stuff x src)[i]? := fun i hi => by
    rw [hcopy i (hcount ▸ hi), hout i (hcount ▸ hi)]
  have hstuffed : (stuff x src).length = s2.regs.argN.toNat := by rw [length_stuff, hlen, hcount]
  have hw2 : s2.inBufWritten s2.regs.argN.toNat := fun i hi => by
    rw [hin i hi, List.getElem?_eq_getElem (hstuffed ▸ hi)]
    exact Option.some_ne_none _
  obtain ⟨w, s3, hwlen, hwin, hdecode, hresult, hresN, hwout⟩ := decodeCommand_output (s := s2) (by omega) (by omega) hw2
  have hwsrc : w = stuff x src := List.ext_getElem? fun i => by
    by_cases hi : i < s2.regs.argN.toNat
    · rw [← hwin i hi, hin i hi]
    · rw [List.getElem?_eq_none (by omega), List.getElem?_eq_none (by omega)]
  rw [hcount, decodedSize_encodedSize] at hresN hwout
  refine ⟨s3, hdecode, hresult, hresN, fun i hi => ?_⟩
  rw [hwout i hi, hwsrc, unstuff_stuff, hsrc i hi]

/-! ### The frame of a reply (R94) -/

/-! A byte put together from two or three fields, bit by bit, for the widths that occur in a reply. -/

theorem getLsbD_append_6_2 (x : BitVec 6) (y : BitVec 2) (t : Nat) :
    BitVec.getLsbD (w := 8) (x ++ y) t = if t < 2 then y.getLsbD t else x.getLsbD (t - 2) := BitVec.getLsbD_append

theorem getLsbD_append_1_7 (x : BitVec 1) (y : BitVec 7) (t : Nat) :
    BitVec.getLsbD (w := 8) (x ++ y) t = if t < 7 then y.getLsbD t else x.getLsbD (t - 7) := BitVec.getLsbD_append

theorem getLsbD_append_5_3 (x : BitVec 5) (y : BitVec 3) (t : Nat) :
    BitVec.getLsbD (w := 8) (x ++ y) t = if t < 3 then y.getLsbD t else x.getLsbD (t - 3) := BitVec.getLsbD_append

theorem getLsbD_append_1_4_3 (x : BitVec 1) (y : BitVec 4) (z : BitVec 3) (t : Nat) :
    BitVec.getLsbD (w := 8) (x ++ y ++ z) t =
      if t < 3 then z.getLsbD t else if t - 3 < 4 then y.getLsbD (t - 3) else x.getLsbD (t - 3 - 4) := by
  rw [← BitVec.getLsbD_append]
  exact BitVec.getLsbD_append

theorem getLsbD_append_1_5_2 (x : BitVec 1) (y : BitVec 5) (z : BitVec 2) (t : Nat) :
    BitVec.getLsbD (w := 8) (x ++ y ++ z) t =
      if t < 2 then z.getLsbD t else if t - 2 < 5 then y.getLsbD (t - 2) else x.getLsbD (t - 2 - 5) := by
  rw [← BitVec.getLsbD_append]
  exact BitVec.getLsbD_append

/-- The 28 stream bits of a reply, each at its place in the four wire bytes, under four slave markers. -/
theorem stuff_payload (trim : BitVec 10) (btn : BitVec 6) (crc : Byte) :
    stuff false [trim.extractLsb' 0 8, btn ++ trim.extractLsb' 8 2, crc] =
      [(0 : BitVec 1) ++ trim.extractLsb' 0 7,
       (0 : BitVec 1) ++ btn.extractLsb' 0 4 ++ trim.extractLsb' 7 3,
       (0 : BitVec 1) ++ crc.extractLsb' 0 5 ++ btn.extractLsb' 4 2,
       (0 : BitVec 5) ++ crc.extractLsb' 5 3] := by
  refine list_ext_wire (by simp [encodedSize]) (fun i hi => ?markers) fun k hk => ?stream
  case markers =>
    have hi4 : i < 4 := by simpa [encodedSize] using hi
    rw [stuff_getD _ _ (by simpa using hi), stuffByte_marker]
    interval_cases i <;>
      simp only [List.getD_cons_zero, List.getD_cons_succ, getLsbD_append_1_7, getLsbD_append_1_4_3,
        getLsbD_append_1_5_2, getLsbD_append_5_3] <;> simp
  case stream =>
    rw [length_stuff] at hk
    rw [streamBit_stuff _ _ hk]
    have hk28 : k < 28 := by simpa [encodedSize] using hk
    interval_cases k <;>
      simp only [streamBit, List.getD_cons_zero, List.getD_cons_succ, getLsbD_append_1_7, getLsbD_append_6_2,
        getLsbD_append_1_4_3, getLsbD_append_1_5_2, getLsbD_append_5_3, Nat.reduceDiv, Nat.reduceMod] <;> simp

/-- The two bytes before the CRC hold the word of R91, TRIM below BTN. -/
theorem assemblePayload_eq (trim : BitVec 10) (btn : BitVec 6) :
    assemblePayload trim btn = [trim.extractLsb' 0 8, btn ++ trim.extractLsb' 8 2,
      crc8 [trim.extractLsb' 0 8, btn ++ trim.extractLsb' 8 2]] := by
  have hlow : BitVec.extractLsb' (n := 16) 0 8 (btn ++ trim) = trim.extractLsb' 0 8 := by
    refine BitVec.eq_of_getLsbD_eq fun t ht => ?_
    rw [BitVec.getLsbD_extractLsb', BitVec.getLsbD_extractLsb', Nat.zero_add]
    exact congrArg _ (Registers.getLsbD_append_low btn trim (by omega))
  have hhigh : BitVec.extractLsb' (n := 16) 8 8 (btn ++ trim) = btn ++ trim.extractLsb' 8 2 := by
    refine BitVec.eq_of_getLsbD_eq fun t ht => ?_
    have hword : BitVec.getLsbD (w := 16) (btn ++ trim) (8 + t) =
        if 8 + t < 10 then trim.getLsbD (8 + t) else btn.getLsbD (8 + t - 10) := BitVec.getLsbD_append
    rw [BitVec.getLsbD_extractLsb', hword, getLsbD_append_6_2]
    by_cases hlt : t < 2
    · simp [ht, hlt, show 8 + t < 10 by omega]
    · simp [ht, hlt, show ¬8 + t < 10 by omega, show 8 + t - 10 = t - 2 by omega]
  simp only [assemblePayload, hlow, hhigh]

/-- Settles O6. -/
theorem replyFrameLayout : Obligations.ReplyFrameLayout := by
  unfold Obligations.ReplyFrameLayout
  intro trim btn
  refine ⟨_, assemblePayload_eq trim btn, rfl, ?_⟩
  rw [replyFrame, assemblePayload_eq]
  exact stuff_payload trim btn _

end Sys2Proof.Proofs.Stream

/-! SUPPORT. The CRC as a linear map: eight shifts, each of them linear and one to one (41_framecrc.md R140 to R143). -/

namespace Sys2Proof.Proofs.Crc

open Sys2Proof Sys2Proof.Machine Sys2Proof.Claims

/-! ### One shift -/

/-- A shift moves every bit up; the bit that leaves is added where the polynomial has its bits 0, 1 and 2. -/
theorem crcShift_eq (c : Byte) : crcShift c = (c <<< 1) ^^^ (if c.getLsbD 7 then 0x07 else 0) := by
  unfold crcShift
  split <;> simp

theorem getLsbD_crcShift (c : Byte) {t : Nat} (h : t < 8) :
    (crcShift c).getLsbD t = ((decide (1 ≤ t) && c.getLsbD (t - 1)) ^^ (c.getLsbD 7 && decide (t < 3))) := by
  have hpoly : ∀ t < 8, (0x07 : Byte).getLsbD t = decide (t < 3) := by decide
  have hshift : (c <<< 1).getLsbD t = (decide (1 ≤ t) && c.getLsbD (t - 1)) := by
    rw [BitVec.getLsbD_shiftLeft, decide_eq_true h, Bool.true_and, ← decide_not]
    simp only [Nat.not_lt]
  rw [crcShift_eq, BitVec.getLsbD_xor, hshift]
  cases c.getLsbD 7 with
  | false => simp
  | true => rw [if_pos rfl, hpoly t h, Bool.true_and]

theorem crcShift_xor (a b : Byte) : crcShift (a ^^^ b) = crcShift a ^^^ crcShift b := by
  refine BitVec.eq_of_getLsbD_eq fun t ht => ?_
  rw [BitVec.getLsbD_xor, getLsbD_crcShift _ ht, getLsbD_crcShift _ ht, getLsbD_crcShift _ ht, BitVec.getLsbD_xor,
    BitVec.getLsbD_xor, Bool.and_xor_distrib_left, Bool.and_xor_distrib_right, Bool.xor_assoc, Bool.xor_assoc]
  exact congrArg _ (Bool.xor_left_comm ..)

theorem crcShift_eq_zero {c : Byte} (h : crcShift c = 0) : c = 0 := by
  revert c
  decide

theorem crcShift_injective : Function.Injective crcShift := fun a b h => by
  have hx : a ^^^ b = 0 := crcShift_eq_zero ((crcShift_xor a b).trans (h ▸ BitVec.xor_self))
  exact BitVec.xor_eq_zero_iff.1 hx

/-! ### Several shifts, and a byte -/

theorem crcShift_iterate_xor (n : Nat) (a b : Byte) :
    crcShift^[n] (a ^^^ b) = crcShift^[n] a ^^^ crcShift^[n] b := by
  induction n generalizing a b with
  | zero => rfl
  | succ n ih => simp only [Function.iterate_succ_apply, crcShift_xor, ih]

theorem crcShift_iterate_zero (n : Nat) : crcShift^[n] 0 = 0 := Function.iterate_fixed (by decide) n

theorem crcShift_iterate_eq_zero_iff (n : Nat) (c : Byte) : crcShift^[n] c = 0 ↔ c = 0 := by
  rw [← (crcShift_injective.iterate n).eq_iff (a := c), crcShift_iterate_zero]

/-- R140: a byte is XORed in and shifted eight times. -/
theorem crcByte_eq (c d : Byte) : crcByte c d = crcShift^[8] (c ^^^ d) := rfl

theorem crcByte_xor (a b c d : Byte) : crcByte (a ^^^ b) (c ^^^ d) = crcByte a c ^^^ crcByte b d := by
  have hswap : a ^^^ b ^^^ (c ^^^ d) = (a ^^^ c) ^^^ (b ^^^ d) := by ac_rfl
  rw [crcByte_eq, crcByte_eq, crcByte_eq, hswap, crcShift_iterate_xor]

theorem crc8_append_singleton (d : List Byte) (b : Byte) : crc8 (d ++ [b]) = crcByte (crc8 d) b := by
  rw [crc8, List.foldl_append]
  rfl

/-- Settles O15: the eight shifts are one to one, so only equal bytes leave 0. -/
theorem appendedCrcGivesZero : Obligations.AppendedCrcGivesZero := by
  unfold Obligations.AppendedCrcGivesZero
  intro d c
  calc crc8 (d ++ [c]) = 0
    _ ↔ crcShift^[8] (crc8 d ^^^ c) = 0 := by rw [crc8_append_singleton, crcByte_eq]
    _ ↔ crc8 d ^^^ c = 0 := crcShift_iterate_eq_zero_iff 8 _
    _ ↔ crc8 d = c := BitVec.xor_eq_zero_iff
    _ ↔ c = crc8 d := eq_comm

/-! ### The command CRC8 (R141) -/

/-- The register before, between and after the eight shifts of one byte. -/
theorem crcShift_iterate_bits (x : Byte) (k : Nat) :
    (crcShift^[k + 1] x).getLsbD 0 = (crcShift^[k] x).getLsbD 7 ∧
      (∀ t, 1 ≤ t → t ≤ 2 → (crcShift^[k + 1] x).getLsbD t =
        ((crcShift^[k] x).getLsbD (t - 1)).xor ((crcShift^[k] x).getLsbD 7)) ∧
      ∀ t, 3 ≤ t → t < 8 → (crcShift^[k + 1] x).getLsbD t = (crcShift^[k] x).getLsbD (t - 1) := by
  rw [Function.iterate_succ_apply']
  refine ⟨?_, fun t h1 h2 => ?_, fun t h3 h8 => ?_⟩
  · rw [getLsbD_crcShift _ (by decide)]
    simp
  · rw [getLsbD_crcShift _ (by omega), decide_eq_true h1, decide_eq_true (show t < 3 by omega), Bool.true_and,
      Bool.and_true]
  · rw [getLsbD_crcShift _ h8, decide_eq_true (show 1 ≤ t by omega), decide_eq_false (show ¬t < 3 by omega),
      Bool.true_and, Bool.and_false, Bool.xor_false]

theorem exec_crc8 (s : State) : exec .crc8 s = execCrc8 s := rfl

theorem exec_crc8_of_written {s : State} (hn : s.regs.argN.toNat ≤ 32) (hw : s.inBufWritten s.regs.argN.toNat) :
    ∃ data : List Byte, data.length = s.regs.argN.toNat ∧
      (∀ i, i < s.regs.argN.toNat → Memory.read s.inBuf i = data[i]?) ∧
      exec .crc8 s = .next { ended s .ok with resByte := crc8 data } := by
  obtain ⟨data, hlen, hdata, hrun⟩ := s.withInBytes_of_written s.regs.argN.toNat
    (fun data => complete .ok { s with resByte := crc8 data }) hn hw
  exact ⟨data, hlen, hdata, (execCrc8_runs s (Nat.not_lt.2 hn)).trans hrun⟩

/-- Settles O14: `c` of the statement is the register after each of the eight shifts. -/
theorem crcCommandWritesCrcOfInput : Obligations.CrcCommandWritesCrcOfInput := by
  unfold Obligations.CrcCommandWritesCrcOfInput
  refine ⟨by decide, fun s => ⟨fun hn => ?_, fun hn hw => exec_crc8_of_written hn hw⟩, rfl, fun d b => ?_⟩
  · rw [exec_crc8, execCrc8_rejects s hn]
    rfl
  · exact ⟨fun k => crcShift^[k] (crc8 d ^^^ b), rfl, (crc8_append_singleton d b).symm,
      fun k _ => crcShift_iterate_bits _ k⟩

/-! ### Linearity and error bursts (R143) -/

theorem foldl_crcByte_xor (a b : List Byte) (x y : Byte) (h : a.length = b.length) :
    (List.zipWith (· ^^^ ·) a b).foldl crcByte (x ^^^ y) = a.foldl crcByte x ^^^ b.foldl crcByte y := by
  induction a generalizing b x y with
  | nil =>
    obtain rfl : b = [] := List.length_eq_zero_iff.1 h.symm
    rfl
  | cons c a ih =>
    cases b with
    | nil => exact absurd h (Nat.succ_ne_zero _)
    | cons d b =>
      simp only [List.zipWith_cons_cons, List.foldl_cons, crcByte_xor]
      exact ih b _ _ (Nat.succ.inj h)

theorem crc8_zipWith_xor {a b : List Byte} (h : a.length = b.length) :
    crc8 (List.zipWith (· ^^^ ·) a b) = crc8 a ^^^ crc8 b := by
  have hx := foldl_crcByte_xor a b 0 0 h
  rwa [BitVec.xor_self] at hx

/-- The remainder of 16 bits after the division that the CRC is, before the last byte's eight shifts. -/
def remainder (w : Reg16) : Byte := crcShift^[8] (w.extractLsb' 8 8) ^^^ w.extractLsb' 0 8

theorem crc8_pair (w : Reg16) : crc8 [w.extractLsb' 8 8, w.extractLsb' 0 8] = crcShift^[8] (remainder w) := by
  have hzero : (0 : Byte) ^^^ w.extractLsb' 8 8 = w.extractLsb' 8 8 := BitVec.zero_xor
  change crcByte (crcByte 0 (w.extractLsb' 8 8)) (w.extractLsb' 0 8) = _
  rw [crcByte_eq, crcByte_eq, hzero, remainder]

/-- The high byte takes the bit that leaves the low one. -/
theorem extract_high_shiftLeft (w : Reg16) :
    (w <<< 1).extractLsb' 8 8 = (w.extractLsb' 8 8 <<< 1) ^^^ (if w.getLsbD 7 then 1 else 0) := by
  have hone : ∀ t < 8, (1 : Byte).getLsbD t = decide (t = 0) := by decide
  have hcarry : ∀ t < 8, BitVec.getLsbD (w := 8) (if w.getLsbD 7 then 1 else 0) t = (w.getLsbD 7 && decide (t = 0)) := by
    intro t ht
    cases w.getLsbD 7 with
    | false => simp
    | true => rw [if_pos rfl, hone t ht, Bool.true_and]
  refine BitVec.eq_of_getLsbD_eq fun t ht => ?_
  rw [BitVec.getLsbD_xor, hcarry t ht]
  cases t with
  | zero => simp
  | succ t =>
    simp [ht, show 8 + (t + 1) < 16 by omega, show 8 + (t + 1) - 1 = 8 + t by omega, show t < 8 by omega,
      -BitVec.getLsbD_eq_getElem]

theorem extract_low_shiftLeft (w : Reg16) : (w <<< 1).extractLsb' 0 8 = w.extractLsb' 0 8 <<< 1 := by
  refine BitVec.eq_of_getLsbD_eq fun t ht => ?_
  cases t with
  | zero => simp
  | succ t => simp [ht, show t + 1 < 16 by omega, show t < 8 by omega, -BitVec.getLsbD_eq_getElem]

/-- Shifting the word shifts the remainder: both are a multiplication by x. -/
theorem remainder_shiftLeft {w : Reg16} (h : w.getLsbD 15 = false) :
    remainder (w <<< 1) = crcShift (remainder w) := by
  have hhigh : w.extractLsb' 8 8 <<< 1 = crcShift (w.extractLsb' 8 8) := by
    have htop : (w.extractLsb' 8 8).getLsbD 7 = false := by simpa using h
    rw [crcShift_eq, htop]
    simp
  have hlow : crcShift (w.extractLsb' 0 8) = (w.extractLsb' 0 8 <<< 1) ^^^ (if w.getLsbD 7 then 0x07 else 0) := by
    rw [crcShift_eq]
    simp
  have hcarry : crcShift^[8] (if w.getLsbD 7 then 1 else 0) = if w.getLsbD 7 then 0x07 else 0 := by
    split <;> decide
  calc remainder (w <<< 1)
    _ = crcShift^[8] (crcShift (w.extractLsb' 8 8) ^^^ (if w.getLsbD 7 then 1 else 0)) ^^^
          (w.extractLsb' 0 8 <<< 1) := by
        rw [remainder, extract_high_shiftLeft, extract_low_shiftLeft, hhigh]
    _ = crcShift^[8] (crcShift (w.extractLsb' 8 8)) ^^^
          ((w.extractLsb' 0 8 <<< 1) ^^^ (if w.getLsbD 7 then 0x07 else 0)) := by
        rw [crcShift_iterate_xor, hcarry]
        ac_rfl
    _ = crcShift (crcShift^[8] (w.extractLsb' 8 8)) ^^^ crcShift (w.extractLsb' 0 8) := by
        rw [hlow, ← Function.iterate_succ_apply, Function.iterate_succ_apply']
    _ = crcShift (remainder w) := (crcShift_xor ..).symm

/-- The remainder of a burst of at most 8 bits. -/
theorem remainder_burst (e : Byte) (k : Nat) (h : k ≤ 8) : remainder (e.setWidth 16 <<< k) = crcShift^[k] e := by
  induction k with
  | zero =>
    have hhigh : (e.setWidth 16).extractLsb' 8 8 = 0 := by
      refine BitVec.eq_of_getLsbD_eq fun t ht => ?_
      simp
    have hlow : (e.setWidth 16).extractLsb' 0 8 = e := by
      refine BitVec.eq_of_getLsbD_eq fun t ht => ?_
      simp [ht, show t < 16 by omega]
    rw [BitVec.shiftLeft_zero, remainder, hhigh, hlow, crcShift_iterate_zero]
    exact BitVec.zero_xor
  | succ k ih =>
    have htop : (e.setWidth 16 <<< k).getLsbD 15 = false := by
      rw [BitVec.getLsbD_shiftLeft, BitVec.getLsbD_setWidth, BitVec.getLsbD_of_ge e _ (by omega), Bool.and_false,
        Bool.and_false]
    rw [BitVec.shiftLeft_add, remainder_shiftLeft htop, ih (by omega), Function.iterate_succ_apply']

/-- Settles O16: the shifts are one to one, so neither they nor the burst's place make a nonzero burst vanish. -/
theorem crcIsLinearAndSeesBursts : Obligations.CrcIsLinearAndSeesBursts := by
  unfold Obligations.CrcIsLinearAndSeesBursts
  refine ⟨fun a b h => crc8_zipWith_xor h, fun p0 p1 e k he hk => ?_⟩
  intro burst heq
  have hlin : crc8 [p0 ^^^ burst.extractLsb' 8 8, p1 ^^^ burst.extractLsb' 0 8] =
      crc8 [p0, p1] ^^^ crc8 [burst.extractLsb' 8 8, burst.extractLsb' 0 8] :=
    crc8_zipWith_xor (a := [p0, p1]) (b := [burst.extractLsb' 8 8, burst.extractLsb' 0 8]) rfl
  rw [heq, crc8_pair, remainder_burst e k hk] at hlin
  have hzero : crcShift^[8] (crcShift^[k] e) = 0 :=
    calc crcShift^[8] (crcShift^[k] e)
      _ = crc8 [p0, p1] ^^^ (crc8 [p0, p1] ^^^ crcShift^[8] (crcShift^[k] e)) := by
          rw [← BitVec.xor_assoc, BitVec.xor_self]
          exact BitVec.zero_xor.symm
      _ = crc8 [p0, p1] ^^^ crc8 [p0, p1] := by rw [← hlin]
      _ = 0 := BitVec.xor_self
  exact he ((crcShift_iterate_eq_zero_iff k e).1 ((crcShift_iterate_eq_zero_iff 8 _).1 hzero))

end Sys2Proof.Proofs.Crc

/-! SUPPORT. The edges of a call, phase by phase (42_polling.md R152 to R162). -/

namespace Sys2Proof.Proofs.CallEdges

open Sys2Proof Sys2Proof.Machine Sys2Proof.Claims

/-! ### The first edge (R152, R153) -/

theorem startCall_of_terminals {s : State} (h : s.regs.terminalCount ≠ 0) :
    startCall s = .next { s with
      poll := { s.poll with bpe := .tx, callId := nextPollId s.poll.nextId s.regs.terminalCount, txTaken := false } } :=
  if_neg h

/-- R85: the byte sent to a terminal is its id under the master marker. -/
theorem pollByte_eq (id : BitVec 7) : pollByte id = wireByte true id := by
  rw [WireBytes.wireByte_true, pollByte, encodeMasterByte, BitVec.or_comm]

/-- Settles O18. -/
theorem pollStepOffersNextIdsPollByte : Obligations.PollStepOffersNextIdsPollByte := by
  unfold Obligations.PollStepOffersNextIdsPollByte
  refine ⟨by decide, fun s hidle hcount => ?_⟩
  have hstart := (FirstEdge.exec_pollStep_of_idle hidle).trans (startCall_of_terminals hcount)
  obtain ⟨hid, hlt⟩ := Soundness.toNat_nextPollId s.poll.nextId hcount
  refine ⟨_, hid, hlt, hstart, fun t ht => ?_⟩
  rw [hstart] at ht
  cases ht
  exact ⟨_, rfl, congrArg Encoded.line (pollByte_eq _).symm⟩

/-! ### The transmit phase (R154) -/

theorem transmitEdge_eq (s : State) : transmitEdge s = .next
    (if s.poll.txTaken then
      if s.ports.txDone then { s with poll := { s.poll with bpe := .waitId, winLeft := s.regs.pollTimeoutMs } } else s
    else if s.ports.txReady then { s with poll := { s.poll with txTaken := true } } else s) := by
  unfold transmitEdge
  split_ifs <;> rfl

theorem txOffer_of_tx {s : State} (h : s.poll.bpe = .tx) :
    s.txOffer = if s.poll.txTaken then none else some (0x80 ||| s.poll.callId.setWidth 8) := by
  rw [State.txOffer, pollByte_eq, WireBytes.wireByte_true]
  cases htaken : s.poll.txTaken <;> simp [h]

theorem exec_pollStep_of_tx {s : State} (h : s.poll.bpe = .tx) : exec .pollStep s = transmitEdge s := by
  simp only [exec, execPollStep, h]

/-- Settles O19. -/
theorem transmitPhaseWaitsForTheDevice : Obligations.TransmitPhaseWaitsForTheDevice := by
  unfold Obligations.TransmitPhaseWaitsForTheDevice
  intro s h
  have hexec : exec (.wirePoll s.poll.callId) s = transmitEdge s := fetch_tx h ▸ exec_fetch_tx h
  exact ⟨fetch_tx h, txOffer_of_tx h, hexec.trans (transmitEdge_eq s), (exec_pollStep_of_tx h).trans hexec.symm⟩

/-! ### The echo (R155) -/

/-- The echo is accepted: the data window opens. -/
theorem takeEcho_accepted {b : Byte} {s : State}
    (h : b.getLsbD 7 = false ∧ b.extractLsb' 0 7 = s.poll.callId) : takeEcho b false s.popRx = .next { s with
      rxFifo := s.rxFifo.tail
      poll := { s.poll with bpe := .waitData, winLeft := s.regs.connTimeoutMs, dataCnt := 0 } } := by
  rw [takeEcho_eq, if_pos ⟨rfl, h⟩]
  rfl

theorem takeEcho_refused {b : Byte} {err : Bool} {s : State}
    (h : ¬(err = false ∧ b.getLsbD 7 = false ∧ b.extractLsb' 0 7 = s.poll.callId)) :
    takeEcho b err s.popRx = .next (endedCall s [] .invalidResponse 0 0 0 0) := by
  refine (takeEcho_eq b err s.popRx).trans ((if_neg h).trans ?_)
  exact FourthByte.finishCall_eq_endedCall ..

theorem exec_wireEcho_of_waitId {s : State} (id : BitVec 7) (h : s.poll.bpe = .waitId) :
    exec (.wireEcho id) s = takeEcho (wireByte false id) false s.popRx := by
  simp only [exec, execWireEcho, takeByte, h]

/-- Settles O20: a WIRE.ECHO has the slave marker, so its field decides. -/
theorem echoIsAcceptedOnlyFromPolledTerminal : Obligations.EchoIsAcceptedOnlyFromPolledTerminal := by
  unfold Obligations.EchoIsAcceptedOnlyFromPolledTerminal
  intro id s h
  have hmark : (wireByte false id).getLsbD 7 = false := WireBytes.isMasterByte_wireByte false id
  have hfield : (wireByte false id).extractLsb' 0 7 = id := WireBytes.wireField_wireByte false id
  rw [exec_wireEcho_of_waitId id h]
  exact ⟨fun hid => takeEcho_accepted ⟨hmark, hfield.trans hid⟩,
    fun hid => takeEcho_refused fun ⟨_, _, hf⟩ => hid (hfield.symm.trans hf)⟩

/-- Settles O21. -/
theorem firstByteDecidesTheIdPhase : Obligations.FirstByteDecidesTheIdPhase := by
  unfold Obligations.FirstByteDecidesTheIdPhase
  intro s e rest hop hphase hfifo
  rw [exec_fetch_waitId_cons s e rest hop hphase hfifo]
  refine ⟨fun ⟨herr, hecho⟩ => ?_, takeEcho_refused⟩
  rw [herr, takeEcho_accepted hecho, hfifo]
  rfl

/-! ### Payload bytes before the fourth (R156, R157) -/

/-- RX_FRAME with byte `k` written. -/
theorem getElem?_bytes_set (f : RxFrame) (d : Byte) {k j : Nat} (hk : k < 4) (hj : j < 4) :
    (f.set k d).bytes[j]? = if j = k then some d else f.bytes[j]? := by
  interval_cases k <;> interval_cases j <;> rfl

/-- The state after a payload byte that is not the fourth. -/
theorem takeData_joins {s : State} (d : Byte) (h : s.poll.dataCnt.toNat < 3) :
    ∃ (f : RxFrame) (c : BitVec 3), c.toNat = s.poll.dataCnt.toNat + 1 ∧
      (∀ j, j < 4 → f.bytes[j]? = if j = s.poll.dataCnt.toNat then some d else s.poll.frame.bytes[j]?) ∧
      takeData d false s.popRx = .next { s with
        rxFifo := s.rxFifo.tail, poll := { s.poll with frame := f, dataCnt := c } } := by
  refine ⟨_, s.poll.dataCnt + 1, ?_, fun j hj => getElem?_bytes_set s.poll.frame d (by omega) hj, takeData_eq d s.popRx h⟩
  rw [BitVec.toNat_add]
  exact Nat.mod_eq_of_lt (show s.poll.dataCnt.toNat + 1 < 2 ^ 3 by omega)

theorem exec_wireData_of_waitData {s : State} (d : BitVec 7) (h : s.poll.bpe = .waitData) :
    exec (.wireData d) s = takeData (wireByte false d) false s.popRx := by
  simp only [exec, execWireData, takeByte, h]

/-- Settles O22. -/
theorem dataByteJoinsTheFrame : Obligations.DataByteJoinsTheFrame := by
  unfold Obligations.DataByteJoinsTheFrame
  refine ⟨fun d s hphase hcnt => ?_, fun b rest s hphase hcnt hfifo => ?_⟩
  · rw [exec_wireData_of_waitData d hphase, WireBytes.wireByte_false]
    exact takeData_joins _ hcnt
  · obtain ⟨f, c, hc, hf, htake⟩ := takeData_joins b hcnt
    rw [exec_fetch_waitData_byte s _ rest hphase hfifo rfl]
    rw [hfifo] at htake
    exact ⟨f, c, hc, hf, htake⟩

/-- Settles O23. -/
theorem erroredPayloadByteEndsTheCall : Obligations.ErroredPayloadByteEndsTheCall := by
  unfold Obligations.ErroredPayloadByteEndsTheCall
  intro s b rest hop hphase hfifo
  rw [exec_fetch_waitData_cons s _ rest hop hphase hfifo, takeData, if_pos rfl]
  exact FourthByte.finishCall_eq_endedCall ..

/-! ### A receive phase without a byte (R159) -/

theorem windowEdge_eq (expired : Result) (s : State) :
    windowEdge expired s = if s.poll.winLeft = 0 then finishCall expired [] s else .next s := rfl

/-- Settles O25: at the end of a window the FIFO, which is empty, is flushed or kept. -/
theorem emptyWindowHoldsOrExpires : Obligations.EmptyWindowHoldsOrExpires := by
  unfold Obligations.EmptyWindowHoldsOrExpires
  intro s hfifo
  refine ⟨fun hphase => ?_, fun hphase => ?_⟩
  · have hexec : exec .pollStep s = windowEdge .idle s := by simp only [exec, execPollStep, hphase, hfifo]
    rw [hexec, windowEdge_eq, FourthByte.finishCall_eq_endedCall, apply_ite Host.Outcome.next]
    simp only [Result.flushes, Result.decoded, hfifo, reduceCtorEq, Bool.false_eq_true, if_false]
  · have hexec : exec .pollStep s = windowEdge .timeout s := by simp only [exec, execPollStep, hphase, hfifo]
    rw [hexec, windowEdge_eq, FourthByte.finishCall_eq_endedCall, apply_ite Host.Outcome.next]
    simp only [Result.flushes, Result.decoded, reduceCtorEq, Bool.false_eq_true, if_true, if_false]

/-! ### The end of a call (R161, R162) -/

/-- Whatever ended a call, its result registers are those of the ending. -/
theorem callEnds_registers {s t : State} {c : Result} (h : CallEnds s t c) :
    t.poll.bpe = .idle ∧ t.poll.nextId = s.poll.callId ∧ t.poll.dev = s.poll.callId ∧ t.status.busy = false ∧
      t.status.done = true ∧ t.status.result = c := by
  obtain ⟨u, p, hfinish, _, hid, _⟩ := h
  rw [FourthByte.finishCall_eq_endedCall] at hfinish
  cases hfinish
  exact ⟨rfl, hid, hid, rfl, rfl, rfl⟩

theorem decoded_iff (c : Result) : c.decoded = true ↔ c = .ok ∨ c = .invalidCrc := by cases c <;> decide

theorem flushes_iff (c : Result) : c.flushes = true ↔ c ∈ [Result.timeout, .invalidResponse, .invalidCrc] := by
  cases c <;> decide

/-- Settles O26: a call that goes on keeps BUSY, and one that ends does so by `finish`. -/
theorem everyCallEndsWithItsResultRegisters : Obligations.EveryCallEndsWithItsResultRegisters := by
  unfold Obligations.EveryCallEndsWithItsResultRegisters
  intro s t hop hbusy hphase hexec hended
  rcases callEdge_cases s t hop hphase hexec with ⟨hframe, _⟩ | ⟨c, hends⟩
  · rw [hframe] at hended
    exact absurd hbusy (Bool.eq_false_iff.1 hended)
  · obtain ⟨hidle, hnext, hdev, _, hdone, _⟩ := callEnds_registers hends
    obtain ⟨u, p, hfinish, _, _, _, hokFifo, hidleFifo, hcrcEq, hcrcNe, hmem, _⟩ := hends
    rw [FourthByte.finishCall_eq_endedCall] at hfinish
    cases hfinish
    refine ⟨hidle, hnext, hdev, hdone, hmem, fun hne => ⟨if_neg hne, if_neg hne⟩, fun hok hcrc => ?_, fun hok => ?_,
      fun hcrc => ?_, fun hflush => if_pos ((flushes_iff c).2 hflush), fun hok => ?_, fun hno => ?_⟩
    · have hnot : ¬c.decoded = true := fun h => ((decoded_iff c).1 h).elim hok hcrc
      exact ⟨if_neg hnot, if_neg hnot⟩
    · exact congrArg (if c.decoded then · else 0) (hcrcEq hok)
    · obtain rfl : c = .invalidCrc := hcrc
      exact hcrcNe rfl
    · obtain rfl : c = .ok := hok
      exact hokFifo rfl
    · obtain rfl : c = .idle := hno
      exact hidleFifo rfl

end Sys2Proof.Proofs.CallEdges

/-! SUPPORT. Calls over several edges: a silent window, a whole reply, and the round robin (42_polling.md R152 to R163). -/

namespace Sys2Proof.Proofs.Calls

open Sys2Proof Sys2Proof.Machine Sys2Proof.Claims Sys2Proof.Proofs.CommandFrame Sys2Proof.Proofs.Edge
  Sys2Proof.Proofs.HostPort Sys2Proof.Proofs.Completion Sys2Proof.Proofs.CallEdges

/-! ### Runs -/

theorem runs_add {a b : Nat} {s t : State} (h : runs a s = .next t) : runs (a + b) s = runs b t := by
  induction a generalizing s with
  | zero =>
    cases h
    rw [Nat.zero_add]
  | succ a ih =>
    cases hstep : step s with
    | next u =>
      rw [runs_succ hstep] at h
      rw [Nat.add_right_comm, runs_succ hstep, ih h]
    | fault f => simp only [runs, hstep, reduceCtorEq] at h
    | refused r => simp only [runs, hstep, reduceCtorEq] at h

/-- The next inputs are at the head of the script. -/
theorem ports_of_script {s : State} {p : Ports} {rest : List Ports} (h : s.script = p :: rest) : s.ports = p := by
  rw [State.ports, h]
  rfl

/-! ### A call that waits for a byte -/

/-- A call is in progress, its engine takes an edge at every step, and no byte is waiting. -/
structure AwaitsByte (s : State) : Prop where
  params : legalParams s.params = true
  busy : s.status.busy = true
  opcode : s.engine.opcode = pollStepOpcode
  due : s.engine.latLeft ≤ 1
  fifo : s.rxFifo = []

/-- An edge of a call is what its engine works on; the host access at it reaches the sticky flags and DONE alone, and DONE is
set where the call ends. -/
theorem step_of_callEdge {s u : State} (h : AwaitsByte s) (hr : s.ports.rst = false)
    (hexec : exec s.beforeEngine.fetch s.beforeEngine = .next u) :
    ∃ st : Status, step s = .next { u with status := st, script := s.script.tail } ∧ st.busy = u.status.busy ∧
      st.result = u.status.result ∧ (u.status.busy = false → st.done = true) := by
  have hengine := (beforeEngine_engineStep_runs h.busy h.due).trans hexec
  obtain ⟨st, hfinish, hbusy, hresult⟩ := finishEdge_of_busy h.busy u
  refine ⟨st, (step_of_engine h.params hr hengine).trans (congrArg _ hfinish), hbusy, hresult, fun hu => ?_⟩
  have hdone := (edge_done hengine).2 (.inl ⟨h.busy, by rw [hfinish]; exact hbusy.trans hu⟩)
  rwa [hfinish] at hdone

/-- The call goes on after its edge, the byte of the edge taken. -/
theorem awaitsByte_next {s u : State} (h : AwaitsByte s) (hk : HostStateKept s.beforeEngine u) (hfifo : u.rxFifo = [])
    {st : Status} (hbusy : st.busy = true) : AwaitsByte { u with status := st, script := s.script.tail } where
  params := by rw [hk.params, State.beforeEngine_params]; exact h.params
  busy := hbusy
  opcode := by rw [hk.engine, State.beforeEngine_engine]; exact h.opcode
  due := by rw [hk.engine, State.beforeEngine_engine]; exact h.due
  fifo := hfifo

/-! ### A silent window (R159) -/

/-- How the window of a phase ends. -/
def expiry (ph : BpeState) : Result := if ph = .waitId then .idle else .timeout

theorem exec_fetch_of_silence {s : State} (ho : s.engine.opcode = pollStepOpcode) (hf : s.rxFifo = [])
    (hphase : s.poll.bpe = .waitId ∨ s.poll.bpe = .waitData) : exec s.fetch s = windowEdge (expiry s.poll.bpe) s := by
  rcases hphase with hp | hp
  · rw [exec_fetch_waitId_nil ho hp hf, hp]
    rfl
  · rw [exec_fetch_waitData_nil ho hp hf, hp]
    rfl

/-- At an edge without an arrival the engine meets an empty FIFO and looks at the window. -/
theorem exec_fetch_beforeEngine_of_silence {s : State} (h : AwaitsByte s)
    (hphase : s.poll.bpe = .waitId ∨ s.poll.bpe = .waitData) (hv : s.ports.rxValid = false) :
    exec s.beforeEngine.fetch s.beforeEngine = windowEdge (expiry s.poll.bpe) s.beforeEngine := by
  have hfifo : s.beforeEngine.rxFifo = [] := by
    rw [QueueAndCounters.beforeEngine_rxFifo, if_neg fun hc => Bool.eq_false_iff.1 hv hc.1, h.fifo]
  rw [exec_fetch_of_silence (by rw [State.beforeEngine_engine]; exact h.opcode) hfifo
    (by rwa [State.beforeEngine_poll_bpe]), State.beforeEngine_poll_bpe]

/-- A silent edge inside the window: the call waits on. -/
theorem waits_in_window {s : State} (h : AwaitsByte s) (hphase : s.poll.bpe = .waitId ∨ s.poll.bpe = .waitData)
    (hr : s.ports.rst = false) (hv : s.ports.rxValid = false)
    (hwin : QueueAndCounters.down s.ports s.poll.winLeft ≠ 0) :
    ∃ t, step s = .next t ∧ AwaitsByte t ∧ t.poll.bpe = s.poll.bpe ∧
      t.poll.winLeft.toNat = QueueAndCounters.down s.ports s.poll.winLeft ∧ t.script = s.script.tail := by
  have hnot : s.beforeEngine.poll.winLeft ≠ 0 := fun h0 => hwin (by
    rw [← QueueAndCounters.beforeEngine_winLeft, h0]
    rfl)
  have hexec : exec s.beforeEngine.fetch s.beforeEngine = .next s.beforeEngine :=
    (exec_fetch_beforeEngine_of_silence h hphase hv).trans (if_neg hnot)
  have hfifo : s.beforeEngine.rxFifo = [] := by
    rw [QueueAndCounters.beforeEngine_rxFifo, if_neg fun hc => Bool.eq_false_iff.1 hv hc.1, h.fifo]
  obtain ⟨st, hstep, hbusy, _⟩ := step_of_callEdge h hr hexec
  refine ⟨_, hstep, awaitsByte_next h (.refl _) hfifo ?_, State.beforeEngine_poll_bpe s,
    QueueAndCounters.beforeEngine_winLeft s, rfl⟩
  rw [hbusy, State.beforeEngine_status_busy, h.busy]

/-- A silent edge at which the window is 0: the call ends. -/
theorem ends_at_window_end {s : State} (h : AwaitsByte s) (hphase : s.poll.bpe = .waitId ∨ s.poll.bpe = .waitData)
    (hr : s.ports.rst = false) (hv : s.ports.rxValid = false)
    (hwin : QueueAndCounters.down s.ports s.poll.winLeft = 0) :
    ∃ t, step s = .next t ∧ t.status.busy = false ∧ t.status.done = true ∧ t.poll.bpe = .idle ∧
      t.status.result = expiry s.poll.bpe := by
  have hzero : s.beforeEngine.poll.winLeft = 0 :=
    BitVec.eq_of_toNat_eq ((QueueAndCounters.beforeEngine_winLeft s).trans hwin)
  have hexec : exec s.beforeEngine.fetch s.beforeEngine = finishCall (expiry s.poll.bpe) [] s.beforeEngine :=
    (exec_fetch_beforeEngine_of_silence h hphase hv).trans (if_pos hzero)
  rw [FourthByte.finishCall_eq_endedCall] at hexec
  obtain ⟨st, hstep, hbusy, hresult, hdone⟩ := step_of_callEdge h hr hexec
  exact ⟨_, hstep, hbusy, hdone rfl, rfl, hresult⟩

theorem ticks_cons (p : Ports) (l : List Ports) : ticks (p :: l) = ticks l + if p.tickMs = true then 1 else 0 :=
  List.countP_cons

/-- Silent edges with fewer Ticks than the window has left: each Tick takes one off. -/
theorem waits_over_silence (l rest : List Ports) : ∀ s : State, AwaitsByte s →
    (s.poll.bpe = .waitId ∨ s.poll.bpe = .waitData) → s.script = l ++ rest →
    (∀ q ∈ l, q.rst = false ∧ q.rxValid = false) → ticks l < s.poll.winLeft.toNat →
    ∃ u, runs l.length s = .next u ∧ AwaitsByte u ∧ u.poll.bpe = s.poll.bpe ∧
      u.poll.winLeft.toNat + ticks l = s.poll.winLeft.toNat ∧ u.script = rest := by
  induction l with
  | nil => exact fun s h _ hscript _ _ => ⟨s, rfl, h, rfl, rfl, hscript⟩
  | cons p l ih =>
    intro s h hphase hscript hquiet hticks
    have hports : s.ports = p := ports_of_script hscript
    obtain ⟨hr, hv⟩ := hquiet p List.mem_cons_self
    rw [ticks_cons] at hticks
    have hdown : QueueAndCounters.down s.ports s.poll.winLeft + (if p.tickMs = true then 1 else 0) =
        s.poll.winLeft.toNat := by
      rw [QueueAndCounters.down, hports]
      split_ifs at hticks ⊢ <;> omega
    obtain ⟨t, hstep, ht, hbpe, hwin, hrest⟩ :=
      waits_in_window h hphase (hports ▸ hr) (hports ▸ hv) (by omega)
    obtain ⟨u, hruns, hu, hbpeU, hwinU, hrestU⟩ := ih t ht (hbpe ▸ hphase) (by rw [hrest, hscript]; rfl)
      (fun q hq => hquiet q (List.mem_cons_of_mem p hq)) (by omega)
    exact ⟨u, (runs_succ hstep _).trans hruns, hu, hbpeU.trans hbpe, by rw [ticks_cons]; omega, hrestU⟩

/-- Settles O28: before the last Tick the window has one millisecond left, and the last Tick takes it. -/
theorem silentWindowEndsAtItsLastTick : Obligations.SilentWindowEndsAtItsLastTick := by
  unfold Obligations.SilentWindowEndsAtItsLastTick
  intro s l p rest hparams hbusy hop hdue hphase hfifo hscript hquiet htick hticks
  obtain ⟨u, hruns, hu, hbpe, hwin, hrest⟩ := waits_over_silence l (p :: rest) s ⟨hparams, hbusy, hop, hdue, hfifo⟩ hphase
    hscript (fun q hq => hquiet q (List.mem_append_left _ hq)) (by omega)
  refine ⟨⟨u, hruns, hu.busy, hbpe⟩, ?_⟩
  obtain ⟨hr, hv⟩ := hquiet p (List.mem_append_right _ List.mem_cons_self)
  have hports : u.ports = p := ports_of_script hrest
  have hlast : QueueAndCounters.down u.ports u.poll.winLeft = 0 := by
    rw [QueueAndCounters.down, hports, if_pos htick]
    omega
  obtain ⟨t, hstep, hend⟩ := ends_at_window_end hu (hbpe ▸ hphase) (hports ▸ hr) (hports ▸ hv) hlast
  rw [hbpe] at hend
  exact ⟨t, (runs_add hruns).trans (runs_one hstep), hend⟩

/-! ### A whole reply (R152 to R158) -/

theorem rxFifoDepth_pos {p : Config.Params} (h : legalParams p = true) : 0 < p.rxFifoDepth := by
  simp only [legalParams, Bool.and_eq_true, decide_eq_true_eq] at h
  omega

/-- The byte that arrives at an edge is the one the engine meets. -/
theorem beforeEngine_rxFifo_of_presents {s : State} {b : Byte} (h : AwaitsByte s) (hp : presents s.ports b) :
    s.beforeEngine.rxFifo = [{ data := b, err := false }] := by
  obtain ⟨_, hv, herr, hdata⟩ := hp
  have hroom : s.rxFifo.length < s.params.rxFifoDepth := by
    rw [h.fifo]
    exact rxFifoDepth_pos h.params
  rw [QueueAndCounters.beforeEngine_rxFifo, if_pos ⟨hv, hroom⟩, h.fifo, herr, hdata]
  rfl

/-- A call in the data phase with `cnt` payload bytes taken into `f`. -/
structure InDataPhase (s : State) (cnt : Nat) (f : RxFrame) (id : BitVec 7) (l : List Ports) : Prop where
  awaits : AwaitsByte s
  phase : s.poll.bpe = .waitData
  count : s.poll.dataCnt.toNat = cnt
  frame : s.poll.frame = f
  callId : s.poll.callId = id
  script : s.script = l

/-- R155: the echo of the polled terminal opens the data phase at the edge of its arrival. -/
theorem receives_echo {s : State} {p : Ports} {rest : List Ports} (h : AwaitsByte s) (hphase : s.poll.bpe = .waitId)
    (hscript : s.script = p :: rest) (hp : presents p (s.poll.callId.setWidth 8)) :
    ∃ t, step s = .next t ∧ InDataPhase t 0 s.poll.frame s.poll.callId rest := by
  have hports : s.ports = p := ports_of_script hscript
  rw [← hports, ← WireBytes.wireByte_false] at hp
  have hfifo := beforeEngine_rxFifo_of_presents h hp
  have hecho : (wireByte false s.poll.callId).getLsbD 7 = false ∧
      (wireByte false s.poll.callId).extractLsb' 0 7 = s.beforeEngine.poll.callId :=
    ⟨WireBytes.isMasterByte_wireByte .., (WireBytes.wireField_wireByte ..).trans (State.beforeEngine_poll_callId s).symm⟩
  have hexec := (exec_fetch_waitId_byte s.beforeEngine _ [] (by rwa [State.beforeEngine_poll_bpe]) hfifo rfl).trans
    (takeEcho_accepted hecho)
  obtain ⟨st, hstep, hbusy, _⟩ := step_of_callEdge h hp.1 hexec
  refine ⟨_, hstep, awaitsByte_next h (exec_kept hexec) (congrArg List.tail hfifo) ?_, rfl, rfl,
    State.beforeEngine_poll_frame s, State.beforeEngine_poll_callId s, by rw [hscript]; rfl⟩
  rw [hbusy, State.beforeEngine_status_busy, h.busy]

/-- R156: a payload byte before the fourth is taken at the edge of its arrival. -/
theorem receives_payload {s : State} {cnt : Nat} {f : RxFrame} {id : BitVec 7} {p : Ports} {rest : List Ports} {b : Byte}
    (h : InDataPhase s cnt f id (p :: rest)) (hcnt : cnt < 3) (hp : presents p b) :
    ∃ t, step s = .next t ∧ InDataPhase t (cnt + 1) (f.set cnt b) id rest := by
  obtain ⟨ha, hphase, hcount, hframe, hid, hscript⟩ := h
  rw [← ports_of_script hscript] at hp
  have hfifo := beforeEngine_rxFifo_of_presents ha hp
  have hbcount : s.beforeEngine.poll.dataCnt.toNat = cnt := by rw [State.beforeEngine_poll_dataCnt, hcount]
  have hexec := (exec_fetch_waitData_byte s.beforeEngine _ [] (by rwa [State.beforeEngine_poll_bpe]) hfifo rfl).trans
    (takeData_eq b s.beforeEngine.popRx (hbcount.trans_lt hcnt))
  obtain ⟨st, hstep, hbusy, _⟩ := step_of_callEdge ha hp.1 hexec
  refine ⟨_, hstep, awaitsByte_next ha (exec_kept hexec) (congrArg List.tail hfifo) ?_, ?_, ?_, ?_, ?_, by rw [hscript]; rfl⟩
  · rw [hbusy, State.popRx_status, State.beforeEngine_status_busy, ha.busy]
  · exact (State.beforeEngine_poll_bpe s).trans hphase
  · change (s.beforeEngine.poll.dataCnt + 1).toNat = cnt + 1
    rw [BitVec.toNat_add, hbcount]
    exact Nat.mod_eq_of_lt (show cnt + 1 < 2 ^ 3 by omega)
  · change s.beforeEngine.poll.frame.set s.beforeEngine.poll.dataCnt.toNat b = f.set cnt b
    rw [hbcount, State.beforeEngine_poll_frame, hframe]
  · exact (State.beforeEngine_poll_callId s).trans hid

/-- R157, R158: a fourth byte that makes the frame a stuffing with a CRC that fits ends the call OK. -/
theorem receives_last {s : State} {f : RxFrame} {id : BitVec 7} {p : Ports} {rest : List Ports} {b p0 p1 p2 : Byte}
    (h : InDataPhase s 3 f id (p :: rest)) (hp : presents p b)
    (hmark : ({ f with b3 := b } : RxFrame).bytes.any (·.getLsbD 7) = false)
    (hpay : unstuff ({ f with b3 := b } : RxFrame).bytes = [p0, p1, p2]) (hcrc : crc8 [p0, p1] = p2) :
    ∃ t, step s = .next t ∧ t.status.busy = false ∧ t.status.done = true ∧ t.status.result = .ok ∧ t.poll.dev = id ∧
      t.poll.nextId = id ∧ t.poll.trim = trimField (p1 ++ p0) ∧ t.poll.btn = btnField (p1 ++ p0) ∧
      t.poll.crcRx = t.poll.crcCalc ∧ t.rxFifo = [] := by
  obtain ⟨ha, hphase, hcount, hframe, hid, hscript⟩ := h
  rw [← ports_of_script hscript] at hp
  have hfifo := beforeEngine_rxFifo_of_presents ha hp
  have hbcount : s.beforeEngine.poll.dataCnt = 3 := by
    rw [State.beforeEngine_poll_dataCnt]
    exact BitVec.eq_of_toNat_eq hcount
  have hbframe : (FourthByte.fourthTaken s.beforeEngine b []).poll.frame = { f with b3 := b } :=
    congrArg (fun g : RxFrame => { g with b3 := b }) ((State.beforeEngine_poll_frame s).trans hframe)
  have hnot : ¬FourthByte.WrongMarker (FourthByte.fourthTaken s.beforeEngine b []) := fun ⟨_, hany⟩ => by
    rw [hbframe, hmark] at hany
    exact nomatch hany
  have hexec := (FourthByte.exec_fetch_fourthByte (by rwa [State.beforeEngine_poll_bpe]) hbcount hfifo).trans
    (FourthByte.checkReply_of_crc_eq hnot (by rwa [hbframe]) hcrc)
  obtain ⟨st, hstep, hbusy, hresult, hdone⟩ := step_of_callEdge ha hp.1 hexec
  have hcall : s.beforeEngine.poll.callId = id := (State.beforeEngine_poll_callId s).trans hid
  exact ⟨_, hstep, hbusy, hdone rfl, hresult, hcall, hcall, rfl, rfl, rfl, rfl⟩

/-! ### What a terminal sends (R91) -/

theorem extract_append_extract (w : Reg16) : w.extractLsb' 8 8 ++ w.extractLsb' 0 8 = w := by
  have hbit : ∀ t, BitVec.getLsbD (w := 16) (w.extractLsb' 8 8 ++ w.extractLsb' 0 8) t =
      if t < 8 then (w.extractLsb' 0 8).getLsbD t else (w.extractLsb' 8 8).getLsbD (t - 8) := fun _ =>
    BitVec.getLsbD_append
  refine BitVec.eq_of_getLsbD_eq fun t ht => ?_
  rw [hbit, BitVec.getLsbD_extractLsb', BitVec.getLsbD_extractLsb']
  split
  case isTrue h => rw [decide_eq_true h, Bool.true_and, Nat.zero_add]
  case isFalse h =>
    rw [decide_eq_true (show t - 8 < 8 by omega), Bool.true_and, show 8 + (t - 8) = t by omega]

theorem trimField_append (btn : BitVec 6) (trim : BitVec 10) : trimField (btn ++ trim) = trim :=
  Registers.extractLsb'_append_low btn trim

theorem btnField_append (btn : BitVec 6) (trim : BitVec 10) : btnField (btn ++ trim) = btn :=
  (Registers.extractLsb'_append_high btn trim 0 6).trans BitVec.extractLsb'_eq_self

/-- Settles O27: the echo, three payload bytes and the fourth, each at its edge; the frame is a stuffing, so unstuffing
gives the payload that the terminal assembled, whose CRC fits. -/
theorem assembledReplyIsReported : Obligations.AssembledReplyIsReported := by
  unfold Obligations.AssembledReplyIsReported
  intro s trim btn e d0 d1 d2 d3 rest w0 w1 w2 w3 hparams hbusy hop hdue hphase hfifo hreply hscript he h0 h1 h2 h3
  obtain ⟨t1, hstep1, hin1⟩ := receives_echo ⟨hparams, hbusy, hop, hdue, hfifo⟩ hphase hscript he
  obtain ⟨t2, hstep2, hin2⟩ := receives_payload hin1 (by decide) h0
  obtain ⟨t3, hstep3, hin3⟩ := receives_payload hin2 (by decide) h1
  obtain ⟨t4, hstep4, hin4⟩ := receives_payload hin3 (by decide) h2
  have hbytes : ({ ((s.poll.frame.set 0 w0).set 1 w1).set 2 w2 with b3 := w3 } : RxFrame).bytes =
      replyFrame trim btn := hreply.symm
  have hmark : (replyFrame trim btn).any (·.getLsbD 7) = false := by
    rw [List.any_eq_false]
    intro b hb
    rw [Stream.getLsbD_marker_stuff false _ hb]
    decide
  obtain ⟨t5, hstep5, hend⟩ := receives_last hin4 h3 (hbytes ▸ hmark)
    ((congrArg unstuff hbytes).trans (Stream.unstuff_stuff false (assemblePayload trim btn))) rfl
  rw [extract_append_extract, trimField_append, btnField_append] at hend
  have hruns : runs 5 s = .next t5 := by
    rw [runs_succ hstep1, runs_succ hstep2, runs_succ hstep3, runs_succ hstep4, runs_one hstep5]
  exact ⟨t5, hruns, hend⟩

/-! ### The round robin (R163) -/

/-- The `k`-th advance of the id. -/
theorem toNat_nextPollId_iterate {count : BitVec 7} (hc : count ≠ 0) (p : BitVec 7) (k : Nat) :
    ((nextPollId · count)^[k + 1] p).toNat = (p.toNat + (k + 1)) % count.toNat := by
  induction k with
  | zero => exact (Soundness.toNat_nextPollId p hc).1
  | succ k ih =>
    rw [Function.iterate_succ_apply', (Soundness.toNat_nextPollId _ hc).1, ih, Nat.mod_add_mod, Nat.add_assoc p.toNat]

/-- Counting on from `p`, each residue is met once in every `c` numbers. -/
theorem existsUnique_add_mod {c i : Nat} (p : Nat) (hi : i < c) : ∃! k, 1 ≤ k ∧ k ≤ c ∧ (p + k) % c = i := by
  have hmod : ∀ j, j < c → (p + (j + 1)) % c = if c ≤ (p + 1) % c + j then (p + 1) % c + j - c else (p + 1) % c + j := by
    intro j hj
    rw [show p + (j + 1) = p + 1 + j by omega, Nat.add_mod_eq_ite, Nat.mod_eq_of_lt hj]
  have ha : (p + 1) % c < c := Nat.mod_lt _ (by omega)
  generalize (p + 1) % c = a at hmod ha
  refine ⟨(if a ≤ i then i - a else i + c - a) + 1, ⟨by omega, by split <;> omega, ?_⟩, fun k ⟨h1, hk, hres⟩ => ?_⟩
  · rw [hmod _ (by split <;> omega)]
    split_ifs <;> omega
  · obtain ⟨j, rfl⟩ : ∃ j, k = j + 1 := ⟨k - 1, by omega⟩
    rw [hmod j (by omega)] at hres
    split_ifs at hres ⊢ <;> omega

/-- The first TERMINAL_COUNT advances visit every id once. -/
theorem nextPollId_visits {count : BitVec 7} (hc : count ≠ 0) (p id : BitVec 7) (hid : id < count) :
    ∃! k, 1 ≤ k ∧ k ≤ count.toNat ∧ (nextPollId · count)^[k] p = id := by
  have hiff : ∀ k, (1 ≤ k ∧ k ≤ count.toNat ∧ (nextPollId · count)^[k] p = id) ↔
      (1 ≤ k ∧ k ≤ count.toNat ∧ (p.toNat + k) % count.toNat = id.toNat) := fun k =>
    and_congr_right fun h1 => and_congr_right fun _ => by
      obtain ⟨j, rfl⟩ : ∃ j, k = j + 1 := ⟨k - 1, by omega⟩
      rw [← toNat_nextPollId_iterate hc]
      exact BitVec.toNat_inj.symm
  simp only [hiff]
  exact existsUnique_add_mod p.toNat hid

/-- The call in progress, if there is one, polls the id that follows the stored one. -/
def PollsNextId (s : State) : Prop :=
  s.poll.bpe ≠ .idle → s.poll.callId = nextPollId s.poll.nextId s.regs.terminalCount

/-- What an edge does to the stored id: a call that ends stores its own, and until then it is kept. -/
def PollAdvances (s t : State) : Prop :=
  if s.poll.bpe ≠ .idle ∧ t.poll.bpe = .idle then t.poll.dev = s.poll.callId ∧ t.poll.nextId = s.poll.callId
  else t.poll.nextId = s.poll.nextId ∧ PollsNextId t

theorem engineStep_pollAdvances {s t : State} (hs : PollsNextId s) (h : s.engineStep = .next t) : PollAdvances s t := by
  have hregs : t.regs = s.regs := (engineStep_kept h).regs
  have hsame : t.poll = s.poll → PollAdvances s t := fun hpoll => by
    unfold PollAdvances PollsNextId
    rw [hpoll, hregs, if_neg fun ⟨h1, h2⟩ => h1 h2]
    exact ⟨rfl, hs⟩
  rcases engineStep_next_cases h with ⟨_, rfl⟩ | ⟨_, _, rfl⟩ | ⟨_, _, hexec⟩
  · exact hsame rfl
  · exact hsame rfl
  · rcases engineEdge_cases hexec with
      ⟨_, _, hcommand⟩ | ⟨_, _, rfl⟩ | ⟨hidle, _, rfl⟩ | ⟨hphase, _, hgo, hid, _, hnext, _⟩ |
      ⟨hphase, c, hends⟩
    · exact hsame (by rw [hcommand.frame])
    · exact hsame rfl
    · rw [PollAdvances, if_neg fun ⟨h1, _⟩ => h1 hidle]
      exact ⟨rfl, fun _ => rfl⟩
    · rw [PollAdvances, if_neg fun ⟨_, h2⟩ => hgo h2]
      refine ⟨hnext, fun _ => ?_⟩
      rw [hid, hnext, hregs]
      exact hs hphase
    · obtain ⟨hidle, hnext, hdev, _⟩ := callEnds_registers hends
      rw [PollAdvances, if_pos ⟨hphase, hidle⟩]
      exact ⟨hdev, hnext⟩

/-- The host writes TERMINAL_COUNT at this edge. -/
def WritesTerminalCount (p : Ports) : Prop := p.regWe = true ∧ p.regAddr = 0x08

theorem regAt_eq_terminalCount_iff (a : BitVec 7) : regAt a = .terminalCount ↔ a = 0x08 := by
  revert a
  decide

theorem writeReg_terminalCount {s : State} {r : RegName} {v : Reg16} (h : r ≠ .terminalCount) :
    (s.writeReg r v).regs.terminalCount = s.regs.terminalCount := by
  cases r with
  | terminalCount => exact absurd rfl h
  | btnMean b => cases b <;> rfl
  | btnInterval b => cases b <;> rfl
  | _ => rfl

theorem finishEdge_terminalCount {s : State} (h : ¬WritesTerminalCount s.ports) (t : State) :
    (s.finishEdge t).regs.terminalCount = t.regs.terminalCount := by
  rcases finishEdge_cases s t with ⟨_, hf⟩ | ⟨_, hf⟩ | ⟨_, hf⟩ | ⟨_, hf⟩ | ⟨hw, hf⟩ <;> rw [hf]
  · rfl
  · rfl
  · exact writeReg_terminalCount fun hreg => h ⟨hw.write, (regAt_eq_terminalCount_iff _).1 hreg⟩

/-- The same over a whole edge, which keeps TERMINAL_COUNT too. -/
theorem step_pollAdvances {s t : State} (hs : PollsNextId s) (hstep : step s = .next t) (hr : s.ports.rst = false)
    (hw : ¬WritesTerminalCount s.ports) :
    PollAdvances s t ∧ t.regs.terminalCount = s.regs.terminalCount ∧ t.script = s.script.tail := by
  obtain ⟨_, u, hengine, rfl⟩ := step_next_of_no_rst hstep hr
  have hbefore : PollsNextId s.beforeEngine := by
    simpa only [PollsNextId, State.beforeEngine_poll_bpe, State.beforeEngine_poll_callId, State.beforeEngine_poll_nextId,
      State.beforeEngine_regs] using hs
  have hadv := engineStep_pollAdvances hbefore hengine
  have hcount := finishEdge_terminalCount hw u
  refine ⟨?_, ?_, rfl⟩
  · simpa only [PollAdvances, PollsNextId, State.finishEdge_poll, hcount, State.beforeEngine_poll_bpe,
      State.beforeEngine_poll_callId, State.beforeEngine_poll_nextId] using hadv
  · rw [hcount, (engineStep_kept hengine).regs]
    exact congrArg HostRegs.terminalCount (State.beforeEngine_regs s)

/-- The calls that end in a run poll the successive advances of the stored id. -/
theorem polledIds_getElem? (k : Nat) : ∀ s : State, PollsNextId s →
    (∀ j, j < k → (s.script.getD j idlePorts).rst = false ∧ ¬WritesTerminalCount (s.script.getD j idlePorts)) →
    ∀ n, n < (polledIds k s).length →
      (polledIds k s)[n]? = some ((nextPollId · s.regs.terminalCount)^[n + 1] s.poll.nextId) := by
  induction k with
  | zero => exact fun s _ _ n hn => absurd hn (Nat.not_lt_zero n)
  | succ k ih =>
    intro s hs hquiet n hn
    obtain ⟨hr, hw⟩ := hquiet 0 (Nat.succ_pos k)
    rw [← ports_eq_getD] at hr hw
    rw [polledIds] at hn ⊢
    cases hstep : step s with
    | fault f => rw [hstep] at hn; exact absurd hn (Nat.not_lt_zero n)
    | refused r => rw [hstep] at hn; exact absurd hn (Nat.not_lt_zero n)
    | next t =>
      obtain ⟨hadv, hcount, hscript⟩ := step_pollAdvances hs hstep hr hw
      have hquiet' : ∀ j, j < k → (t.script.getD j idlePorts).rst = false ∧
          ¬WritesTerminalCount (t.script.getD j idlePorts) := fun j hj => by
        rw [hscript, getD_tail]
        exact hquiet (j + 1) (Nat.succ_lt_succ hj)
      rw [hstep] at hn
      dsimp only at hn ⊢
      by_cases hend : s.poll.bpe ≠ .idle ∧ t.poll.bpe = .idle
      · rw [PollAdvances, if_pos hend] at hadv
        obtain ⟨hdev, hnext⟩ := hadv
        rw [if_pos hend] at hn ⊢
        have ht : PollsNextId t := fun hphase => absurd hend.2 hphase
        cases n with
        | zero =>
          rw [List.getElem?_cons_zero, hdev, hs hend.1]
          rfl
        | succ n =>
          rw [List.getElem?_cons_succ, ih t ht hquiet' n (Nat.lt_of_succ_lt_succ hn), hcount, hnext, hs hend.1,
            Function.iterate_succ_apply _ (n + 1)]
      · rw [PollAdvances, if_neg hend] at hadv
        obtain ⟨hnext, ht⟩ := hadv
        rw [if_neg hend] at hn ⊢
        rw [ih t ht hquiet' n hn, hcount, hnext]

/-- Settles O29. -/
theorem roundRobinVisitsEachTerminalOnce : Obligations.RoundRobinVisitsEachTerminalOnce := by
  unfold Obligations.RoundRobinVisitsEachTerminalOnce
  refine ⟨fun count p hc => ⟨fun k hk => ?_, fun id hid => nextPollId_visits hc p id hid⟩, fun k s hidle hquiet => ?_⟩
  · obtain ⟨j, rfl⟩ : ∃ j, k = j + 1 := ⟨k - 1, by omega⟩
    exact toNat_nextPollId_iterate hc p j
  · exact polledIds_getElem? k s (fun hphase => absurd hidle hphase) hquiet

end Sys2Proof.Proofs.Calls

/-! SUPPORT. The samples of the button classifier: refused, in no window, or a detection (43_buttons.md R181 to R186). -/

namespace Sys2Proof.Proofs.Detections

open Sys2Proof Sys2Proof.Machine Sys2Proof.Claims

/-! ### BTN_SAMPLE -/

theorem exec_btnSample_of_debounce {s : State} (h : s.engine.debounceAtIssue ≠ 0) :
    exec .btnSample s = .next { ended s .debounce with resByte := 0 } := if_pos h

/-- Outside a debounce window a sample is taken: the answer is what `read_button` says of it. -/
theorem exec_btnSample_of_taken {s : State} (h : s.engine.debounceAtIssue = 0) :
    exec .btnSample s =
      match readButton s.regs s.operandSample with
      | none => .next { ended s .ok with resByte := 0, btn := { s.btn with last := none, count := 0 } }
      | some b => .next { ended s .ok with resByte := b.number.setWidth 8, btn := detect s.regs s.btn b } := by
  have htaken : ¬s.operandDebounce ≠ 0 := not_not.2 h
  simp only [exec, execBtnSample, if_neg htaken]
  cases readButton s.regs s.operandSample <;> rfl

/-- Settles O32. -/
theorem sampleInDebounceWindowIsRefused : Obligations.SampleInDebounceWindowIsRefused := by
  unfold Obligations.SampleInDebounceWindowIsRefused
  exact fun s h => exec_btnSample_of_debounce h

/-- Settles O33. -/
theorem noDetectionEndsTheRun : Obligations.NoDetectionEndsTheRun := by
  unfold Obligations.NoDetectionEndsTheRun
  intro s h hnone
  rw [exec_btnSample_of_taken h, hnone]

/-! ### A detection (R181, R182) -/

theorem toNat_satIncr (v : Byte) : (satIncr v).toNat = min 255 (v.toNat + 1) := by
  revert v
  decide

/-- The run goes on with the same button, or begins anew. -/
theorem detect_count (r : HostRegs) (u : ButtonUnit) (b : Button) : (detect r u b).count.toNat = runCount u b := by
  have hcount : (detect r u b).count = if u.last = some b then satIncr u.count else 1 := by
    unfold detect
    dsimp only
    generalize (if u.last = some b then satIncr u.count else 1) = cnt
    split <;> exact ButtonUnit.setState_count ..
  rw [hcount, runCount, apply_ite BitVec.toNat, toNat_satIncr]
  rfl

theorem detect_last (r : HostRegs) (u : ButtonUnit) (b : Button) : (detect r u b).last = some b := (detect_run r u b).1

/-- `next_state` by the numbers its operands stand for. -/
theorem nextBtnState_eq (cnt : Byte) (old : BtnState) (h : Byte) :
    nextBtnState cnt old h = detectedState cnt.toNat old h.toNat := by
  have hlit : ∀ v : Byte, cnt = v ↔ cnt.toNat = v.toNat := fun v => BitVec.toNat_inj.symm
  simp only [nextBtnState, detectedState, BitVec.lt_def, gt_iff_lt, hlit]
  rfl

theorem detect_state_same (r : HostRegs) (u : ButtonUnit) (b : Button) :
    (detect r u b).state b = detectedState (runCount u b) (u.state b) r.heldThreshold.toNat := by
  rw [Buttons.detect_state, if_pos rfl, nextBtnState_eq, detect_count]

theorem detect_state_other (r : HostRegs) (u : ButtonUnit) {b c : Button} (h : c ≠ b) :
    (detect r u b).state c = u.state c := by
  rw [Buttons.detect_state, if_neg h]

/-- Settles O34. -/
theorem detectionUpdatesRunStateAndDebounce : Obligations.DetectionUpdatesRunStateAndDebounce := by
  unfold Obligations.DetectionUpdatesRunStateAndDebounce
  refine ⟨by decide, fun s b h hfound => ⟨detect s.regs s.btn b, ?_, detect_last .., detect_count ..,
    detect_state_same .., fun c hc => detect_state_other s.regs s.btn hc, QueueAndCounters.detect_left ..⟩⟩
  rw [exec_btnSample_of_taken h, hfound]

/-! ### Detections in a row (R186) -/

/-- The state a button that was Idle has after `n` detections in a row. -/
def climb (n h : Nat) : BtnState := if n = 1 then .pressed else if n ≤ h then .doublePressed else .held

theorem detectedState_first {h : Nat} (hh : 2 ≤ h) : detectedState 1 .idle h = climb 1 h := by
  have hle : ¬1 > h := by omega
  simp [detectedState, climb, hle]

/-- One more detection moves the button one step up the climb. -/
theorem detectedState_next {n : Nat} (h : Nat) (hn : 1 ≤ n) :
    detectedState (n + 1) (climb n h) h = climb (n + 1) h := by
  have hlater : n + 1 ≠ 1 := by omega
  by_cases hheld : n + 1 > h
  · simp only [detectedState, climb, if_pos hheld, if_neg hlater, if_neg (Nat.not_le.2 hheld)]
  · have hle : n + 1 ≤ h := Nat.not_lt.1 hheld
    have hclimb : climb (n + 1) h = .doublePressed := by rw [climb, if_neg hlater, if_pos hle]
    rw [detectedState, if_neg hheld, hclimb]
    by_cases hsecond : n + 1 = 2
    · rw [if_pos hsecond]
    · have hold : climb n h = .doublePressed := by rw [climb, if_neg (by omega), if_pos (by omega)]
      rw [if_neg hsecond, if_neg fun hc => hlater hc.1, hold]

/-- `n` detections in a row from a new run on: the run counts them, and the button climbs. -/
theorem detect_iterate {r : HostRegs} {u : ButtonUnit} {b : Button} (hidle : u.state b = .idle) (hlast : u.last ≠ some b)
    (hh : 2 ≤ r.heldThreshold.toNat) (n : Nat) (hn : n + 1 ≤ 255) :
    ((detect r · b)^[n + 1] u).last = some b ∧ ((detect r · b)^[n + 1] u).count.toNat = n + 1 ∧
      ((detect r · b)^[n + 1] u).state b = climb (n + 1) r.heldThreshold.toNat := by
  induction n with
  | zero =>
    have hnew : runCount u b = 1 := if_neg hlast
    rw [Function.iterate_one]
    refine ⟨detect_last .., by rw [detect_count, hnew], ?_⟩
    rw [detect_state_same, hnew, hidle, detectedState_first hh]
  | succ n ih =>
    obtain ⟨hrun, hcount, hstate⟩ := ih (by omega)
    rw [Function.iterate_succ_apply']
    generalize (detect r · b)^[n + 1] u = v at hrun hcount hstate
    have hnext : runCount v b = n + 1 + 1 := by
      rw [runCount, if_pos hrun, hcount]
      omega
    refine ⟨detect_last .., by rw [detect_count, hnext], ?_⟩
    rw [detect_state_same, hnext, hstate, detectedState_next _ (by omega)]

/-- Settles O36. -/
theorem consecutiveDetectionsClimb : Obligations.ConsecutiveDetectionsClimb := by
  unfold Obligations.ConsecutiveDetectionsClimb
  intro r u b n hidle hlast hh h1 h255
  obtain ⟨k, rfl⟩ : ∃ k, n = k + 1 := ⟨n - 1, by omega⟩
  exact (detect_iterate hidle hlast hh k h255).2

end Sys2Proof.Proofs.Detections
